-- ==== Sys2Proof/Word.lean ====
section
/-! DEFINITION. The word types of gf2n_core.

An element value and a modulus are `W`-bit quantities, `W` one of 8, 16, 32, 64
(`00_scope.md` R3). `W` is a build-time parameter carried as data, so every
`W`-bit quantity is held in a 64-bit word whose bits at position `W` and above
are zero (notes/assumptions/4.md; the invariant is `Safety.lean`'s). -/

namespace Sys2Proof

/-- A `W`-bit quantity, held in 64 bits; also the 64-bit immediates and results
(`30_encoding.md` R40, R46). Bit `i` is the coefficient of `x^i` (`00_scope.md` R4). -/
abbrev Word := BitVec 64

/-- A byte of a canonical byte image (`30_encoding.md` R47). -/
abbrev Byte := BitVec 8

/-- A 4-bit register field: it names one of `E0` .. `E15` (`30_encoding.md` R41). -/
abbrev Reg := BitVec 4

end Sys2Proof
end

