-- ==== Sys2Proof/Config.lean ====
section
/-! DEFINITION. What an instance of gf2n_core fixes at build time (`00_scope.md` R3),
and the two free values of the model. -/

namespace Sys2Proof

/-- The legal values of the parameter `W` (`00_scope.md` R3). -/
inductive Width where
  | w8 | w16 | w32 | w64
  deriving DecidableEq, Repr

/-- `W` as a number of bits. -/
def Width.bits : Width → Nat
  | .w8 => 8
  | .w16 => 16
  | .w32 => 32
  | .w64 => 64

/-- The parameter `FIELD_MODE` (`00_scope.md` R3, `10_state.md` R15). -/
inductive FieldMode where
  /-- the field state is held per register -/
  | runtime
  /-- `FIXED(M)`: every register's field state is that of the modulus `M` -/
  | fixed (m : Word)
  deriving DecidableEq, Repr

/-- The parameters of an instance. 'Every parameter is fixed at build time of the
instance; none changes at run time' (`00_scope.md` R3). -/
structure Params where
  /-- `W` -/
  width : Width
  /-- `FIELD_MODE` -/
  fieldMode : FieldMode
  /-- `LOGDEG_MAX`, the largest field degree the log-table bank can hold -/
  logDegMax : Nat
  /-- `HAS_FT`, whether the option `FT` is present -/
  hasFt : Bool
  /-- `FTDEG_MAX`, the largest field degree the full-table bank can hold;
  meaningful when `hasFt` is true -/
  ftDegMax : Nat
  deriving DecidableEq, Repr

/-- `W` in bits. -/
def Params.bits (p : Params) : Nat := p.width.bits

/-- Whether a 64-bit quantity is a `W`-bit quantity: its bits `63:W` are zero
(`30_encoding.md` R42). -/
def Params.fits (p : Params) (v : Word) : Bool := decide (v.toNat < 2 ^ p.bits)

/-- A legal `FIELD_MODE`: in `FIXED(M)`, `M` is a `W`-bit modulus and `M >= 2`
(`00_scope.md` R3). -/
def Params.fieldModeLegal (p : Params) : Bool :=
  match p.fieldMode with
  | .runtime => true
  | .fixed m => decide (2 ≤ m.toNat) && p.fits m

/-- The legal values of the parameters (`00_scope.md` R3). -/
abbrev Params.Legal (p : Params) : Prop :=
  p.fieldModeLegal = true ∧
  2 ≤ p.logDegMax ∧ p.logDegMax ≤ p.bits - 1 ∧
  (p.hasFt = true → 1 ≤ p.ftDegMax ∧ p.ftDegMax ≤ p.bits - 1)

/-- The reference configuration REF8 (`00_scope.md` R3). -/
def Params.ref8 : Params :=
  { width := .w8, fieldMode := .runtime, logDegMax := 7, hasFt := true, ftDegMax := 4 }

/-- The reference configuration REF16 (`00_scope.md` R3); its `FTDEG_MAX` is 'n/a',
held as 0, and no rule reads it. -/
def Params.ref16 : Params :=
  { width := .w16, fieldMode := .runtime, logDegMax := 8, hasFt := false, ftDegMax := 0 }

/-- The four table arrays (`10_state.md` R18, R20). -/
inductive TableId where
  | indToPol | polToInd | mulTable | divTable
  deriving DecidableEq, Repr

/-- FREE VALUE: what an entry of a table array that holds no value would read as.
The spec calls its content 'any value' (`93_implementation_defined.md` U6, U7, U11).
No body: nothing can be proved about it. No state that satisfies the invariants of
`Safety.lean` reads it (notes/assumptions/5.md). -/
opaque Config.freeEntry : TableId → Nat → Word

/-- FREE VALUE: how many clock cycles lie between the acceptance of the `n`-th command and
its `rsp_valid`, 0 when the response is valid in the cycle right after the accepting one.
'Finite and otherwise unspecified' (`30_encoding.md` R51, `70_reset_and_hazards.md` R170).
No body: nothing can be proved about it (notes/assumptions/6.md). -/
opaque Config.latency : Nat → Nat

end Sys2Proof
end

