-- ==== Sys2Proof/Syntax.lean ====
section
/-! DEFINITION. Commands as the host presents them, and the 34 instructions they spell
(`30_encoding.md` R40, R43). -/

namespace Sys2Proof

/-- A command: 'a 32-bit command word and two 64-bit immediates, all three presented
together' (`30_encoding.md` R40). -/
structure Command where
  cw : BitVec 32
  imm0 : Word
  imm1 : Word
  deriving DecidableEq, Repr

/-- The instructions, one constructor per row of the opcode map (`30_encoding.md` R43),
with the fields the row uses. An immediate operand is the whole 64-bit immediate. -/
inductive Instr where
  /-- R67; `nr` is the flag `NR`, `modulus` is `IMM1` as presented -/
  | load (rd : Reg) (nr : Bool) (value modulus : Word)
  /-- R68 -/
  | setval (rd : Reg) (value : Word)
  /-- R69 -/
  | red (rd : Reg)
  /-- R70 -/
  | getval (ra : Reg)
  /-- R71 -/
  | getmod (ra : Reg)
  /-- R72 -/
  | getdeg (ra : Reg)
  /-- R73 -/
  | getord (ra : Reg)
  /-- R66; `startPos` is `imm8` -/
  | poldeg (ra : Reg) (startPos : BitVec 8)
  /-- R65 -/
  | mdeg (modulus : Word)
  /-- R135 -/
  | getstat
  /-- R136 -/
  | clrstat
  /-- R84 -/
  | add (rd ra rb : Reg)
  /-- R85 -/
  | mul (rd ra rb : Reg)
  /-- R86 -/
  | div (rd ra rb : Reg)
  /-- R87 -/
  | inv (rd ra : Reg)
  /-- R88; `n` is the exponent `IMM0` -/
  | pow (rd ra : Reg) (n : Word)
  /-- R89 -/
  | cmpeq (ra rb : Reg)
  /-- R90 -/
  | cmpne (ra rb : Reg)
  /-- R91 -/
  | cmplt (ra rb : Reg)
  /-- R92 -/
  | cmple (ra rb : Reg)
  /-- R93 -/
  | cmpgt (ra rb : Reg)
  /-- R94 -/
  | cmpge (ra rb : Reg)
  /-- R101 -/
  | ltbuild (modulus : Word)
  /-- R102 -/
  | ltinv
  /-- R104 -/
  | lmul (rd ra rb : Reg)
  /-- R105 -/
  | ldiv (rd ra rb : Reg)
  /-- R106; `n` is the exponent `IMM0` -/
  | lpow (rd ra : Reg) (n : Word)
  /-- R107 -/
  | ltrdi (index : Word)
  /-- R108 -/
  | ltrdp (v : Word)
  /-- R123 -/
  | ftbuildm (modulus : Word)
  /-- R124 -/
  | ftbuildd (modulus : Word)
  /-- R125 -/
  | ftinv
  /-- R126 -/
  | fmul (rd ra rb : Reg)
  /-- R127 -/
  | fdiv (rd ra rb : Reg)
  deriving DecidableEq, Repr

/-- The pseudo-instructions of the assembler (`30_encoding.md` R49). They are second
spellings of core instructions and have no opcode. -/
inductive Pseudo where
  | ladd (rd ra rb : Reg)
  | fadd (rd ra rb : Reg)
  | sqr (rd ra : Reg)
  deriving DecidableEq, Repr

end Sys2Proof
end

