-- ==== Sys2Proof/WellFormed.lean ====
section
/-! DEFINITION. Which instructions are legal on an instance: the part of
`30_encoding.md` R44 that depends on the operands' values and on the build-time
parameters (R44 (b), (e), and in (d) the width of a `W`-bit quantity and the unused
`IMM1` of `FIXED(M)` mode). The parts that depend on the bits of the command alone
are the decoder's (`Decode.lean`). -/

namespace Sys2Proof

/-- Why an instruction is illegal on an instance, by name. -/
inductive IllFormed where
  /-- a raw value has a nonzero bit at position `W` or above (R42, R44 (d)) -/
  | valueTooWide
  /-- a modulus has a nonzero bit at position `W` or above (R42, R44 (d)) -/
  | modulusTooWide
  /-- `IMM1` is not zero although `FIXED(M)` mode does not use it (R15, R42, R44 (d)) -/
  | modulusUnused
  /-- `POLDEG` with `startPos` 0 (R44 (e)) -/
  | startPosZero
  /-- an option-`FT` opcode while `HAS_FT = 0` (R44 (b)) -/
  | noFullTable
  deriving DecidableEq, Repr

/-- A modulus operand in `IMM1`: a `W`-bit quantity in `RUNTIME` mode, an unused
immediate that must be zero in `FIXED(M)` mode (`10_state.md` R15, `30_encoding.md` R42). -/
def Params.checkModulus (p : Params) (m : Word) : Option IllFormed :=
  match p.fieldMode with
  | .runtime => if p.fits m then none else some .modulusTooWide
  | .fixed _ => if m = 0 then none else some .modulusUnused

/-- The option `FT` must be present (`30_encoding.md` R44 (b), `43_full_table.md` R120). -/
def Params.checkFt (p : Params) : Option IllFormed :=
  if p.hasFt then none else some .noFullTable

/-- The first check the instruction fails, if any. -/
def Instr.illFormed (p : Params) : Instr → Option IllFormed
  | .load _ _ v m => if p.fits v then p.checkModulus m else some .valueTooWide
  | .setval _ v => if p.fits v then none else some .valueTooWide
  | .red _ => none
  | .getval _ => none
  | .getmod _ => none
  | .getdeg _ => none
  | .getord _ => none
  | .poldeg _ startPos => if startPos = 0 then some .startPosZero else none
  | .mdeg m => if p.fits m then none else some .modulusTooWide
  | .getstat => none
  | .clrstat => none
  | .add _ _ _ => none
  | .mul _ _ _ => none
  | .div _ _ _ => none
  | .inv _ _ => none
  | .pow _ _ _ => none
  | .cmpeq _ _ => none
  | .cmpne _ _ => none
  | .cmplt _ _ => none
  | .cmple _ _ => none
  | .cmpgt _ _ => none
  | .cmpge _ _ => none
  | .ltbuild m => p.checkModulus m
  | .ltinv => none
  | .lmul _ _ _ => none
  | .ldiv _ _ _ => none
  | .lpow _ _ _ => none
  | .ltrdi _ => none
  | .ltrdp _ => none
  | .ftbuildm m => p.checkFt <|> p.checkModulus m
  | .ftbuildd m => p.checkFt <|> p.checkModulus m
  | .ftinv => p.checkFt
  | .fmul _ _ _ => p.checkFt
  | .fdiv _ _ _ => p.checkFt

/-- The instruction is legal on an instance with parameters `p`. -/
def Instr.wellFormed (p : Params) (i : Instr) : Bool := (i.illFormed p).isNone

end Sys2Proof
end

