-- ==== Sys2Proof/Decode.lean ====
section
/-! DEFINITION. The decoder and the encoder (`30_encoding.md` R41 to R47).

`decode` reads the bits of a command and does not depend on the parameters of the
instance ('no mode bit changes decoding', R40). It refuses, by name, what R44 (a),
(c) and the unused immediates of (d) call illegal; what R44 makes depend on the
parameters or on an operand's value is `Instr.wellFormed`, which the execution of
the decoded instruction checks as its first step (R50 step 1). -/

namespace Sys2Proof

/-! ## Fields of the command word (R41) -/

/-- `CW[31:24]`. -/
def Command.opcode (c : Command) : BitVec 8 := c.cw.extractLsb' 24 8
/-- `CW[23:20]`. -/
def Command.rd (c : Command) : Reg := c.cw.extractLsb' 20 4
/-- `CW[19:16]`. -/
def Command.ra (c : Command) : Reg := c.cw.extractLsb' 16 4
/-- `CW[15:12]`. -/
def Command.rb (c : Command) : Reg := c.cw.extractLsb' 12 4
/-- `CW[8]`. -/
def Command.nr (c : Command) : Bool := c.cw.getLsbD 8
/-- `CW[7:0]`. -/
def Command.imm8 (c : Command) : BitVec 8 := c.cw.extractLsb' 0 8

/-! ## The opcode map (R43) -/

/-- A row of the opcode map: its match and mask over `CW`, whether the command uses
`IMM0` and `IMM1` (R42), and the instruction its fields spell. -/
structure Row where
  pattern : BitVec 32
  mask : BitVec 32
  usesImm0 : Bool := false
  usesImm1 : Bool := false
  build : Command → Instr

/-- The opcode of a row: bits 31:24 of its match. -/
def Row.opcode (r : Row) : BitVec 8 := r.pattern.extractLsb' 24 8

/-- Rows 0x01 to 0x09: construction, queries, utilities. -/
def utilityRows : List Row :=
  [ { pattern := 0x01000000#32, mask := 0xFF0FFEFF#32, usesImm0 := true, usesImm1 := true,
      build := fun c => .load c.rd c.nr c.imm0 c.imm1 },
    { pattern := 0x02000000#32, mask := 0xFF0FFFFF#32, usesImm0 := true,
      build := fun c => .setval c.rd c.imm0 },
    { pattern := 0x03000000#32, mask := 0xFF0FFFFF#32, build := fun c => .red c.rd },
    { pattern := 0x04000000#32, mask := 0xFFF0FFFF#32, build := fun c => .getval c.ra },
    { pattern := 0x05000000#32, mask := 0xFFF0FFFF#32, build := fun c => .getmod c.ra },
    { pattern := 0x06000000#32, mask := 0xFFF0FFFF#32, build := fun c => .getdeg c.ra },
    { pattern := 0x07000000#32, mask := 0xFFF0FFFF#32, build := fun c => .getord c.ra },
    { pattern := 0x08000000#32, mask := 0xFFF0FF00#32, build := fun c => .poldeg c.ra c.imm8 },
    { pattern := 0x09000000#32, mask := 0xFFFFFFFF#32, usesImm1 := true,
      build := fun c => .mdeg c.imm1 } ]

/-- Rows 0x0E and 0x0F: system. -/
def systemRows : List Row :=
  [ { pattern := 0x0E000000#32, mask := 0xFFFFFFFF#32, build := fun _ => .getstat },
    { pattern := 0x0F000000#32, mask := 0xFFFFFFFF#32, build := fun _ => .clrstat } ]

/-- Rows 0x10 to 0x14: direct arithmetic. -/
def directRows : List Row :=
  [ { pattern := 0x10000000#32, mask := 0xFF000FFF#32, build := fun c => .add c.rd c.ra c.rb },
    { pattern := 0x11000000#32, mask := 0xFF000FFF#32, build := fun c => .mul c.rd c.ra c.rb },
    { pattern := 0x12000000#32, mask := 0xFF000FFF#32, build := fun c => .div c.rd c.ra c.rb },
    { pattern := 0x13000000#32, mask := 0xFF00FFFF#32, build := fun c => .inv c.rd c.ra },
    { pattern := 0x14000000#32, mask := 0xFF00FFFF#32, usesImm0 := true,
      build := fun c => .pow c.rd c.ra c.imm0 } ]

/-- Rows 0x20 to 0x25: comparisons. -/
def compareRows : List Row :=
  [ { pattern := 0x20000000#32, mask := 0xFFF00FFF#32, build := fun c => .cmpeq c.ra c.rb },
    { pattern := 0x21000000#32, mask := 0xFFF00FFF#32, build := fun c => .cmpne c.ra c.rb },
    { pattern := 0x22000000#32, mask := 0xFFF00FFF#32, build := fun c => .cmplt c.ra c.rb },
    { pattern := 0x23000000#32, mask := 0xFFF00FFF#32, build := fun c => .cmple c.ra c.rb },
    { pattern := 0x24000000#32, mask := 0xFFF00FFF#32, build := fun c => .cmpgt c.ra c.rb },
    { pattern := 0x25000000#32, mask := 0xFFF00FFF#32, build := fun c => .cmpge c.ra c.rb } ]

/-- Rows 0x30 to 0x36: log table. -/
def logTableRows : List Row :=
  [ { pattern := 0x30000000#32, mask := 0xFFFFFFFF#32, usesImm1 := true,
      build := fun c => .ltbuild c.imm1 },
    { pattern := 0x31000000#32, mask := 0xFFFFFFFF#32, build := fun _ => .ltinv },
    { pattern := 0x32000000#32, mask := 0xFF000FFF#32, build := fun c => .lmul c.rd c.ra c.rb },
    { pattern := 0x33000000#32, mask := 0xFF000FFF#32, build := fun c => .ldiv c.rd c.ra c.rb },
    { pattern := 0x34000000#32, mask := 0xFF00FFFF#32, usesImm0 := true,
      build := fun c => .lpow c.rd c.ra c.imm0 },
    { pattern := 0x35000000#32, mask := 0xFFFFFFFF#32, usesImm0 := true,
      build := fun c => .ltrdi c.imm0 },
    { pattern := 0x36000000#32, mask := 0xFFFFFFFF#32, usesImm0 := true,
      build := fun c => .ltrdp c.imm0 } ]

/-- Rows 0x40 to 0x44: option `FT`. -/
def fullTableRows : List Row :=
  [ { pattern := 0x40000000#32, mask := 0xFFFFFFFF#32, usesImm1 := true,
      build := fun c => .ftbuildm c.imm1 },
    { pattern := 0x41000000#32, mask := 0xFFFFFFFF#32, usesImm1 := true,
      build := fun c => .ftbuildd c.imm1 },
    { pattern := 0x42000000#32, mask := 0xFFFFFFFF#32, build := fun _ => .ftinv },
    { pattern := 0x43000000#32, mask := 0xFF000FFF#32, build := fun c => .fmul c.rd c.ra c.rb },
    { pattern := 0x44000000#32, mask := 0xFF000FFF#32, build := fun c => .fdiv c.rd c.ra c.rb } ]

/-- The 34 rows of R43. -/
def opcodeRows : List Row :=
  utilityRows ++ systemRows ++ directRows ++ compareRows ++ logTableRows ++ fullTableRows

/-! ## The decoder -/

/-- Why a command does not decode, by name. -/
inductive DecodeError where
  /-- R44 (a): the opcode is not in the opcode map -/
  | reservedOpcode
  /-- R44 (c): a must-be-zero field of `CW` is not zero -/
  | nonzeroField
  /-- R44 (d): `IMM0` is unused and not zero -/
  | nonzeroImm0
  /-- R44 (d): `IMM1` is unused and not zero -/
  | nonzeroImm1
  /-- a byte image that is not 20 bytes long (R47) -/
  | imageLength
  deriving DecidableEq, Repr

/-- The instruction a command spells (R43), or why it spells none (R44). -/
def decode (c : Command) : Except DecodeError Instr :=
  match opcodeRows.find? (fun r => r.opcode == c.opcode) with
  | none => .error .reservedOpcode
  | some r =>
    if c.cw &&& r.mask ≠ r.pattern then .error .nonzeroField
    else if r.usesImm0 = false ∧ c.imm0 ≠ 0 then .error .nonzeroImm0
    else if r.usesImm1 = false ∧ c.imm1 ≠ 0 then .error .nonzeroImm1
    else .ok (r.build c)

/-! ## Canonical byte images (R47) -/

/-- The `n` low bytes of `w`, least significant first. -/
def leBytes (n w : Nat) : List Byte :=
  (List.range n).map fun i => BitVec.ofNat 8 (w >>> (8 * i))

/-- The number that bytes spell, least significant first. -/
def leNat : List Byte → Nat
  | [] => 0
  | b :: bs => b.toNat + 256 * leNat bs

/-- The 20-byte image of a command. -/
def Command.image (c : Command) : List Byte :=
  leBytes 4 c.cw.toNat ++ leBytes 8 c.imm0.toNat ++ leBytes 8 c.imm1.toNat

/-- The command of a 20-byte image. -/
def Command.ofImage (bs : List Byte) : Except DecodeError Command :=
  if bs.length = 20 then
    .ok { cw := BitVec.ofNat 32 (leNat (bs.take 4)),
          imm0 := BitVec.ofNat 64 (leNat ((bs.drop 4).take 8)),
          imm1 := BitVec.ofNat 64 (leNat (bs.drop 12)) }
  else .error .imageLength

/-- The decoder on any bytes. -/
def decodeImage (bs : List Byte) : Except DecodeError Instr :=
  match Command.ofImage bs with
  | .error e => .error e
  | .ok c => decode c

/-- The image of the instruction whose first `nbits` bits are those of `w`, bit 0 the
least significant bit of `CW`, and whose further bits are zero. -/
def tableWordImage (nbits w : Nat) : List Byte := leBytes 20 (w % 2 ^ nbits)

/-- The command of `tableWordImage`. -/
def Command.ofTableWord (nbits w : Nat) : Command :=
  match Command.ofImage (tableWordImage nbits w) with
  | .ok c => c
  | .error _ => { cw := 0, imm0 := 0, imm1 := 0 }

/-- What the decoder reads from an instruction given as the opcode table numbers its bits. -/
def decodeTableWord (nbits w : Nat) : Option Instr :=
  match decodeImage (tableWordImage nbits w) with
  | .ok i => some i
  | .error _ => none

/-! ## The encoder, from each instruction rule's own 'Encoding' line -/

/-- `opcode << 24 | rd << 20 | ra << 16 | rb << 12 | NR << 8 | imm8`. -/
def commandWord (opcode : BitVec 8) (rd ra rb : Reg) (nr : Bool) (imm8 : BitVec 8) : BitVec 32 :=
  (opcode.setWidth 32 <<< 24) ||| (rd.setWidth 32 <<< 20) ||| (ra.setWidth 32 <<< 16) |||
    (rb.setWidth 32 <<< 12) ||| ((BitVec.ofBool nr).setWidth 32 <<< 8) ||| imm8.setWidth 32

/-- The command that spells an instruction. -/
def encode : Instr → Command
  | .load rd nr v m => ⟨commandWord 0x01 rd 0 0 nr 0, v, m⟩
  | .setval rd v => ⟨commandWord 0x02 rd 0 0 false 0, v, 0⟩
  | .red rd => ⟨commandWord 0x03 rd 0 0 false 0, 0, 0⟩
  | .getval ra => ⟨commandWord 0x04 0 ra 0 false 0, 0, 0⟩
  | .getmod ra => ⟨commandWord 0x05 0 ra 0 false 0, 0, 0⟩
  | .getdeg ra => ⟨commandWord 0x06 0 ra 0 false 0, 0, 0⟩
  | .getord ra => ⟨commandWord 0x07 0 ra 0 false 0, 0, 0⟩
  | .poldeg ra startPos => ⟨commandWord 0x08 0 ra 0 false startPos, 0, 0⟩
  | .mdeg m => ⟨commandWord 0x09 0 0 0 false 0, 0, m⟩
  | .getstat => ⟨commandWord 0x0E 0 0 0 false 0, 0, 0⟩
  | .clrstat => ⟨commandWord 0x0F 0 0 0 false 0, 0, 0⟩
  | .add rd ra rb => ⟨commandWord 0x10 rd ra rb false 0, 0, 0⟩
  | .mul rd ra rb => ⟨commandWord 0x11 rd ra rb false 0, 0, 0⟩
  | .div rd ra rb => ⟨commandWord 0x12 rd ra rb false 0, 0, 0⟩
  | .inv rd ra => ⟨commandWord 0x13 rd ra 0 false 0, 0, 0⟩
  | .pow rd ra n => ⟨commandWord 0x14 rd ra 0 false 0, n, 0⟩
  | .cmpeq ra rb => ⟨commandWord 0x20 0 ra rb false 0, 0, 0⟩
  | .cmpne ra rb => ⟨commandWord 0x21 0 ra rb false 0, 0, 0⟩
  | .cmplt ra rb => ⟨commandWord 0x22 0 ra rb false 0, 0, 0⟩
  | .cmple ra rb => ⟨commandWord 0x23 0 ra rb false 0, 0, 0⟩
  | .cmpgt ra rb => ⟨commandWord 0x24 0 ra rb false 0, 0, 0⟩
  | .cmpge ra rb => ⟨commandWord 0x25 0 ra rb false 0, 0, 0⟩
  | .ltbuild m => ⟨commandWord 0x30 0 0 0 false 0, 0, m⟩
  | .ltinv => ⟨commandWord 0x31 0 0 0 false 0, 0, 0⟩
  | .lmul rd ra rb => ⟨commandWord 0x32 rd ra rb false 0, 0, 0⟩
  | .ldiv rd ra rb => ⟨commandWord 0x33 rd ra rb false 0, 0, 0⟩
  | .lpow rd ra n => ⟨commandWord 0x34 rd ra 0 false 0, n, 0⟩
  | .ltrdi i => ⟨commandWord 0x35 0 0 0 false 0, i, 0⟩
  | .ltrdp v => ⟨commandWord 0x36 0 0 0 false 0, v, 0⟩
  | .ftbuildm m => ⟨commandWord 0x40 0 0 0 false 0, 0, m⟩
  | .ftbuildd m => ⟨commandWord 0x41 0 0 0 false 0, 0, m⟩
  | .ftinv => ⟨commandWord 0x42 0 0 0 false 0, 0, 0⟩
  | .fmul rd ra rb => ⟨commandWord 0x43 rd ra rb false 0, 0, 0⟩
  | .fdiv rd ra rb => ⟨commandWord 0x44 rd ra rb false 0, 0, 0⟩

end Sys2Proof
end

