-- ==== Sys2Proof/Machine/State.lean ====
section
/-! DEFINITION. The state of gf2n_core (`10_state.md`) and its reset (`10_state.md` R24). -/

namespace Sys2Proof.Machine

/-- The five fields of an element register that holds an element (`10_state.md` R11). -/
structure Elem where
  /-- the element's value, a `W`-bit quantity -/
  val : Word
  /-- the modulus polynomial of the element's field, a `W`-bit quantity -/
  mod : Word
  /-- the field's degree -/
  deg : BitVec 6
  /-- the field's order -/
  ord : Word
  deriving DecidableEq, Repr

/-- A table array, indexed from 0. An entry that 'holds no value' (`10_state.md` R18,
R20) is `none`. -/
abbrev Table := List (Option Word)

/-- What the log-table bank holds while `LT.valid = 1` (`10_state.md` R18). -/
structure LogBank where
  /-- `LT.mod`, the field tag -/
  mod : Word
  /-- `LT.indToPol` -/
  indToPol : Table
  /-- `LT.polToInd` -/
  polToInd : Table
  deriving DecidableEq, Repr

/-- What the full-table bank holds while `FT.mvalid = 1` (`10_state.md` R20). -/
structure FullBank where
  /-- `FT.mod`, the field tag -/
  mod : Word
  /-- `FT.mulTable` -/
  mulTable : Table
  /-- `FT.divTable` while `FT.dvalid = 1`; `none` is `FT.dvalid = 0` -/
  divTable : Option Table
  deriving DecidableEq, Repr

/-- The ways a command fails (`60_exceptions.md` R140). A failing command ends in a
NEXT state (R150), so these are responses of the block, not faults of the model. -/
inductive Failure where
  | crossFieldMismatch | divisionByZero | malformedModulus | tableMismatch | tableBuildFail
  | illegalCommand | emptyRegister | unreducedOperand | badIndex
  deriving DecidableEq, Repr

/-- A response (`30_encoding.md` R46). -/
structure Response where
  /-- `ERR` -/
  err : BitVec 4
  /-- `RES` -/
  res : Word
  deriving DecidableEq, Repr

/-- What the host can do to the block (`10_state.md` R10, `70_reset_and_hazards.md` R173). -/
inductive HostInput where
  /-- present a command and take its response -/
  | command (c : Command)
  /-- assert `rst`; the command in progress at that moment, if any, is abandoned
  (`70_reset_and_hazards.md` R165) -/
  | reset (abandoned : Option Command)
  deriving DecidableEq, Repr

/-- The state: the block's own, and the host's side of the run. -/
structure State where
  /-- the build-time parameters of the instance (`00_scope.md` R3); no step changes them
  (notes/assumptions/1.md) -/
  params : Params
  /-- the element registers; `none` is `vld = 0` (`10_state.md` R11; notes/assumptions/3.md) -/
  regs : Vector (Option Elem) 16
  /-- `STATUS` (`10_state.md` R17) -/
  status : BitVec 16
  /-- the bank `LT`; `none` is `LT.valid = 0` (`10_state.md` R18) -/
  lt : Option LogBank
  /-- the bank `FT`; `none` is `FT.mvalid = 0` (`10_state.md` R20) -/
  ft : Option FullBank
  /-- what the host presents, in order (`10_state.md` R16; notes/assumptions/2.md) -/
  inputs : List HostInput
  /-- the position in `inputs` (`10_state.md` R16) -/
  pos : Nat
  /-- the responses so far, oldest first (`70_reset_and_hazards.md` R172) -/
  responses : List Response
  deriving DecidableEq, Repr

/-- Model faults. There is none: every failure of a command is a response of the block
(`60_exceptions.md` R150) and 'the block cannot hang: after any accepted command a
response follows in finite time, whatever the command' (`70_reset_and_hazards.md` R171). -/
inductive Fault where
  deriving DecidableEq, Repr

/-- Model refusals. -/
inductive Refusal where
  /-- raised by an arm of `exec` whose instruction has no meaning yet, and by nothing
  else; safe (the model stops where the block goes on). No arm raises it now. -/
  | notModelled (mnemonic : String)
  deriving DecidableEq, Repr

/-- The state of an instance with parameters `p` right after reset (`10_state.md` R24):
every `vld`, `LT.valid`, `FT.mvalid` and `FT.dvalid` 0, `STATUS` 0, no command in
progress. In `FIXED(M)` mode the constant `mod`, `deg`, `ord` are supplied by the
register read (`Machine/Ops.lean`). The host has presented nothing. -/
def State.resetOf (p : Params) : State :=
  { params := p
    regs := Vector.replicate 16 none
    status := 0
    lt := none
    ft := none
    inputs := []
    pos := 0
    responses := [] }

/-- The state right after reset of the reference configuration REF8 (DESIGN CHOICE:
the parameters are open, notes/assumptions/1.md). -/
def State.reset : State := State.resetOf Params.ref8

end Sys2Proof.Machine
end

