-- ==== Sys2Proof/Machine/Flags.lean ====
section
/-! DEFINITION. The response codes and the sticky flags of `STATUS`
(`10_state.md` R17, `60_exceptions.md` R140). The block has no other flag. -/

namespace Sys2Proof.Machine

/-- The response code of a failure (R140). -/
def Failure.code : Failure → Nat
  | .crossFieldMismatch => 1
  | .divisionByZero => 2
  | .malformedModulus => 3
  | .tableMismatch => 4
  | .tableBuildFail => 5
  | .illegalCommand => 6
  | .emptyRegister => 7
  | .unreducedOperand => 8
  | .badIndex => 9

/-- `ERR` of a failure: its code in 4 bits (R46, R140). -/
def Failure.err (k : Failure) : BitVec 4 := BitVec.ofNat 4 k.code

/-- `STATUS[code(k)] <- 1` (R17, R150). -/
def setFlag (status : BitVec 16) (k : Failure) : BitVec 16 := status ||| (1#16 <<< k.code)

/-- `zext_64(STATUS)`, the result of `GETSTAT` (`44_system.md` R135). -/
def statusResult (status : BitVec 16) : Word := status.setWidth 64

end Sys2Proof.Machine
end

