-- ==== Sys2Proof/Machine/Poly.lean ====
section
/-! DEFINITION. The pure functions of the block: bit scans and reduction
(`40_utilities_reduction.md` R60 to R63), multiplication, power, inverse and division
(`41_direct_polynomial.md` R80 to R83). Each is the rule's pseudocode, its loop a
structural recursion on the number of passes left. `w` is `W`. -/

namespace Sys2Proof.Machine

/-! ## Bit scans (R60, R61, R62) -/

/-- `for p = n-1 downto 0: if m[p] = 1 then return p; return 0`. -/
def scanDown (m : Word) : Nat → Nat
  | 0 => 0
  | p + 1 => if m.getLsbD p then p else scanDown m p

/-- R60. -/
def modulusDegree (w : Nat) (m : Word) : Nat := scanDown m w

/-- The `n` passes of R61's loop from `i` on: test bit `width - i` of `v`. -/
def leadingScan (v : Word) (width : Nat) : Nat → Nat → Nat
  | 0, _ => 0
  | n + 1, i => if v.getLsbD (width - i) then width - i else leadingScan v width n (i + 1)

/-- R61. -/
def leadingBitPosition (v : Word) (startPos width : Nat) : Nat :=
  leadingScan v width (width + 1 - startPos) startPos

/-- R62. -/
def fieldOrder (d : Nat) : Nat := 2 ^ d

/-- The order of the field of a modulus: `2^modulusDegree(m)`. -/
def modulusOrder (w : Nat) (m : Word) : Nat := fieldOrder (modulusDegree w m)

/-! ## Reduction (R63) -/

/-- `for k = n-1 downto d: if v[k] = 1 then v <- v ^ (m << (k - d))`. -/
def reduceFrom (m : Word) (d : Nat) : Nat → Word → Word
  | 0, v => v
  | k + 1, v =>
    if k < d then v
    else reduceFrom m d k (if v.getLsbD k then v ^^^ (m <<< (k - d)) else v)

/-- R63. -/
def reduce (w : Nat) (v m : Word) : Word := reduceFrom m (modulusDegree w m) w v

/-! ## Multiplication with interleaved reduction (R80) -/

/-- `av << 1`, folded by the modulus when bit `d` is set: multiplication by `x`. -/
def mulX (m : Word) (d : Nat) (av : Word) : Word :=
  if (av <<< 1).getLsbD d then (av <<< 1) ^^^ m else av <<< 1

/-- R80's loop `while bv > 0`, at most `n` passes. -/
def mulLoop (m : Word) (d : Nat) : Nat → Word → Word → Word → Word
  | 0, _, _, res => res
  | n + 1, av, bv, res =>
    if bv = 0 then res
    else mulLoop m d n (mulX m d av) (bv >>> 1) (if bv.getLsbD 0 then res ^^^ av else res)

/-- R80. The loop shifts a 64-bit `bv` to zero in at most 64 passes. -/
def mulReduce (w : Nat) (a b m : Word) : Word := mulLoop m (modulusDegree w m) 64 a b 0

/-! ## Power, inverse, division (R81, R82, R83) -/

/-- R81's loop `while e > 0`, at most `n` passes. -/
def powLoop (w : Nat) (m : Word) : Nat → Word → Word → Nat → Word
  | 0, res, _, _ => res
  | n + 1, res, base, e =>
    if e = 0 then res
    else powLoop w m n (if e.testBit 0 then mulReduce w res base m else res)
      (mulReduce w base base m) (e >>> 1)

/-- R81. The exponent is a natural number of `log2 n + 1` bits. -/
def pow (w : Nat) (a : Word) (n : Nat) (m : Word) : Word := powLoop w m (n.log2 + 1) 1 a n

/-- R82: `a^(2^d - 2)`. -/
def inverse (w : Nat) (a m : Word) : Word := pow w a (modulusOrder w m - 2) m

/-- R83. -/
def divide (w : Nat) (a b m : Word) : Word := mulReduce w a (inverse w b m) m

end Sys2Proof.Machine
end

