-- ==== Sys2Proof/Machine/Ops.lean ====
section
/-! DEFINITION. The shared operations: register access, table access, answering a
command with success or failure, accepting the host's input. -/

namespace Sys2Proof.Machine

/-! ## Element registers (`10_state.md` R11, R12, R15) -/

/-- The element with value `v` in the field of modulus `m`: 'sets `vld = 1`, `val`,
`mod`, `deg = modulusDegree(mod)`, `ord = 2^deg` together' (`00_scope.md` R6). -/
def mkElem (p : Params) (v m : Word) : Elem :=
  { val := v
    mod := m
    deg := BitVec.ofNat 6 (modulusDegree p.bits m)
    ord := BitVec.ofNat 64 (modulusOrder p.bits m) }

/-- What reading `E[r]` gives; `none` while `vld = 0`. In `FIXED(M)` mode `mod`, `deg`
and `ord` are the constants of `M`, and only `vld` and `val` are storage (R15). -/
def State.elem (s : State) (r : Reg) : Option Elem :=
  match s.params.fieldMode with
  | .runtime => s.regs[r.toNat]'r.isLt
  | .fixed m => (s.regs[r.toNat]'r.isLt).map fun e => mkElem s.params e.val m

/-- Write register `r` whole. -/
def setReg (s : State) (r : Reg) (e : Option Elem) : State :=
  { s with regs := s.regs.set r.toNat e r.isLt }

/-- `E[r] <- (v, m)` (`00_scope.md` R6). -/
def writeElem (s : State) (r : Reg) (v m : Word) : State := setReg s r (some (mkElem s.params v m))

/-- `E[r].val <- v`: `mod`, `deg`, `ord` unchanged (`40_utilities_reduction.md` R68, R69). -/
def writeVal (s : State) (r : Reg) (v : Word) : State :=
  setReg s r ((s.elem r).map fun e => { e with val := v })

/-! ## Table banks (`10_state.md` R18, R20) -/

/-- Entry `k` of a table array. An entry that holds no value reads as the free value. -/
def readEntry (which : TableId) (t : Table) (k : Nat) : Word :=
  match t[k]? with
  | some (some v) => v
  | _ => Config.freeEntry which k

/-- Replace the bank `LT`; `none` is `LT.valid <- 0`. -/
def setLt (s : State) (b : Option LogBank) : State := { s with lt := b }

/-- Replace the bank `FT`; `none` is `FT.mvalid <- 0; FT.dvalid <- 0`. -/
def setFt (s : State) (b : Option FullBank) : State := { s with ft := b }

/-! ## Responses and failures (`00_scope.md` R6, `30_encoding.md` R46, `60_exceptions.md` R150) -/

/-- Give the command's one response. -/
def respond (s : State) (err : BitVec 4) (res : Word) : State :=
  { s with responses := s.responses ++ [{ err := err, res := res }] }

/-- The 9-byte image of a response (`30_encoding.md` R47): byte 0 is `ERR` in its low four
bits, bytes 1 to 8 are `RES`, least significant first. -/
def responseImage (r : Response) : List Byte := leBytes 1 r.err.toNat ++ leBytes 8 r.res.toNat

/-- `Done(v)`: the response is `(ERR = 0, RES = v)`. -/
def done (s : State) (v : Word) : State := respond s 0 v

/-- Replace `STATUS`. -/
def setStatus (s : State) (v : BitVec 16) : State := { s with status := v }

/-- `raise K`, the block's only exception (R150): `STATUS[code(K)] <- 1`, the response
is `(ERR = code(K), RES = 0)`, nothing else is written. No state is saved and control is
transferred nowhere (R153), so there is no return beside it (R154). -/
def raise (s : State) (k : Failure) : State := respond (setStatus s (setFlag s.status k)) k.err 0

/-- End a command: with its failure, which discards what it would have written, or with
its new state and result. -/
def finish (s : State) (r : Except Failure (State × Word)) : State :=
  match r with
  | .error k => raise s k
  | .ok (t, v) => done t v

/-- The legality check of the execution template (`30_encoding.md` R50 step 1): the part
of R44 that depends on the parameters and on the operands' values. -/
def legal (p : Params) (i : Instr) : Bool := i.wellFormed p

/-- Execute a decoded command: step 1 of the template (R50), then the rest. -/
def command (i : Instr) (s : State) (rest : State) : Host.Outcome State Fault Refusal :=
  .next (if legal s.params i then rest else raise s .illegalCommand)

/-! ## The host's side (`10_state.md` R10, R16; `70_reset_and_hazards.md` R165, R173) -/

/-- What the host presents next; `none` when its list is exhausted. -/
def nextInput (s : State) : Option HostInput := s.inputs[s.pos]?

/-- The position advances by exactly 1 (R16). -/
def advance (s : State) : State := { s with pos := s.pos + 1 }

/-- The block takes the reset state (R165); the run's bookkeeping is the host's and
stays. An abandoned command produces no response. -/
def takeReset (s : State) : State :=
  { State.resetOf s.params with inputs := s.inputs, pos := s.pos, responses := s.responses }

/-- A command that does not decode: `raise IllegalCommand` (R44, R146). -/
def execIllegal (s : State) : Host.Outcome State Fault Refusal := .next (raise s .illegalCommand)

/-- Give the host's list a single command, to be presented next. -/
def presentOnly (s : State) (c : Command) : State := { s with inputs := [.command c], pos := 0 }

end Sys2Proof.Machine
end

