-- ==== Sys2Proof/Machine/Operands.lean ====
section
/-! DEFINITION. The operand forms and the checks of the execution template, in its
order (`00_scope.md` R7, `30_encoding.md` R50 steps 2 to 7). -/

namespace Sys2Proof.Machine

/-! ## The helper checks (R7) -/

/-- `NeedReg(r)`. -/
def needReg (s : State) (r : Reg) : Except Failure Elem :=
  match s.elem r with
  | some e => .ok e
  | none => .error .emptyRegister

/-- `NeedSame(ra, rb)`: the field states are equal exactly when the moduli are
(`10_state.md` R14). -/
def needSame (a b : Elem) : Except Failure Unit :=
  if a.mod = b.mod then .ok () else .error .crossFieldMismatch

/-- Whether a value is reduced: `val < ord` (`10_state.md` R13). -/
def Elem.reduced (e : Elem) : Bool := decide (e.val.toNat < e.ord.toNat)

/-- `NeedRed(r)`. -/
def needRed (e : Elem) : Except Failure Unit :=
  if e.reduced then .ok () else .error .unreducedOperand

/-- `NeedLT(r)`: the bank must hold a valid table tagged with the operand's modulus. -/
def needLt (s : State) (e : Elem) : Except Failure LogBank :=
  match s.lt with
  | some b => if b.mod = e.mod then .ok b else .error .tableMismatch
  | none => .error .tableMismatch

/-- `LT.valid` must be 1 (R50 step 6, `LTRDI` and `LTRDP`). -/
def needLtValid (s : State) : Except Failure LogBank :=
  match s.lt with
  | some b => .ok b
  | none => .error .tableMismatch

/-- The multiplication table must be valid for the modulus `m` (`NeedFTM`, and R50
step 6 for `FTBUILDD`). -/
def needFtm (s : State) (m : Word) : Except Failure FullBank :=
  match s.ft with
  | some b => if b.mod = m then .ok b else .error .tableMismatch
  | none => .error .tableMismatch

/-- `NeedFTD(r)`: the division table must be valid for the operand's modulus. -/
def needFtd (s : State) (m : Word) : Except Failure Table :=
  match s.ft with
  | some b =>
    if b.mod = m then
      match b.divTable with
      | some t => .ok t
      | none => .error .tableMismatch
    else .error .tableMismatch
  | none => .error .tableMismatch

/-- The divisor must not be zero (R50 step 7). -/
def needNonzero (e : Elem) : Except Failure Unit :=
  if e.val = 0 then .error .divisionByZero else .ok ()

/-! ## Operand forms -/

/-- The modulus a command takes: `IMM1`, or `M` in `FIXED(M)` mode (`10_state.md` R15). -/
def modulusOperand (p : Params) (imm1 : Word) : Word :=
  match p.fieldMode with
  | .runtime => imm1
  | .fixed m => m

/-- The modulus operand, valid: `if m < 2 then raise MalformedModulus` (R50 step 5). -/
def needModulus (p : Params) (imm1 : Word) : Except Failure Word :=
  if (modulusOperand p imm1).toNat < 2 then .error .malformedModulus
  else .ok (modulusOperand p imm1)

/-- The single source of an arithmetic command (R50 steps 2, 4). -/
def oneSource (s : State) (ra : Reg) : Except Failure Elem := do
  let a ← needReg s ra
  needRed a
  pure a

/-- The two sources of an arithmetic, comparison or table command (R50 steps 2, 3, 4). -/
def twoSources (s : State) (ra rb : Reg) : Except Failure (Elem × Elem) := do
  let a ← needReg s ra
  let b ← needReg s rb
  needSame a b
  needRed a
  needRed b
  pure (a, b)

/-- Write `r` to the destination, in the field of modulus `m`, and return it. -/
def toDest (s : State) (rd : Reg) (r m : Word) : State × Word := (writeElem s rd r m, r)

end Sys2Proof.Machine
end

