-- ==== Sys2Proof/Machine/Compare.lean ====
section
/-! DEFINITION. The six comparisons (`41_direct_polynomial.md` R89 to R94): unsigned, the
verdict in `RES`, no state written. -/

namespace Sys2Proof.Machine

/-- The verdict as a result: 1 true, 0 false. -/
def verdict (b : Bool) : Word := if b then 1 else 0

/-- `Compare(rel)`, the common part of the six rules. -/
def compareWith (s : State) (ra rb : Reg) (rel : Nat → Nat → Bool) : State :=
  finish s do
    let (a, b) ← twoSources s ra rb
    pure (s, verdict (rel a.val.toNat b.val.toNat))

/-- `CMPEQ` (R89). -/
def execCmpeq (ra rb : Reg) (s : State) : Host.Outcome State Fault Refusal :=
  command (.cmpeq ra rb) s <| compareWith s ra rb fun a b => decide (a = b)

/-- `CMPNE` (R90). -/
def execCmpne (ra rb : Reg) (s : State) : Host.Outcome State Fault Refusal :=
  command (.cmpne ra rb) s <| compareWith s ra rb fun a b => decide (a ≠ b)

/-- `CMPLT` (R91). -/
def execCmplt (ra rb : Reg) (s : State) : Host.Outcome State Fault Refusal :=
  command (.cmplt ra rb) s <| compareWith s ra rb fun a b => decide (a < b)

/-- `CMPLE` (R92). -/
def execCmple (ra rb : Reg) (s : State) : Host.Outcome State Fault Refusal :=
  command (.cmple ra rb) s <| compareWith s ra rb fun a b => decide (a ≤ b)

/-- `CMPGT` (R93). -/
def execCmpgt (ra rb : Reg) (s : State) : Host.Outcome State Fault Refusal :=
  command (.cmpgt ra rb) s <| compareWith s ra rb fun a b => decide (b < a)

/-- `CMPGE` (R94). -/
def execCmpge (ra rb : Reg) (s : State) : Host.Outcome State Fault Refusal :=
  command (.cmpge ra rb) s <| compareWith s ra rb fun a b => decide (b ≤ a)

end Sys2Proof.Machine
end

