-- ==== Sys2Proof/Machine/Direct.lean ====
section
/-! DEFINITION. Direct-polynomial arithmetic (`41_direct_polynomial.md` R84 to R88). -/

namespace Sys2Proof.Machine

/-- `ADD` (R84). -/
def execAdd (rd ra rb : Reg) (s : State) : Host.Outcome State Fault Refusal :=
  command (.add rd ra rb) s <| finish s do
    let (a, b) ← twoSources s ra rb
    pure (toDest s rd (a.val ^^^ b.val) a.mod)

/-- `MUL` (R85). -/
def execMul (rd ra rb : Reg) (s : State) : Host.Outcome State Fault Refusal :=
  command (.mul rd ra rb) s <| finish s do
    let (a, b) ← twoSources s ra rb
    pure (toDest s rd (mulReduce s.params.bits a.val b.val a.mod) a.mod)

/-- `DIV` (R86). -/
def execDiv (rd ra rb : Reg) (s : State) : Host.Outcome State Fault Refusal :=
  command (.div rd ra rb) s <| finish s do
    let (a, b) ← twoSources s ra rb
    needNonzero b
    pure (toDest s rd (divide s.params.bits a.val b.val a.mod) a.mod)

/-- `INV` (R87). -/
def execInv (rd ra : Reg) (s : State) : Host.Outcome State Fault Refusal :=
  command (.inv rd ra) s <| finish s do
    let a ← oneSource s ra
    needNonzero a
    pure (toDest s rd (inverse s.params.bits a.val a.mod) a.mod)

/-- `POW` (R88). -/
def execPow (rd ra : Reg) (n : Word) (s : State) : Host.Outcome State Fault Refusal :=
  command (.pow rd ra n) s <| finish s do
    let a ← oneSource s ra
    pure (toDest s rd (pow s.params.bits a.val n.toNat a.mod) a.mod)

end Sys2Proof.Machine
end

