-- ==== Sys2Proof/Machine/Tables.lean ====
section
/-! DEFINITION. The table builders (`42_log_table.md` R100, `43_full_table.md` R121,
R122). -/

namespace Sys2Proof.Machine

/-! ## The log-table pair (R100) -/

/-- The working state of `buildLogTable`. -/
structure LogBuild where
  cur : Word
  ok : Bool
  indToPol : Table
  polToInd : Table
  deriving DecidableEq, Repr

/-- Before the first pass: no entry written. -/
def logStart (order : Nat) : LogBuild :=
  { cur := 1, ok := true, indToPol := List.replicate (order - 1) none
    polToInd := List.replicate order none }

/-- One pass of the builder's first loop. -/
def logPass (w : Nat) (m : Word) (i : Nat) (b : LogBuild) : LogBuild :=
  { cur := mulReduce w b.cur 2 m
    ok := if 0 < i ∧ b.cur = 1 then false else b.ok
    indToPol := b.indToPol.set i (some b.cur)
    polToInd := b.polToInd.set b.cur.toNat (some (BitVec.ofNat 64 i)) }

/-- The `n` passes from `i` on. -/
def logPasses (w : Nat) (m : Word) : Nat → Nat → LogBuild → LogBuild
  | 0, _, b => b
  | n + 1, i, b => logPasses w m n (i + 1) (logPass w m i b)

/-- `buildLogTable(m)`: the finished bank, or `none` when the verdict is not `ok` ('the
contents of the arrays are unspecified' then). The doubled tail is a copy of the first
`order - 1` entries. -/
def buildLogTable (w : Nat) (m : Word) : Option LogBank :=
  let order := modulusOrder w m
  let b := logPasses w m (order - 1) 0 (logStart order)
  if b.ok = true ∧ b.cur = 1 then
    some { mod := m, indToPol := b.indToPol ++ b.indToPol, polToInd := b.polToInd }
  else none

/-! ## The full tables (R121, R122) -/

/-- `buildMulTable(m)`: the product of the unordered pair `i <= j` stands at both
`i*order + j` and `j*order + i`. -/
def buildMulTable (w : Nat) (m : Word) : Table :=
  let order := modulusOrder w m
  (List.range (order * order)).map fun k =>
    let i := min (k / order) (k % order)
    let j := max (k / order) (k % order)
    some (mulReduce w (BitVec.ofNat 64 i) (BitVec.ofNat 64 j) m)

/-- `buildDivTable(m)`: the quotient `a / b` at `a*order + b` for `b != 0`; the entries
with `b = 0` are not written. -/
def buildDivTable (w : Nat) (m : Word) : Table :=
  let order := modulusOrder w m
  (List.range (order * order)).map fun k =>
    if k % order = 0 then none
    else some (divide w (BitVec.ofNat 64 (k / order)) (BitVec.ofNat 64 (k % order)) m)

end Sys2Proof.Machine
end

