-- ==== Sys2Proof/Machine/FullTable.lean ====
section
/-! DEFINITION. Option `FT`: full multiplication and division tables
(`43_full_table.md` R123 to R127). With `HAS_FT = 0` every one of these is illegal
(R120), which `command` checks first. -/

namespace Sys2Proof.Machine

/-- `FTBUILDM` (R123): a degree that does not fit leaves the bank untouched; a build
invalidates the division table. -/
def execFtbuildm (modulus : Word) (s : State) : Host.Outcome State Fault Refusal :=
  command (.ftbuildm modulus) s <| finish s do
    let m ← needModulus s.params modulus
    if s.params.ftDegMax < modulusDegree s.params.bits m then .error .tableBuildFail
    else
      pure (setFt s (some
        { mod := m, mulTable := buildMulTable s.params.bits m, divTable := none }), 0)

/-- `FTBUILDD` (R124). -/
def execFtbuildd (modulus : Word) (s : State) : Host.Outcome State Fault Refusal :=
  command (.ftbuildd modulus) s <| finish s do
    let m ← needModulus s.params modulus
    let b ← needFtm s m
    pure (setFt s (some { b with divTable := some (buildDivTable s.params.bits m) }), 0)

/-- `FTINV` (R125). -/
def execFtinv (s : State) : Host.Outcome State Fault Refusal :=
  command .ftinv s <| done (setFt s none) 0

/-- The flat index of a pair: `E[ra].val * E[ra].ord + E[rb].val` (R126, R127). -/
def pairIndex (a b : Elem) : Nat := a.val.toNat * a.ord.toNat + b.val.toNat

/-- `FMUL` (R126). -/
def execFmul (rd ra rb : Reg) (s : State) : Host.Outcome State Fault Refusal :=
  command (.fmul rd ra rb) s <| finish s do
    let (a, b) ← twoSources s ra rb
    let t ← needFtm s a.mod
    pure (toDest s rd (readEntry .mulTable t.mulTable (pairIndex a b)) a.mod)

/-- `FDIV` (R127). -/
def execFdiv (rd ra rb : Reg) (s : State) : Host.Outcome State Fault Refusal :=
  command (.fdiv rd ra rb) s <| finish s do
    let (a, b) ← twoSources s ra rb
    let t ← needFtd s a.mod
    needNonzero b
    pure (toDest s rd (readEntry .divTable t (pairIndex a b)) a.mod)

end Sys2Proof.Machine
end

