-- ==== Sys2Proof/Machine/LogTable.lean ====
section
/-! DEFINITION. Log-table arithmetic (`42_log_table.md` R101 to R108). -/

namespace Sys2Proof.Machine

/-- The modulus of `LTBUILD`, its degree within the bank's reach: `d < 2 or
d > LOGDEG_MAX` fails with the bank untouched (R101). -/
def needLogDegree (p : Params) (imm1 : Word) : Except Failure Word := do
  let m ← needModulus p imm1
  if modulusDegree p.bits m < 2 ∨ p.logDegMax < modulusDegree p.bits m then
    .error .tableBuildFail
  else .ok m

/-- The build, once started: `LT.valid <- 0` first, so a build that fails because the
generator is not primitive leaves the bank invalid (R101). -/
def buildLt (s : State) (m : Word) : State :=
  match buildLogTable s.params.bits m with
  | some b => done (setLt s (some b)) 0
  | none => raise (setLt s none) .tableBuildFail

/-- `LTBUILD` (R101). -/
def execLtbuild (modulus : Word) (s : State) : Host.Outcome State Fault Refusal :=
  command (.ltbuild modulus) s <|
    match needLogDegree s.params modulus with
    | .error k => raise s k
    | .ok m => buildLt s m

/-- `LTINV` (R102). -/
def execLtinv (s : State) : Host.Outcome State Fault Refusal :=
  command .ltinv s <| done (setLt s none) 0

/-- `LT.polToInd[v]` as a natural number. -/
def logOf (b : LogBank) (v : Word) : Nat := (readEntry .polToInd b.polToInd v.toNat).toNat

/-- `LT.indToPol[i]`. -/
def expOf (b : LogBank) (i : Nat) : Word := readEntry .indToPol b.indToPol i

/-- `LMUL` (R104). -/
def execLmul (rd ra rb : Reg) (s : State) : Host.Outcome State Fault Refusal :=
  command (.lmul rd ra rb) s <| finish s do
    let (a, b) ← twoSources s ra rb
    let t ← needLt s a
    let r := if a.val = 0 ∨ b.val = 0 then 0 else expOf t (logOf t a.val + logOf t b.val)
    pure (toDest s rd r a.mod)

/-- The exponent difference of `LDIV`: `if u < v then u <- u + (ord - 1)`; `u - v` (R105). -/
def logDifference (ord u v : Nat) : Nat := (if u < v then u + (ord - 1) else u) - v

/-- `LDIV` (R105). -/
def execLdiv (rd ra rb : Reg) (s : State) : Host.Outcome State Fault Refusal :=
  command (.ldiv rd ra rb) s <| finish s do
    let (a, b) ← twoSources s ra rb
    let t ← needLt s a
    needNonzero b
    let r := if a.val = 0 then 0
      else expOf t (logDifference a.ord.toNat (logOf t a.val) (logOf t b.val))
    pure (toDest s rd r a.mod)

/-- `LPOW` (R106): the product of the exponents is exact. -/
def execLpow (rd ra : Reg) (n : Word) (s : State) : Host.Outcome State Fault Refusal :=
  command (.lpow rd ra n) s <| finish s do
    let a ← oneSource s ra
    let t ← needLt s a
    let r := if a.val = 0 then (if n = 0 then 1 else 0)
      else expOf t (logOf t a.val * n.toNat % (a.ord.toNat - 1))
    pure (toDest s rd r a.mod)

/-- `LTRDI` (R107). -/
def execLtrdi (index : Word) (s : State) : Host.Outcome State Fault Refusal :=
  command (.ltrdi index) s <| finish s do
    let t ← needLtValid s
    if 2 * (modulusOrder s.params.bits t.mod - 1) ≤ index.toNat then .error .badIndex
    else pure (s, expOf t index.toNat)

/-- `LTRDP` (R108). -/
def execLtrdp (v : Word) (s : State) : Host.Outcome State Fault Refusal :=
  command (.ltrdp v) s <| finish s do
    let t ← needLtValid s
    if v = 0 ∨ modulusOrder s.params.bits t.mod ≤ v.toNat then .error .badIndex
    else pure (s, readEntry .polToInd t.polToInd v.toNat)

end Sys2Proof.Machine
end

