-- ==== Sys2Proof/Machine/System.lean ====
section
/-! DEFINITION. The system commands (`44_system.md` R135, R136). -/

namespace Sys2Proof.Machine

/-- `GETSTAT` (R135). -/
def execGetstat (s : State) : Host.Outcome State Fault Refusal :=
  command .getstat s <| done s (statusResult s.status)

/-- `CLRSTAT` (R136). -/
def execClrstat (s : State) : Host.Outcome State Fault Refusal :=
  command .clrstat s <| done (setStatus s 0) 0

end Sys2Proof.Machine
end

