-- ==== Sys2Proof/Machine/Utility.lean ====
section
/-! DEFINITION. Modulus utilities, construction, mutation, reduction and queries
(`40_utilities_reduction.md` R65 to R73). -/

namespace Sys2Proof.Machine

/-- `LOAD`, `LOAD.NR` (R67). -/
def execLoad (rd : Reg) (nr : Bool) (value modulus : Word) (s : State) :
    Host.Outcome State Fault Refusal :=
  command (.load rd nr value modulus) s <| finish s do
    let m ← needModulus s.params modulus
    pure (toDest s rd (if nr then value else reduce s.params.bits value m) m)

/-- `SETVAL` (R68). -/
def execSetval (rd : Reg) (value : Word) (s : State) : Host.Outcome State Fault Refusal :=
  command (.setval rd value) s <| finish s do
    let _ ← needReg s rd
    pure (writeVal s rd value, value)

/-- `RED` (R69). -/
def execRed (rd : Reg) (s : State) : Host.Outcome State Fault Refusal :=
  command (.red rd) s <| finish s do
    let e ← needReg s rd
    let r := reduce s.params.bits e.val e.mod
    pure (writeVal s rd r, r)

/-- A query of one register: `NeedReg(ra); Done(...)` (R70 to R73, R66). -/
def query (s : State) (ra : Reg) (f : Elem → Word) : State :=
  finish s do
    let e ← needReg s ra
    pure (s, f e)

/-- `GETVAL` (R70). -/
def execGetval (ra : Reg) (s : State) : Host.Outcome State Fault Refusal :=
  command (.getval ra) s <| query s ra Elem.val

/-- `GETMOD` (R71). -/
def execGetmod (ra : Reg) (s : State) : Host.Outcome State Fault Refusal :=
  command (.getmod ra) s <| query s ra Elem.mod

/-- `GETDEG` (R72). -/
def execGetdeg (ra : Reg) (s : State) : Host.Outcome State Fault Refusal :=
  command (.getdeg ra) s <| query s ra fun e => e.deg.setWidth 64

/-- `GETORD` (R73). -/
def execGetord (ra : Reg) (s : State) : Host.Outcome State Fault Refusal :=
  command (.getord ra) s <| query s ra Elem.ord

/-- `POLDEG` (R66). -/
def execPoldeg (ra : Reg) (startPos : BitVec 8) (s : State) : Host.Outcome State Fault Refusal :=
  command (.poldeg ra startPos) s <| query s ra fun e =>
    BitVec.ofNat 64 (leadingBitPosition e.val startPos.toNat s.params.bits)

/-- `MDEG` (R65): in `FIXED(M)` mode it still measures `IMM1`. -/
def execMdeg (modulus : Word) (s : State) : Host.Outcome State Fault Refusal :=
  command (.mdeg modulus) s <| done s (BitVec.ofNat 64 (modulusDegree s.params.bits modulus))

end Sys2Proof.Machine
end

