-- ==== Sys2Proof/Machine/Dispatch.lean ====
section
/-! DEFINITION. The dispatch: one arm per instruction, each one call of its meaning. -/

namespace Sys2Proof.Machine

def exec (i : Instr) (s : State) : Host.Outcome State Fault Refusal :=
  match i with
  | .load rd nr value modulus => Sys2Proof.Machine.execLoad rd nr value modulus s
  | .setval rd value => Sys2Proof.Machine.execSetval rd value s
  | .red rd => Sys2Proof.Machine.execRed rd s
  | .getval ra => Sys2Proof.Machine.execGetval ra s
  | .getmod ra => Sys2Proof.Machine.execGetmod ra s
  | .getdeg ra => Sys2Proof.Machine.execGetdeg ra s
  | .getord ra => Sys2Proof.Machine.execGetord ra s
  | .poldeg ra startPos => Sys2Proof.Machine.execPoldeg ra startPos s
  | .mdeg modulus => Sys2Proof.Machine.execMdeg modulus s
  | .getstat => Sys2Proof.Machine.execGetstat s
  | .clrstat => Sys2Proof.Machine.execClrstat s
  | .add rd ra rb => Sys2Proof.Machine.execAdd rd ra rb s
  | .mul rd ra rb => Sys2Proof.Machine.execMul rd ra rb s
  | .div rd ra rb => Sys2Proof.Machine.execDiv rd ra rb s
  | .inv rd ra => Sys2Proof.Machine.execInv rd ra s
  | .pow rd ra n => Sys2Proof.Machine.execPow rd ra n s
  | .cmpeq ra rb => Sys2Proof.Machine.execCmpeq ra rb s
  | .cmpne ra rb => Sys2Proof.Machine.execCmpne ra rb s
  | .cmplt ra rb => Sys2Proof.Machine.execCmplt ra rb s
  | .cmple ra rb => Sys2Proof.Machine.execCmple ra rb s
  | .cmpgt ra rb => Sys2Proof.Machine.execCmpgt ra rb s
  | .cmpge ra rb => Sys2Proof.Machine.execCmpge ra rb s
  | .ltbuild modulus => Sys2Proof.Machine.execLtbuild modulus s
  | .ltinv => Sys2Proof.Machine.execLtinv s
  | .lmul rd ra rb => Sys2Proof.Machine.execLmul rd ra rb s
  | .ldiv rd ra rb => Sys2Proof.Machine.execLdiv rd ra rb s
  | .lpow rd ra n => Sys2Proof.Machine.execLpow rd ra n s
  | .ltrdi index => Sys2Proof.Machine.execLtrdi index s
  | .ltrdp v => Sys2Proof.Machine.execLtrdp v s
  | .ftbuildm modulus => Sys2Proof.Machine.execFtbuildm modulus s
  | .ftbuildd modulus => Sys2Proof.Machine.execFtbuildd modulus s
  | .ftinv => Sys2Proof.Machine.execFtinv s
  | .fmul rd ra rb => Sys2Proof.Machine.execFmul rd ra rb s
  | .fdiv rd ra rb => Sys2Proof.Machine.execFdiv rd ra rb s

end Sys2Proof.Machine
end

