-- ==== Sys2Proof/Machine/Transaction.lean ====
section
/-! DEFINITION. One transaction: a command as the host presents it, decoded and executed
(`30_encoding.md` R40, R45, R50). -/

namespace Sys2Proof.Machine

/-- Execute a command: the meaning of the instruction it spells, or `IllegalCommand`. -/
def runCommand (c : Command) (s : State) : Host.Outcome State Fault Refusal :=
  match decode c with
  | .ok i => exec i s
  | .error _ => execIllegal s

end Sys2Proof.Machine
end

