-- ==== Sys2Proof/Machine/Step.lean ====
section
/-! DEFINITION. One step: the host's next input, whole (`10_state.md` R10, R16). A
command is accepted, executed and answered in one step, at the transaction level
(`30_encoding.md` R51). -/

namespace Sys2Proof.Machine

/-- One step. With no input left the block stays as it is (notes/assumptions/2.md). -/
def step (s : State) : Host.Outcome State Fault Refusal :=
  match nextInput s with
  | none => .next s
  | some (.reset _) => .next (takeReset (advance s))
  | some (.command c) => runCommand c (advance s)

/-- `s`, with the instruction whose first `nbits` bits are those of `w` presented next
(notes/assumptions/2.md). -/
def State.withFetchWord (s : State) (nbits w : Nat) : State :=
  presentOnly s (Command.ofTableWord nbits w)

end Sys2Proof.Machine
end

