-- ==== Sys2Proof/Machine/Port.lean ====
section
/-! DEFINITION. The signal level of the ports (`30_encoding.md` R51,
`70_reset_and_hazards.md` R165, R169, R170): the same transactions, clock edge by clock
edge. `Machine/Step.lean` is the transaction level, which is all a model needs (R51);
this file stands beside it (notes/assumptions/6.md). -/

namespace Sys2Proof.Machine

/-- The input signals sampled at a rising edge of `clk`. -/
structure PortIn where
  rst : Bool
  /-- `cmd_valid` -/
  cmdValid : Bool
  /-- `cmd_cw`, `cmd_imm0`, `cmd_imm1` -/
  cmd : Command
  /-- `rsp_ready` -/
  rspReady : Bool
  deriving DecidableEq, Repr

/-- The output signals. `rsp` is `some` exactly while `rsp_valid` is 1, and then holds
`rsp_err` and `rsp_res`, which mean nothing while it is 0. -/
structure PortOut where
  /-- `cmd_ready` -/
  cmdReady : Bool
  rsp : Option Response
  deriving DecidableEq, Repr

/-- Where the alternation of command and response stands. -/
inductive Phase where
  /-- no command in progress, no response waiting -/
  | ready
  /-- a command is in progress, with `left` more cycles after this one -/
  | executing (c : Command) (left : Nat)
  /-- the response waits to be taken -/
  | answering (r : Response)
  deriving DecidableEq, Repr

/-- The block at the signal level. `machine.responses` are the responses taken. -/
structure PortState where
  machine : State
  phase : Phase
  /-- how many commands have been accepted; the latency of the next depends on it -/
  accepted : Nat
  deriving DecidableEq, Repr

/-- The outputs in a cycle in which `rst` has the given value: 'While `rst = 1`,
`cmd_ready = 0` and `rsp_valid = 0`' (R165). That `cmd_ready` is 1 in the whole of the ready
phase is DEDUCED from R51 and R169 (notes/assumptions/6.md). -/
def PortState.outputs (p : PortState) (rst : Bool) : PortOut :=
  if rst then { cmdReady := false, rsp := none }
  else
    match p.phase with
    | .ready => { cmdReady := true, rsp := none }
    | .executing _ _ => { cmdReady := false, rsp := none }
    | .answering r => { cmdReady := false, rsp := some r }

/-- The edge that ends a command: its effect is complete, and its response is presented from
the next cycle on. (DESIGN CHOICE: the spec does not say in which cycle within the command
its effect is written, notes/assumptions/6.md.) -/
def completeCommand (p : PortState) (c : Command) : PortState :=
  match runCommand c p.machine with
  | .next t =>
    match t.responses.getLast? with
    | some r =>
      { p with machine := { t with responses := p.machine.responses }, phase := .answering r }
    | none => p
  | _ => p

/-- Accept a command. With latency `n` there are `n` cycles between the accepting cycle and
the first in which `rsp_valid` is 1. -/
def acceptCommand (p : PortState) (c : Command) : PortState :=
  match Config.latency p.accepted with
  | 0 => completeCommand { p with accepted := p.accepted + 1 } c
  | n + 1 => { p with phase := .executing c n, accepted := p.accepted + 1 }

/-- One rising edge of `clk`. R51 and R170 leave the number of cycles between acceptance and
`rsp_valid` open, none included, and so does this (`Config.latency`). DESIGN CHOICE: the
response is valid at the earliest in the cycle right after the accepting one, never in the
accepting cycle itself, and the next command is accepted at the earliest in the cycle right
after the one in which the response is taken (notes/assumptions/6.md). -/
def clockEdge (p : PortState) (i : PortIn) : PortState :=
  if i.rst then { p with machine := takeReset p.machine, phase := .ready }
  else
    match p.phase with
    | .ready =>
      if i.cmdValid then acceptCommand p i.cmd else p
    | .executing c (n + 1) => { p with phase := .executing c n }
    | .executing c 0 => completeCommand p c
    | .answering r =>
      if i.rspReady then { p with machine := respond p.machine r.err r.res, phase := .ready }
      else p

/-- A run of edges. -/
def clockEdges (p : PortState) (is : List PortIn) : PortState := is.foldl clockEdge p

/-- Right after reset. -/
def PortState.resetOf (p : Params) : PortState :=
  { machine := State.resetOf p, phase := .ready, accepted := 0 }

end Sys2Proof.Machine
end

