-- ==== Sys2Proof/Safety.lean ====
section
/-! DEFINITION. What claims are stated with: the invariants of the state
(`10_state.md` R12, R13, R17 to R21), what counts as a run gone wrong
(`70_reset_and_hazards.md` R166), the reading of a rule's premises, and the
mathematics the spec measures the block against (carry-less products). -/

namespace Sys2Proof

/-! ## Instructions and commands -/

/-- The registers a command reads as sources (`30_encoding.md` R50 step 2). -/
def Instr.sources : Instr → List Reg
  | .load _ _ _ _ => []
  | .setval rd _ => [rd]
  | .red rd => [rd]
  | .getval ra => [ra]
  | .getmod ra => [ra]
  | .getdeg ra => [ra]
  | .getord ra => [ra]
  | .poldeg ra _ => [ra]
  | .mdeg _ => []
  | .getstat => []
  | .clrstat => []
  | .add _ ra rb => [ra, rb]
  | .mul _ ra rb => [ra, rb]
  | .div _ ra rb => [ra, rb]
  | .inv _ ra => [ra]
  | .pow _ ra _ => [ra]
  | .cmpeq ra rb => [ra, rb]
  | .cmpne ra rb => [ra, rb]
  | .cmplt ra rb => [ra, rb]
  | .cmple ra rb => [ra, rb]
  | .cmpgt ra rb => [ra, rb]
  | .cmpge ra rb => [ra, rb]
  | .ltbuild _ => []
  | .ltinv => []
  | .lmul _ ra rb => [ra, rb]
  | .ldiv _ ra rb => [ra, rb]
  | .lpow _ ra _ => [ra]
  | .ltrdi _ => []
  | .ltrdp _ => []
  | .ftbuildm _ => []
  | .ftbuildd _ => []
  | .ftinv => []
  | .fmul _ ra rb => [ra, rb]
  | .fdiv _ ra rb => [ra, rb]

/-- The register a command writes, if any (`30_encoding.md` R43). -/
def Instr.dest : Instr → Option Reg
  | .load rd _ _ _ => some rd
  | .setval rd _ => some rd
  | .red rd => some rd
  | .getval _ => none
  | .getmod _ => none
  | .getdeg _ => none
  | .getord _ => none
  | .poldeg _ _ => none
  | .mdeg _ => none
  | .getstat => none
  | .clrstat => none
  | .add rd _ _ => some rd
  | .mul rd _ _ => some rd
  | .div rd _ _ => some rd
  | .inv rd _ => some rd
  | .pow rd _ _ => some rd
  | .cmpeq _ _ => none
  | .cmpne _ _ => none
  | .cmplt _ _ => none
  | .cmple _ _ => none
  | .cmpgt _ _ => none
  | .cmpge _ _ => none
  | .ltbuild _ => none
  | .ltinv => none
  | .lmul rd _ _ => some rd
  | .ldiv rd _ _ => some rd
  | .lpow rd _ _ => some rd
  | .ltrdi _ => none
  | .ltrdp _ => none
  | .ftbuildm _ => none
  | .ftbuildd _ => none
  | .ftinv => none
  | .fmul rd _ _ => some rd
  | .fdiv rd _ _ => some rd

/-- Whether a command writes the bank `LT` (`10_state.md` R22). -/
def Instr.writesLt : Instr → Bool
  | .ltbuild _ | .ltinv => true
  | _ => false

/-- Whether a command writes the bank `FT` (`10_state.md` R22). -/
def Instr.writesFt : Instr → Bool
  | .ftbuildm _ | .ftbuildd _ | .ftinv => true
  | _ => false

/-- Whether a command may leave an unreduced value: 'two exceptions that GFL itself
names', `LOAD` with `NR` and `SETVAL` (`10_state.md` R13). -/
def Instr.mayUnreduce : Instr → Bool
  | .load _ nr _ _ => nr
  | .setval _ _ => true
  | _ => false

/-- The conditions of `30_encoding.md` R44, read off the bits of the command and the
parameters, without the decoder. -/
def Command.Illegal (p : Params) (c : Command) : Prop :=
  let op := c.opcode.toNat
  let takesModulus := op = 0x01 ∨ op = 0x30 ∨ op = 0x40 ∨ op = 0x41
  -- (a)
  (∀ r ∈ opcodeRows, r.opcode ≠ c.opcode) ∨
  -- (b)
  (0x40 ≤ op ∧ op ≤ 0x44 ∧ p.hasFt = false) ∨
  -- (c)
  (∃ r ∈ opcodeRows, r.opcode = c.opcode ∧ c.cw &&& r.mask ≠ r.pattern) ∨
  -- (d), an unused immediate
  (op ∉ [0x01, 0x02, 0x14, 0x34, 0x35, 0x36] ∧ c.imm0 ≠ 0) ∨
  (op ∉ [0x01, 0x09, 0x30, 0x40, 0x41] ∧ c.imm1 ≠ 0) ∨
  (takesModulus ∧ p.fieldMode ≠ .runtime ∧ c.imm1 ≠ 0) ∨
  -- (d), a W-bit quantity too wide
  ((op = 0x01 ∨ op = 0x02) ∧ p.fits c.imm0 = false) ∨
  ((op = 0x09 ∨ (takesModulus ∧ p.fieldMode = .runtime)) ∧ p.fits c.imm1 = false) ∨
  -- (e)
  (op = 0x08 ∧ c.imm8 = 0)

/-- The modulus is the field's one modulus `M` in `FIXED(M)` mode (`10_state.md` R15). -/
def Params.Admits (p : Params) (m : Word) : Prop :=
  match p.fieldMode with
  | .runtime => True
  | .fixed m' => m = m'

/-- A modulus an element or a table can have: a `W`-bit quantity, at least 2. -/
def Params.ModulusOk (p : Params) (m : Word) : Prop :=
  2 ≤ m.toNat ∧ p.fits m = true ∧ p.Admits m

end Sys2Proof

namespace Sys2Proof.Machine

/-! ## Invariants -/

/-- The field-state invariant of a register that holds an element (`10_state.md` R12),
and the width of its value (R11). -/
def Elem.Wf (p : Params) (e : Elem) : Prop :=
  p.ModulusOk e.mod ∧ p.fits e.val = true ∧
  e.deg.toNat = modulusDegree p.bits e.mod ∧
  1 ≤ e.deg.toNat ∧ e.deg.toNat ≤ p.bits - 1 ∧
  e.ord.toNat = 2 ^ e.deg.toNat

/-- Every register that holds an element has its field state in order (`10_state.md` R12). -/
def State.RegsWf (s : State) : Prop := ∀ r e, s.elem r = some e → e.Wf s.params

/-- The log-table invariants (`10_state.md` R18, R19), `g` being 2. -/
def LogBank.Wf (p : Params) (b : LogBank) : Prop :=
  p.ModulusOk b.mod ∧
  2 ≤ modulusDegree p.bits b.mod ∧ modulusDegree p.bits b.mod ≤ p.logDegMax ∧
  b.indToPol.length = 2 * (modulusOrder p.bits b.mod - 1) ∧
  b.polToInd.length = modulusOrder p.bits b.mod ∧
  b.polToInd[0]? = some none ∧
  (∀ i, i < modulusOrder p.bits b.mod - 1 →
    b.indToPol[i]? = some (some (pow p.bits 2 i b.mod)) ∧
    b.indToPol[i + (modulusOrder p.bits b.mod - 1)]? = b.indToPol[i]? ∧
    pow p.bits 2 i b.mod ≠ 0) ∧
  (∀ i j, i < j → j < modulusOrder p.bits b.mod - 1 →
    pow p.bits 2 i b.mod ≠ pow p.bits 2 j b.mod) ∧
  (∀ v, 1 ≤ v → v < modulusOrder p.bits b.mod →
    ∃ k, k < modulusOrder p.bits b.mod - 1 ∧
      b.polToInd[v]? = some (some (BitVec.ofNat 64 k)) ∧
      b.indToPol[k]? = some (some (BitVec.ofNat 64 v)))

/-- While `LT.valid = 1` the bank is in order (`10_state.md` R19). -/
def State.LtWf (s : State) : Prop := ∀ b, s.lt = some b → b.Wf s.params

/-- The full-table invariants (`10_state.md` R20, R21). -/
def FullBank.Wf (p : Params) (f : FullBank) : Prop :=
  p.ModulusOk f.mod ∧ modulusDegree p.bits f.mod ≤ p.ftDegMax ∧
  f.mulTable.length = modulusOrder p.bits f.mod * modulusOrder p.bits f.mod ∧
  (∀ a b, a < modulusOrder p.bits f.mod → b < modulusOrder p.bits f.mod →
    f.mulTable[a * modulusOrder p.bits f.mod + b]? =
      some (some (mulReduce p.bits (BitVec.ofNat 64 a) (BitVec.ofNat 64 b) f.mod))) ∧
  (∀ t, f.divTable = some t →
    t.length = modulusOrder p.bits f.mod * modulusOrder p.bits f.mod ∧
    ∀ a b, a < modulusOrder p.bits f.mod → b < modulusOrder p.bits f.mod →
      t[a * modulusOrder p.bits f.mod + b]? =
        some (if b = 0 then none
          else some (divide p.bits (BitVec.ofNat 64 a) (BitVec.ofNat 64 b) f.mod)))

/-- While `FT.mvalid = 1` the bank exists (`HAS_FT = 1`) and is in order (`10_state.md`
R20, R21). -/
def State.FtWf (s : State) : Prop :=
  ∀ f, s.ft = some f → s.params.hasFt = true ∧ f.Wf s.params

/-- 'Bit 0 and bits 10 to 15 read as zero and cannot be set' (`10_state.md` R17). -/
def statusReserved (v : BitVec 16) : Bool := decide (v &&& 0xFC01#16 = 0)

/-- A response the block can give: `ERR` is 0 or one of the codes 1 to 9, and a failure
carries `RES = 0` (`30_encoding.md` R46, `60_exceptions.md` R140). -/
def Response.ok (r : Response) : Bool :=
  decide (r.err.toNat ≤ 9) && (decide (r.err = 0) || decide (r.res = 0))

/-- All the invariants together. -/
structure State.Inv (s : State) : Prop where
  legal : s.params.Legal
  regs : s.RegsWf
  lt : s.LtWf
  ft : s.FtWf
  status : statusReserved s.status = true
  responses : ∀ r ∈ s.responses, r.ok = true
  pos : s.pos ≤ s.inputs.length

/-- The canonical form of the table arrays, the only storage of the block selected by a
number: each array of a valid bank has exactly the entries of its range, and the full
tables hold a value exactly at the entries in use (`10_state.md` R18, R20). -/
def Memory.wf (s : State) : Bool :=
  (match s.lt with
    | none => true
    | some b => b.indToPol.length == 2 * (modulusOrder s.params.bits b.mod - 1) &&
        b.polToInd.length == modulusOrder s.params.bits b.mod) &&
  (match s.ft with
    | none => true
    | some f =>
        let order := modulusOrder s.params.bits f.mod
        f.mulTable.map Option.isSome == (List.range (order * order)).map (fun _ => true) &&
        (match f.divTable with
          | none => true
          | some t => t.map Option.isSome ==
              (List.range (order * order)).map (fun k => k % order != 0)))

/-! ## Runs (`70_reset_and_hazards.md` R166, R172) -/

/-- 'A claim that a run has gone wrong reads `STATUS != 0` or a nonzero `ERR` in some
response' (R166). -/
def State.goneWrong (s : State) : Bool :=
  decide (s.status ≠ 0) || s.responses.any fun r => decide (r.err ≠ 0)

/-- The run has ended: the host's list is exhausted (`10_state.md` R16, R172). -/
def State.ended (s : State) : Bool := decide (s.inputs.length ≤ s.pos)

/-! ## Reading a rule's premises -/

/-- `ra` holds the reduced element `a`. -/
def Ready1 (s : State) (ra : Reg) (a : Elem) : Prop := s.elem ra = some a ∧ a.reduced = true

/-- `ra` and `rb` hold the reduced elements `a` and `b` of one field. -/
def Ready2 (s : State) (ra rb : Reg) (a b : Elem) : Prop :=
  s.elem ra = some a ∧ s.elem rb = some b ∧ a.mod = b.mod ∧ a.reduced = true ∧ b.reduced = true

/-- The single source fails its checks with `k` (`30_encoding.md` R50 steps 2, 4). -/
def Fails1 (s : State) (ra : Reg) (k : Failure) : Prop :=
  (s.elem ra = none ∧ k = .emptyRegister) ∨
  (∃ a, s.elem ra = some a ∧ a.reduced = false ∧ k = .unreducedOperand)

/-- The two sources fail their checks with `k`, in the order of R50 steps 2, 3, 4. -/
def Fails2 (s : State) (ra rb : Reg) (k : Failure) : Prop :=
  ((s.elem ra = none ∨ s.elem rb = none) ∧ k = .emptyRegister) ∨
  (∃ a b, s.elem ra = some a ∧ s.elem rb = some b ∧ a.mod ≠ b.mod ∧ k = .crossFieldMismatch) ∨
  (∃ a b, s.elem ra = some a ∧ s.elem rb = some b ∧ a.mod = b.mod ∧
    (a.reduced = false ∨ b.reduced = false) ∧ k = .unreducedOperand)

/-- The register fields of a command word (`30_encoding.md` R41): `rd << 20`. -/
def atRd (r : Reg) : BitVec 32 := r.setWidth 32 <<< 20
/-- `ra << 16`. -/
def atRa (r : Reg) : BitVec 32 := r.setWidth 32 <<< 16
/-- `rb << 12`. -/
def atRb (r : Reg) : BitVec 32 := r.setWidth 32 <<< 12

/-- The command of a word that takes no immediate. -/
def plain (cw : BitVec 32) : Command := { cw := cw, imm0 := 0, imm1 := 0 }

/-! ## Polynomials over GF(2) as natural numbers

Bit `i` is the coefficient of `x^i`, addition is exclusive or. -/

/-- The exclusive or of `a << i` over the set bits `i < n` of `b`. -/
def clmulBelow (a b : Nat) : Nat → Nat
  | 0 => 0
  | n + 1 => if b.testBit n then clmulBelow a b n ^^^ (a <<< n) else clmulBelow a b n

/-- The carry-less product. -/
def clmul (a b : Nat) : Nat := clmulBelow a b (b.log2 + 1)

/-- Congruence modulo the polynomial `m`: the difference is a multiple of `m`. -/
def PolyCongr (m a b : Nat) : Prop := ∃ q, a ^^^ b = clmul q m

/-- The polynomial `m` of degree at least 1 has no factorisation but the trivial ones. -/
def PolyIrreducible (m : Nat) : Prop :=
  2 ≤ m ∧ ∀ a b, clmul a b = m → a = 1 ∨ b = 1

/-- A word is the bits of a reduced element of the field of `m`: below `2^d`. -/
def Below (w : Nat) (m a : Word) : Prop := a.toNat < modulusOrder w m

end Sys2Proof.Machine
end

