-- ==== Sys2Proof/Certificates/Slice0/Obligations.lean ====
section
/-! DEFINITION. The statements for the provers. Each docstring names the rule of spec/
a statement formalises. `done s v` answers `(0, v)`, `raise s k` answers `(code k, 0)`
and sets the flag of `k`, `writeElem s r v m` is the spec's `E[r] <- (v, m)`. A
hypothesis `wellFormed` is on the operands and the parameters alone (R44). -/

open Sys2Proof Sys2Proof.Machine

/-! ## Encoding and decoding -/

/-- R43, R45: decoding the command that spells an instruction gives that instruction,
for all 34 instructions and every value of every operand. -/
def Obligations.EncodedInstructionDecodesBack : Prop :=
  ∀ i : Instr, decode (encode i) = .ok i

/-- R43, R45: a command that decodes is the one command that spells its instruction, so
no bit of a command is dropped. -/
def Obligations.DecodedCommandEncodesBack : Prop :=
  ∀ (c : Command) (i : Instr), decode c = .ok i → encode i = c

/-- R47: the image of a command is 20 bytes, `CW`, `IMM0`, `IMM1` little-endian, and gives
the command back; the image of a response is 9 bytes, `ERR` in the low four bits of the
first, then `RES` little-endian. -/
def Obligations.CanonicalImagesAreLittleEndian : Prop :=
  (∀ c : Command, c.image.length = 20 ∧ Command.ofImage c.image = .ok c ∧
    (∀ k, k < 4 → c.image[k]? = some (c.cw.extractLsb' (8 * k) 8)) ∧
    (∀ k, k < 8 → c.image[4 + k]? = some (c.imm0.extractLsb' (8 * k) 8)) ∧
    (∀ k, k < 8 → c.image[12 + k]? = some (c.imm1.extractLsb' (8 * k) 8))) ∧
  (∀ r : Response, (responseImage r).length = 9 ∧
    (responseImage r)[0]? = some (r.err.setWidth 8) ∧
    (∀ k, k < 8 → (responseImage r)[1 + k]? = some (r.res.extractLsb' (8 * k) 8)))

/-- R45: no two rows of the opcode map match the same word. -/
def Obligations.OpcodeRowsNeverOverlap : Prop :=
  opcodeRows.length = 34 ∧
  opcodeRows.Pairwise fun r r' =>
    ∀ cw : BitVec 32, ¬ (cw &&& r.mask = r.pattern ∧ cw &&& r'.mask = r'.pattern)

/-- R44, R45: the conditions of R44, read off the bits of a command and the parameters,
hold exactly when the command spells no instruction that is legal on the instance. -/
def Obligations.IllegalExactlyByTheFiveConditions : Prop :=
  ∀ (p : Params) (c : Command),
    c.Illegal p ↔ ¬ ∃ i, decode c = .ok i ∧ i.wellFormed p = true

/-- R44, R146: presenting an illegal command moves the host's position and answers
`IllegalCommand`; no register and no table is written. -/
def Obligations.IllegalCommandWritesOnlyItsFlag : Prop :=
  ∀ (s : State) (c : Command), nextInput s = some (.command c) → c.Illegal s.params →
    step s = .next (raise (advance s) .illegalCommand) ∧
    (raise (advance s) .illegalCommand).regs = s.regs ∧
    (raise (advance s) .illegalCommand).lt = s.lt ∧
    (raise (advance s) .illegalCommand).ft = s.ft ∧
    (raise (advance s) .illegalCommand).status = s.status ||| 0x0040#16

/-- Words of `95_test_vectors.md` 2.2, 2.3, 2.5, 2.6, 2.8 and of the example of R47. -/
def Obligations.WordsOfTheSpecDecode : Prop :=
  decode { cw := 0x01100000#32, imm0 := 7, imm1 := 11 } = .ok (.load 1 false 7 11) ∧
  decode { cw := 0x01F00100#32, imm0 := 5, imm1 := 19 } = .ok (.load 15 true 5 19) ∧
  decode (plain 0x11312000#32) = .ok (.mul 3 1 2) ∧
  decode (plain 0x11FFF000#32) = .ok (.mul 15 15 15) ∧
  decode (plain 0x080F00FF#32) = .ok (.poldeg 15 255) ∧
  decode { cw := 0x14A90000#32, imm0 := 3, imm1 := 0 } = .ok (.pow 10 9 3) ∧
  decode (plain 0x25012000#32) = .ok (.cmpge 1 2) ∧
  decode (plain 0x33532000#32) = .ok (.ldiv 5 3 2) ∧
  decode (plain 0x44615000#32) = .ok (.fdiv 6 1 5) ∧
  decode (plain 0x0E000000#32) = .ok .getstat ∧
  decode (plain 0x00000000#32) = .error .reservedOpcode ∧
  decode (plain 0x11312200#32) = .error .nonzeroField ∧
  decode { cw := 0x11312000#32, imm0 := 1, imm1 := 0 } = .error .nonzeroImm0 ∧
  decode { cw := 0x14210000#32, imm0 := 3, imm1 := 1 } = .error .nonzeroImm1

/-! ## Steps and reset -/

/-- R16, R40, R50: when the host's next input is a command that decodes to `i`, a step is
`exec i` after the position has moved past the command. -/
def Obligations.StepRunsTheDecodedInstruction : Prop :=
  ∀ (s : State) (c : Command) (i : Instr),
    nextInput s = some (.command c) → decode c = .ok i → step s = exec i (advance s)

/-- R16, R46, R171: every step answers a next state. It takes one input of the host's list
and advances the position by exactly 1, or, when the list is exhausted (the model's
choice, notes/assumptions/2.md), changes nothing. A command, legal or not, produces
exactly one response: `ERR` is at most 9, and `RES` is 0 when `ERR` is not. -/
def Obligations.StepTakesOneInputAndAnswersOnce : Prop :=
  ∀ s : State, ∃ t, step s = .next t ∧ t.params = s.params ∧ t.inputs = s.inputs ∧
    (nextInput s = none → t = s) ∧
    (nextInput s ≠ none → t.pos = s.pos + 1) ∧
    (∀ c, nextInput s = some (.command c) →
      ∃ r : Response, t.responses = s.responses ++ [r] ∧ r.err.toNat ≤ 9 ∧
        (r.err ≠ 0 → r.res = 0)) ∧
    (∀ c, nextInput s = some (.reset c) → t.responses = s.responses)

/-- R24, R165: a reset, whatever command it abandons, empties every register, clears
`STATUS` and invalidates both banks; the abandoned command gets no response. That a reset
is one entry of the host's list, which stays, and moves the position past it by one is the
model's choice (notes/assumptions/2.md). -/
def Obligations.ResetInputTakesTheResetState : Prop :=
  ∀ (s : State) (c : Option Command), nextInput s = some (.reset c) →
    ∃ t, step s = .next t ∧ (∀ r, t.elem r = none) ∧ t.status = 0 ∧ t.lt = none ∧
      t.ft = none ∧ t.params = s.params ∧ t.inputs = s.inputs ∧ t.pos = s.pos + 1 ∧
      t.responses = s.responses

/-- R24: the reset state of every instance. (That `State.reset` is REF8's is the model's
choice, notes/assumptions/1.md.) -/
def Obligations.ResetStateIsEmpty : Prop :=
  (∀ p : Params, (State.resetOf p).params = p ∧ (∀ r, (State.resetOf p).elem r = none) ∧
    (State.resetOf p).status = 0 ∧ (State.resetOf p).lt = none ∧
    (State.resetOf p).ft = none ∧ (State.resetOf p).pos = 0 ∧
    (State.resetOf p).responses = []) ∧
  State.reset = State.resetOf Params.ref8

/-- The effects the instruction statements are written with. R17, R140, R150: the failure
with code `k` sets bit `k` of `STATUS` and no other, and answers `(k, 0)`; the codes are 1
to 9, all different; nothing else changes. R6, R46: `done s v` answers `(0, v)` and changes
nothing else; after `writeElem s r v m` (`E[r] <- (v, m)`) register `r` holds `v`, the
modulus, its degree and its order together (R15: in `FIXED(M)` mode those of `M`), and
nothing else has changed. `setLt` and `setFt` replace their bank alone. -/
def Obligations.FailureSetsItsBitAndAnswersItsCode : Prop :=
  (∀ (s : State) (k : Failure),
    1 ≤ k.code ∧ k.code ≤ 9 ∧
    (∀ j, j < 16 →
      (raise s k).status.getLsbD j = (s.status.getLsbD j || decide (j = k.code))) ∧
    (∃ r : Response, (raise s k).responses = s.responses ++ [r] ∧ r.err.toNat = k.code ∧
      r.res = 0) ∧
    (∀ r, (raise s k).elem r = s.elem r) ∧ (raise s k).lt = s.lt ∧ (raise s k).ft = s.ft) ∧
  (∀ k k' : Failure, k.code = k'.code → k = k') ∧
  Failure.code .crossFieldMismatch = 1 ∧ Failure.code .divisionByZero = 2 ∧
  Failure.code .malformedModulus = 3 ∧ Failure.code .tableMismatch = 4 ∧
  Failure.code .tableBuildFail = 5 ∧ Failure.code .illegalCommand = 6 ∧
  Failure.code .emptyRegister = 7 ∧ Failure.code .unreducedOperand = 8 ∧
  Failure.code .badIndex = 9 ∧
  (∀ (s : State) (v : Word),
    (done s v).responses = s.responses ++ [{ err := 0, res := v }] ∧
    (∀ r, (done s v).elem r = s.elem r) ∧ (done s v).status = s.status ∧
    (done s v).lt = s.lt ∧ (done s v).ft = s.ft ∧ (done s v).params = s.params) ∧
  (∀ (s : State) (r : Reg) (v m : Word),
    (∃ e, (writeElem s r v m).elem r = some e ∧ e.val = v ∧
      e.mod = modulusOperand s.params m ∧
      e.deg.toNat = modulusDegree s.params.bits (modulusOperand s.params m) ∧
      e.ord.toNat = 2 ^ modulusDegree s.params.bits (modulusOperand s.params m)) ∧
    (∀ q, q ≠ r → (writeElem s r v m).elem q = s.elem q) ∧
    (writeElem s r v m).status = s.status ∧ (writeElem s r v m).lt = s.lt ∧
    (writeElem s r v m).ft = s.ft ∧ (writeElem s r v m).params = s.params ∧
    (writeElem s r v m).responses = s.responses) ∧
  (∀ (s : State) (b : Option LogBank) (f : Option FullBank),
    (setLt s b).lt = b ∧ (setLt s b).ft = s.ft ∧ (setFt s f).ft = f ∧ (setFt s f).lt = s.lt ∧
    (∀ r, (setLt s b).elem r = s.elem r ∧ (setFt s f).elem r = s.elem r) ∧
    (setLt s b).status = s.status ∧ (setFt s f).status = s.status ∧
    (setLt s b).params = s.params ∧ (setFt s f).params = s.params ∧
    (setLt s b).responses = s.responses ∧ (setFt s f).responses = s.responses)

/-- R51, R165, R169: at the signal level a reset edge gives the reset state and no output
while it lasts; a command accepted in the ready phase is answered after its finite latency
(a free value, notes/assumptions/6.md), with nothing ready or valid before; the response
is held until it is taken, and then the block is ready in the state the transaction level
gives. Three clauses are the model's, not the rules' (notes/assumptions/6.md): that
`cmd_ready` is 1 in the whole ready phase, so that a command is accepted at the first edge
it is presented at, is DEDUCED; that the response is valid at the earliest in the cycle
after the accepting one, and that a reset leaves the count of accepted commands, are DESIGN
CHOICES. -/
def Obligations.PortsCarryOneTransaction : Prop :=
  (∀ (p : PortState) (i : PortIn), i.rst = true →
    p.outputs i.rst = { cmdReady := false, rsp := none } ∧
    clockEdge p i = { machine := takeReset p.machine, phase := .ready, accepted := p.accepted }) ∧
  (∀ (p : PortState) (i : PortIn), p.phase = .ready → i.rst = false →
    p.outputs i.rst = { cmdReady := true, rsp := none } ∧ (i.cmdValid = false → clockEdge p i = p)) ∧
  (∀ (p : PortState) (i : PortIn) (is : List PortIn), p.phase = .ready → i.rst = false →
    i.cmdValid = true → (∀ j ∈ is, j.rst = false) → is.length = Config.latency p.accepted →
    ∃ t r, runCommand i.cmd p.machine = .next t ∧
      t.responses = p.machine.responses ++ [r] ∧
      (∀ n, n < is.length →
        (clockEdges (clockEdge p i) (is.take n)).outputs false =
          { cmdReady := false, rsp := none }) ∧
      (clockEdges (clockEdge p i) is).outputs false = { cmdReady := false, rsp := some r } ∧
      (∀ j, j.rst = false → j.rspReady = false →
        clockEdge (clockEdges (clockEdge p i) is) j = clockEdges (clockEdge p i) is) ∧
      (∀ j, j.rst = false → j.rspReady = true →
        clockEdge (clockEdges (clockEdge p i) is) j =
          { machine := t, phase := .ready, accepted := p.accepted + 1 }))

/-! ## Utilities, construction, queries (R65 to R73) -/

/-- R65. -/
def Obligations.MdegMeasuresTheModulus : Prop :=
  ∀ (m : Word) (s : State),
    decode { cw := 0x09000000#32, imm0 := 0, imm1 := m } = .ok (.mdeg m) ∧
    (s.params.fits m = true →
      exec (.mdeg m) s = .next (done s (BitVec.ofNat 64 (modulusDegree s.params.bits m)))) ∧
    (s.params.fits m = false → exec (.mdeg m) s = .next (raise s .illegalCommand))

/-- R66. -/
def Obligations.PoldegScansTheValue : Prop :=
  ∀ (ra : Reg) (k : BitVec 8) (s : State),
    decode (plain (0x08000000#32 ||| atRa ra ||| k.setWidth 32)) = .ok (.poldeg ra k) ∧
    (k = 0 → exec (.poldeg ra k) s = .next (raise s .illegalCommand)) ∧
    (k ≠ 0 → s.elem ra = none → exec (.poldeg ra k) s = .next (raise s .emptyRegister)) ∧
    (∀ e, k ≠ 0 → s.elem ra = some e →
      exec (.poldeg ra k) s =
        .next (done s (BitVec.ofNat 64 (leadingBitPosition e.val k.toNat s.params.bits))))

/-- R67, with the modulus operand of R15. -/
def Obligations.LoadConstructsAnElement : Prop :=
  ∀ (rd : Reg) (nr : Bool) (v imm1 m r : Word) (s : State),
    m = modulusOperand s.params imm1 →
    r = (if nr then v else reduce s.params.bits v m) →
    decode { cw := 0x01000000#32 ||| atRd rd ||| (if nr then 0x100#32 else 0), imm0 := v,
             imm1 := imm1 } = .ok (.load rd nr v imm1) ∧
    ((Instr.load rd nr v imm1).wellFormed s.params = false →
      exec (.load rd nr v imm1) s = .next (raise s .illegalCommand)) ∧
    ((Instr.load rd nr v imm1).wellFormed s.params = true → m.toNat < 2 →
      exec (.load rd nr v imm1) s = .next (raise s .malformedModulus)) ∧
    ((Instr.load rd nr v imm1).wellFormed s.params = true → 2 ≤ m.toNat →
      exec (.load rd nr v imm1) s = .next (done (writeElem s rd r m) r))

/-- R68: the value only; `mod`, `deg`, `ord` stay. -/
def Obligations.SetvalWritesTheRawValue : Prop :=
  ∀ (rd : Reg) (v : Word) (s : State),
    decode { cw := 0x02000000#32 ||| atRd rd, imm0 := v, imm1 := 0 } = .ok (.setval rd v) ∧
    (s.params.fits v = false → exec (.setval rd v) s = .next (raise s .illegalCommand)) ∧
    (s.params.fits v = true → s.elem rd = none →
      exec (.setval rd v) s = .next (raise s .emptyRegister)) ∧
    (∀ e, s.params.fits v = true → s.elem rd = some e →
      ∃ t, exec (.setval rd v) s = .next (done t v) ∧ t.elem rd = some { e with val := v } ∧
        (∀ r, r ≠ rd → t.elem r = s.elem r) ∧ t.status = s.status ∧ t.lt = s.lt ∧ t.ft = s.ft)

/-- R69. -/
def Obligations.RedReducesInPlace : Prop :=
  ∀ (rd : Reg) (s : State),
    decode (plain (0x03000000#32 ||| atRd rd)) = .ok (.red rd) ∧
    (s.elem rd = none → exec (.red rd) s = .next (raise s .emptyRegister)) ∧
    (∀ e r, s.elem rd = some e → r = reduce s.params.bits e.val e.mod →
      ∃ t, exec (.red rd) s = .next (done t r) ∧ t.elem rd = some { e with val := r } ∧
        (∀ r', r' ≠ rd → t.elem r' = s.elem r') ∧ t.status = s.status ∧ t.lt = s.lt ∧
        t.ft = s.ft)

/-- R70, R71, R72, R73: a query answers its field and writes nothing, reduced or not. -/
def Obligations.QueriesAnswerTheirField : Prop :=
  ∀ (ra : Reg) (s : State),
    decode (plain (0x04000000#32 ||| atRa ra)) = .ok (.getval ra) ∧
    decode (plain (0x05000000#32 ||| atRa ra)) = .ok (.getmod ra) ∧
    decode (plain (0x06000000#32 ||| atRa ra)) = .ok (.getdeg ra) ∧
    decode (plain (0x07000000#32 ||| atRa ra)) = .ok (.getord ra) ∧
    (s.elem ra = none →
      exec (.getval ra) s = .next (raise s .emptyRegister) ∧
      exec (.getmod ra) s = .next (raise s .emptyRegister) ∧
      exec (.getdeg ra) s = .next (raise s .emptyRegister) ∧
      exec (.getord ra) s = .next (raise s .emptyRegister)) ∧
    (∀ e, s.elem ra = some e →
      exec (.getval ra) s = .next (done s e.val) ∧
      exec (.getmod ra) s = .next (done s e.mod) ∧
      exec (.getdeg ra) s = .next (done s (e.deg.setWidth 64)) ∧
      exec (.getord ra) s = .next (done s e.ord))

/-! ## Direct arithmetic and comparisons (R84 to R94) -/

/-- R84. -/
def Obligations.AddIsExclusiveOr : Prop :=
  ∀ (rd ra rb : Reg) (s : State),
    decode (plain (0x10000000#32 ||| atRd rd ||| atRa ra ||| atRb rb)) = .ok (.add rd ra rb) ∧
    (∀ k, Fails2 s ra rb k → exec (.add rd ra rb) s = .next (raise s k)) ∧
    (∀ a b, Ready2 s ra rb a b →
      exec (.add rd ra rb) s =
        .next (done (writeElem s rd (a.val ^^^ b.val) a.mod) (a.val ^^^ b.val)))

/-- R85. -/
def Obligations.MulIsMulReduce : Prop :=
  ∀ (rd ra rb : Reg) (s : State),
    decode (plain (0x11000000#32 ||| atRd rd ||| atRa ra ||| atRb rb)) = .ok (.mul rd ra rb) ∧
    (∀ k, Fails2 s ra rb k → exec (.mul rd ra rb) s = .next (raise s k)) ∧
    (∀ a b r, Ready2 s ra rb a b → r = mulReduce s.params.bits a.val b.val a.mod →
      exec (.mul rd ra rb) s = .next (done (writeElem s rd r a.mod) r))

/-- R86. -/
def Obligations.DivIsProductByInverse : Prop :=
  ∀ (rd ra rb : Reg) (s : State),
    decode (plain (0x12000000#32 ||| atRd rd ||| atRa ra ||| atRb rb)) = .ok (.div rd ra rb) ∧
    (∀ k, Fails2 s ra rb k → exec (.div rd ra rb) s = .next (raise s k)) ∧
    (∀ a b, Ready2 s ra rb a b → b.val = 0 →
      exec (.div rd ra rb) s = .next (raise s .divisionByZero)) ∧
    (∀ a b r, Ready2 s ra rb a b → b.val ≠ 0 →
      r = mulReduce s.params.bits a.val (inverse s.params.bits b.val a.mod) a.mod →
      exec (.div rd ra rb) s = .next (done (writeElem s rd r a.mod) r))

/-- R87. -/
def Obligations.InvIsThePowerOrderMinusTwo : Prop :=
  ∀ (rd ra : Reg) (s : State),
    decode (plain (0x13000000#32 ||| atRd rd ||| atRa ra)) = .ok (.inv rd ra) ∧
    (∀ k, Fails1 s ra k → exec (.inv rd ra) s = .next (raise s k)) ∧
    (∀ a, Ready1 s ra a → a.val = 0 →
      exec (.inv rd ra) s = .next (raise s .divisionByZero)) ∧
    (∀ a r, Ready1 s ra a → a.val ≠ 0 →
      r = pow s.params.bits a.val (2 ^ modulusDegree s.params.bits a.mod - 2) a.mod →
      exec (.inv rd ra) s = .next (done (writeElem s rd r a.mod) r))

/-- R88. -/
def Obligations.PowTakesA64BitExponent : Prop :=
  ∀ (rd ra : Reg) (n : Word) (s : State),
    decode { cw := 0x14000000#32 ||| atRd rd ||| atRa ra, imm0 := n, imm1 := 0 } =
      .ok (.pow rd ra n) ∧
    (∀ k, Fails1 s ra k → exec (.pow rd ra n) s = .next (raise s k)) ∧
    (∀ a r, Ready1 s ra a → r = pow s.params.bits a.val n.toNat a.mod →
      exec (.pow rd ra n) s = .next (done (writeElem s rd r a.mod) r))

/-- R89 to R94: the verdict in `RES`, unsigned, and no state written. -/
def Obligations.ComparisonsAnswerTheVerdict : Prop :=
  ∀ (ra rb : Reg) (s : State),
    decode (plain (0x20000000#32 ||| atRa ra ||| atRb rb)) = .ok (.cmpeq ra rb) ∧
    decode (plain (0x21000000#32 ||| atRa ra ||| atRb rb)) = .ok (.cmpne ra rb) ∧
    decode (plain (0x22000000#32 ||| atRa ra ||| atRb rb)) = .ok (.cmplt ra rb) ∧
    decode (plain (0x23000000#32 ||| atRa ra ||| atRb rb)) = .ok (.cmple ra rb) ∧
    decode (plain (0x24000000#32 ||| atRa ra ||| atRb rb)) = .ok (.cmpgt ra rb) ∧
    decode (plain (0x25000000#32 ||| atRa ra ||| atRb rb)) = .ok (.cmpge ra rb) ∧
    (∀ k, Fails2 s ra rb k →
      exec (.cmpeq ra rb) s = .next (raise s k) ∧ exec (.cmpne ra rb) s = .next (raise s k) ∧
      exec (.cmplt ra rb) s = .next (raise s k) ∧ exec (.cmple ra rb) s = .next (raise s k) ∧
      exec (.cmpgt ra rb) s = .next (raise s k) ∧ exec (.cmpge ra rb) s = .next (raise s k)) ∧
    (∀ a b, Ready2 s ra rb a b →
      exec (.cmpeq ra rb) s = .next (done s (if a.val = b.val then 1 else 0)) ∧
      exec (.cmpne ra rb) s = .next (done s (if a.val = b.val then 0 else 1)) ∧
      exec (.cmplt ra rb) s = .next (done s (if a.val.toNat < b.val.toNat then 1 else 0)) ∧
      exec (.cmple ra rb) s = .next (done s (if a.val.toNat ≤ b.val.toNat then 1 else 0)) ∧
      exec (.cmpgt ra rb) s = .next (done s (if a.val.toNat > b.val.toNat then 1 else 0)) ∧
      exec (.cmpge ra rb) s = .next (done s (if a.val.toNat ≥ b.val.toNat then 1 else 0)))

/-! ## Log table (R101 to R108) -/

/-- R101: the bank is untouched by a failed check, holds the new table after a successful
build, and is invalid after a build whose generator is not primitive. -/
def Obligations.LtbuildBuildsOrInvalidates : Prop :=
  ∀ (imm1 m : Word) (s : State), m = modulusOperand s.params imm1 →
    decode { cw := 0x30000000#32, imm0 := 0, imm1 := imm1 } = .ok (.ltbuild imm1) ∧
    ((Instr.ltbuild imm1).wellFormed s.params = false →
      exec (.ltbuild imm1) s = .next (raise s .illegalCommand)) ∧
    ((Instr.ltbuild imm1).wellFormed s.params = true → m.toNat < 2 →
      exec (.ltbuild imm1) s = .next (raise s .malformedModulus)) ∧
    ((Instr.ltbuild imm1).wellFormed s.params = true → 2 ≤ m.toNat →
      (modulusDegree s.params.bits m < 2 ∨ s.params.logDegMax < modulusDegree s.params.bits m) →
      exec (.ltbuild imm1) s = .next (raise s .tableBuildFail)) ∧
    ((Instr.ltbuild imm1).wellFormed s.params = true → 2 ≤ m.toNat →
      2 ≤ modulusDegree s.params.bits m → modulusDegree s.params.bits m ≤ s.params.logDegMax →
      (buildLogTable s.params.bits m = none →
        exec (.ltbuild imm1) s = .next (raise (setLt s none) .tableBuildFail)) ∧
      (∀ b, buildLogTable s.params.bits m = some b →
        b.mod = m ∧ exec (.ltbuild imm1) s = .next (done (setLt s (some b)) 0)))

/-- R102, R125: the invalidations leave the bank with no table and answer 0. -/
def Obligations.InvalidationEndsTheTable : Prop :=
  ∀ s : State,
    decode (plain 0x31000000#32) = .ok .ltinv ∧ decode (plain 0x42000000#32) = .ok .ftinv ∧
    exec .ltinv s = .next (done (setLt s none) 0) ∧
    (s.params.hasFt = false → exec .ftinv s = .next (raise s .illegalCommand)) ∧
    (s.params.hasFt = true → exec .ftinv s = .next (done (setFt s none) 0))

/-- R104. (`logOf`, `expOf` read `polToInd`, `indToPol`; an entry that holds no value,
which no run reads, is a free value, notes/assumptions/5.md.) -/
def Obligations.LmulAddsLogs : Prop :=
  ∀ (rd ra rb : Reg) (s : State),
    decode (plain (0x32000000#32 ||| atRd rd ||| atRa ra ||| atRb rb)) = .ok (.lmul rd ra rb) ∧
    (∀ k, Fails2 s ra rb k → exec (.lmul rd ra rb) s = .next (raise s k)) ∧
    (∀ a b, Ready2 s ra rb a b → (∀ t, s.lt = some t → t.mod ≠ a.mod) →
      exec (.lmul rd ra rb) s = .next (raise s .tableMismatch)) ∧
    (∀ a b t r, Ready2 s ra rb a b → s.lt = some t → t.mod = a.mod →
      r = (if a.val = 0 ∨ b.val = 0 then 0 else expOf t (logOf t a.val + logOf t b.val)) →
      exec (.lmul rd ra rb) s = .next (done (writeElem s rd r a.mod) r))

/-- R105: the table check comes before the zero test. -/
def Obligations.LdivSubtractsLogs : Prop :=
  ∀ (rd ra rb : Reg) (s : State),
    decode (plain (0x33000000#32 ||| atRd rd ||| atRa ra ||| atRb rb)) = .ok (.ldiv rd ra rb) ∧
    (∀ k, Fails2 s ra rb k → exec (.ldiv rd ra rb) s = .next (raise s k)) ∧
    (∀ a b, Ready2 s ra rb a b → (∀ t, s.lt = some t → t.mod ≠ a.mod) →
      exec (.ldiv rd ra rb) s = .next (raise s .tableMismatch)) ∧
    (∀ a b t, Ready2 s ra rb a b → s.lt = some t → t.mod = a.mod →
      (b.val = 0 → exec (.ldiv rd ra rb) s = .next (raise s .divisionByZero)) ∧
      (b.val ≠ 0 → a.val = 0 →
        exec (.ldiv rd ra rb) s = .next (done (writeElem s rd 0 a.mod) 0)) ∧
      (∀ u v r, b.val ≠ 0 → a.val ≠ 0 → u = logOf t a.val → v = logOf t b.val →
        r = (if u < v then expOf t (u + (a.ord.toNat - 1) - v) else expOf t (u - v)) →
        exec (.ldiv rd ra rb) s = .next (done (writeElem s rd r a.mod) r)))

/-- R106. -/
def Obligations.LpowMultipliesTheLog : Prop :=
  ∀ (rd ra : Reg) (n : Word) (s : State),
    decode { cw := 0x34000000#32 ||| atRd rd ||| atRa ra, imm0 := n, imm1 := 0 } =
      .ok (.lpow rd ra n) ∧
    (∀ k, Fails1 s ra k → exec (.lpow rd ra n) s = .next (raise s k)) ∧
    (∀ a, Ready1 s ra a → (∀ t, s.lt = some t → t.mod ≠ a.mod) →
      exec (.lpow rd ra n) s = .next (raise s .tableMismatch)) ∧
    (∀ a t r, Ready1 s ra a → s.lt = some t → t.mod = a.mod →
      r = (if a.val = 0 then (if n = 0 then 1 else 0)
        else expOf t ((logOf t a.val * n.toNat) % (a.ord.toNat - 1))) →
      exec (.lpow rd ra n) s = .next (done (writeElem s rd r a.mod) r))

/-- R107. -/
def Obligations.LtrdiReadsIndToPol : Prop :=
  ∀ (i : Word) (s : State),
    decode { cw := 0x35000000#32, imm0 := i, imm1 := 0 } = .ok (.ltrdi i) ∧
    (s.lt = none → exec (.ltrdi i) s = .next (raise s .tableMismatch)) ∧
    (∀ t, s.lt = some t → 2 * (2 ^ modulusDegree s.params.bits t.mod - 1) ≤ i.toNat →
      exec (.ltrdi i) s = .next (raise s .badIndex)) ∧
    (∀ t, s.lt = some t → i.toNat < 2 * (2 ^ modulusDegree s.params.bits t.mod - 1) →
      exec (.ltrdi i) s = .next (done s (readEntry .indToPol t.indToPol i.toNat)))

/-- R108. -/
def Obligations.LtrdpReadsPolToInd : Prop :=
  ∀ (v : Word) (s : State),
    decode { cw := 0x36000000#32, imm0 := v, imm1 := 0 } = .ok (.ltrdp v) ∧
    (s.lt = none → exec (.ltrdp v) s = .next (raise s .tableMismatch)) ∧
    (∀ t, s.lt = some t → (v = 0 ∨ 2 ^ modulusDegree s.params.bits t.mod ≤ v.toNat) →
      exec (.ltrdp v) s = .next (raise s .badIndex)) ∧
    (∀ t, s.lt = some t → v ≠ 0 → v.toNat < 2 ^ modulusDegree s.params.bits t.mod →
      exec (.ltrdp v) s = .next (done s (readEntry .polToInd t.polToInd v.toNat)))

/-! ## Full tables (R123 to R127) -/

/-- R123. -/
def Obligations.FtbuildmBuildsTheProducts : Prop :=
  ∀ (imm1 m : Word) (s : State), m = modulusOperand s.params imm1 →
    decode { cw := 0x40000000#32, imm0 := 0, imm1 := imm1 } = .ok (.ftbuildm imm1) ∧
    ((Instr.ftbuildm imm1).wellFormed s.params = false →
      exec (.ftbuildm imm1) s = .next (raise s .illegalCommand)) ∧
    ((Instr.ftbuildm imm1).wellFormed s.params = true → m.toNat < 2 →
      exec (.ftbuildm imm1) s = .next (raise s .malformedModulus)) ∧
    ((Instr.ftbuildm imm1).wellFormed s.params = true → 2 ≤ m.toNat →
      s.params.ftDegMax < modulusDegree s.params.bits m →
      exec (.ftbuildm imm1) s = .next (raise s .tableBuildFail)) ∧
    ((Instr.ftbuildm imm1).wellFormed s.params = true → 2 ≤ m.toNat →
      modulusDegree s.params.bits m ≤ s.params.ftDegMax →
      exec (.ftbuildm imm1) s =
        .next (done (setFt s (some
          { mod := m, mulTable := buildMulTable s.params.bits m, divTable := none })) 0))

/-- R124: it needs a valid multiplication table for the same modulus. -/
def Obligations.FtbuilddBuildsTheQuotients : Prop :=
  ∀ (imm1 m : Word) (s : State), m = modulusOperand s.params imm1 →
    decode { cw := 0x41000000#32, imm0 := 0, imm1 := imm1 } = .ok (.ftbuildd imm1) ∧
    ((Instr.ftbuildd imm1).wellFormed s.params = false →
      exec (.ftbuildd imm1) s = .next (raise s .illegalCommand)) ∧
    ((Instr.ftbuildd imm1).wellFormed s.params = true → m.toNat < 2 →
      exec (.ftbuildd imm1) s = .next (raise s .malformedModulus)) ∧
    ((Instr.ftbuildd imm1).wellFormed s.params = true → 2 ≤ m.toNat →
      (∀ f, s.ft = some f → f.mod ≠ m) →
      exec (.ftbuildd imm1) s = .next (raise s .tableMismatch)) ∧
    (∀ f, (Instr.ftbuildd imm1).wellFormed s.params = true → 2 ≤ m.toNat →
      s.ft = some f → f.mod = m →
      exec (.ftbuildd imm1) s =
        .next (done (setFt s (some
          { f with divTable := some (buildDivTable s.params.bits m) })) 0))

/-- R126, with R120 and R44 (b). -/
def Obligations.FmulLooksUpTheProduct : Prop :=
  ∀ (rd ra rb : Reg) (s : State),
    decode (plain (0x43000000#32 ||| atRd rd ||| atRa ra ||| atRb rb)) = .ok (.fmul rd ra rb) ∧
    (s.params.hasFt = false → exec (.fmul rd ra rb) s = .next (raise s .illegalCommand)) ∧
    (∀ k, s.params.hasFt = true → Fails2 s ra rb k →
      exec (.fmul rd ra rb) s = .next (raise s k)) ∧
    (∀ a b, s.params.hasFt = true → Ready2 s ra rb a b → (∀ f, s.ft = some f → f.mod ≠ a.mod) →
      exec (.fmul rd ra rb) s = .next (raise s .tableMismatch)) ∧
    (∀ a b f r, s.params.hasFt = true → Ready2 s ra rb a b → s.ft = some f → f.mod = a.mod →
      r = readEntry .mulTable f.mulTable (a.val.toNat * a.ord.toNat + b.val.toNat) →
      exec (.fmul rd ra rb) s = .next (done (writeElem s rd r a.mod) r))

/-- R127, with R120 and R44 (b): the table check comes before the zero test. -/
def Obligations.FdivLooksUpTheQuotient : Prop :=
  ∀ (rd ra rb : Reg) (s : State),
    decode (plain (0x44000000#32 ||| atRd rd ||| atRa ra ||| atRb rb)) = .ok (.fdiv rd ra rb) ∧
    (s.params.hasFt = false → exec (.fdiv rd ra rb) s = .next (raise s .illegalCommand)) ∧
    (∀ k, s.params.hasFt = true → Fails2 s ra rb k →
      exec (.fdiv rd ra rb) s = .next (raise s k)) ∧
    (∀ a b, s.params.hasFt = true → Ready2 s ra rb a b →
      (∀ f, s.ft = some f → f.mod ≠ a.mod ∨ f.divTable = none) →
      exec (.fdiv rd ra rb) s = .next (raise s .tableMismatch)) ∧
    (∀ a b f t, s.params.hasFt = true → Ready2 s ra rb a b → s.ft = some f → f.mod = a.mod →
      f.divTable = some t →
      (b.val = 0 → exec (.fdiv rd ra rb) s = .next (raise s .divisionByZero)) ∧
      (∀ r, b.val ≠ 0 →
        r = readEntry .divTable t (a.val.toNat * a.ord.toNat + b.val.toNat) →
        exec (.fdiv rd ra rb) s = .next (done (writeElem s rd r a.mod) r)))

/-! ## System (R135, R136) -/

/-- R135, R136: `GETSTAT` answers `STATUS` zero-extended and changes nothing; `CLRSTAT`
clears it, and nothing else. -/
def Obligations.StatusIsReadAndCleared : Prop :=
  ∀ s : State,
    decode (plain 0x0E000000#32) = .ok .getstat ∧ decode (plain 0x0F000000#32) = .ok .clrstat ∧
    exec .getstat s = .next (done s (s.status.setWidth 64)) ∧
    ∃ t, exec .clrstat s = .next (done t 0) ∧ t.status = 0 ∧ (∀ r, t.elem r = s.elem r) ∧
      t.lt = s.lt ∧ t.ft = s.ft

/-! ## Frames and whole-machine rules -/

/-- R30, R43 (column 'fields used'): no command changes a register but the one it names
as destination, the parameters, the host's list or the position. -/
def Obligations.OnlyTheDestinationRegisterChanges : Prop :=
  ∀ (i : Instr) (s t : State), exec i s = .next t →
    (∀ r, i.dest ≠ some r → t.elem r = s.elem r) ∧ t.params = s.params ∧
    t.inputs = s.inputs ∧ t.pos = s.pos

/-- R22: no command but `LTBUILD` and `LTINV` writes the bank `LT`, none but `FTBUILDM`,
`FTBUILDD` and `FTINV` writes the bank `FT`; and `FTBUILDD` leaves the products. -/
def Obligations.TablesAreWrittenOnlyByTheirCommands : Prop :=
  ∀ (i : Instr) (s t : State), exec i s = .next t →
    (i.writesLt = false → t.lt = s.lt) ∧ (i.writesFt = false → t.ft = s.ft) ∧
    (∀ imm1, i = .ftbuildd imm1 →
      t.ft.map (fun f => (f.mod, f.mulTable)) = s.ft.map (fun f => (f.mod, f.mulTable)))

/-- R150: a failing command sets its `STATUS` bit, answers its code and writes nothing
else, with the one exception of an `LTBUILD` whose modulus and degree fit (R101) and whose
build fails on the generator: it leaves the bank `LT` invalid. A command that
succeeds leaves `STATUS` alone, but for `CLRSTAT` (R17). -/
def Obligations.FailingCommandChangesOnlyStatus : Prop :=
  ∀ (i : Instr) (s t : State), exec i s = .next t →
    ∃ r : Response, t.responses = s.responses ++ [r] ∧
      (r.err = 0 → i ≠ .clrstat → t.status = s.status) ∧
      (r.err ≠ 0 → ∃ k : Failure, k.err = r.err ∧
        (t = raise s k ∨
          (∃ imm1 m, i = .ltbuild imm1 ∧ i.wellFormed s.params = true ∧
            needLogDegree s.params imm1 = .ok m ∧ m = modulusOperand s.params imm1 ∧
            2 ≤ m.toNat ∧ 2 ≤ modulusDegree s.params.bits m ∧
            modulusDegree s.params.bits m ≤ s.params.logDegMax ∧
            buildLogTable s.params.bits m = none) ∧
          k = .tableBuildFail ∧ t = raise (setLt s none) k))

/-- R17: a flag, once set, is cleared by no command but `CLRSTAT`; bit 0 and bits 15:10
are set by no command. -/
def Obligations.StatusFlagsAreSticky : Prop :=
  ∀ (i : Instr) (s t : State), exec i s = .next t →
    (i ≠ .clrstat → ∀ j, s.status.getLsbD j = true → t.status.getLsbD j = true) ∧
    (∀ j, j = 0 ∨ 10 ≤ j → s.status.getLsbD j = false → t.status.getLsbD j = false)

/-- R17: 'No command reads STATUS except GETSTAT; no command's result depends on it'. Two
states that differ in `STATUS` alone give the same response, registers and tables. -/
def Obligations.OnlyGetstatReadsStatus : Prop :=
  ∀ (i : Instr) (s t : State) (x : BitVec 16), i ≠ .getstat → exec i s = .next t →
    ∃ t', exec i (setStatus s x) = .next t' ∧ setStatus t' 0 = setStatus t 0

/-- R25, R147: a legal command with a register source whose `vld` is 0 fails with
`EmptyRegister` and writes nothing. -/
def Obligations.EmptySourceFails : Prop :=
  ∀ (i : Instr) (r : Reg) (s : State), i.wellFormed s.params = true → r ∈ i.sources →
    s.elem r = none → exec i s = .next (raise s .emptyRegister)

/-- R15: in `FIXED(M)` mode `CrossFieldMismatch` and `MalformedModulus` are never raised,
and every register reads the field state of `M`. -/
def Obligations.FixedModulusNeverMismatches : Prop :=
  ∀ (i : Instr) (m : Word) (s t : State), s.params.Legal → s.params.fieldMode = .fixed m →
    exec i s = .next t →
    (∀ r, t.responses = s.responses ++ [r] → r.err.toNat ≠ 1 ∧ r.err.toNat ≠ 3) ∧
    (∀ ra e, t.elem ra = some e → e.mod = m ∧ e.deg.toNat = modulusDegree s.params.bits m ∧
      e.ord.toNat = 2 ^ modulusDegree s.params.bits m)

/-! ## Invariants that every step keeps -/

/-- All the invariants hold right after reset, on every legal instance. -/
def Obligations.ResetMeetsTheInvariants : Prop :=
  ∀ p : Params, p.Legal → (State.resetOf p).Inv

/-- All the invariants (field states, both tables, reserved bits of `STATUS`, legal
responses) are kept by every step. -/
def Obligations.StepKeepsTheInvariants : Prop :=
  ∀ s t : State, s.Inv → step s = .next t → t.Inv

/-- R12: the field-state invariant cannot be broken by any command (the spec marks this as
derived). -/
def Obligations.StepKeepsFieldStates : Prop :=
  ∀ s t : State, s.Inv → step s = .next t →
    ∀ r e, t.elem r = some e →
      2 ≤ e.mod.toNat ∧ e.deg.toNat = modulusDegree t.params.bits e.mod ∧
      1 ≤ e.deg.toNat ∧ e.deg.toNat ≤ t.params.bits - 1 ∧ e.ord.toNat = 2 ^ e.deg.toNat

/-- R13: a command other than `SETVAL` and `LOAD` with `NR` writes only reduced values: a
register it leaves unreduced was unreduced before, and unchanged. -/
def Obligations.CommandsWriteReducedValues : Prop :=
  ∀ (i : Instr) (s t : State), s.Inv → i.mayUnreduce = false → exec i s = .next t →
    ∀ r e, t.elem r = some e → e.reduced = false → s.elem r = some e

/-- R19: a valid log-table bank satisfies the log-table invariants after every step,
whatever the registers hold. -/
def Obligations.StepKeepsTheLogTable : Prop :=
  ∀ s t : State, s.params.Legal → s.LtWf → step s = .next t → t.LtWf

/-- R21: valid full tables satisfy the full-table invariants after every step, whatever
the registers hold. -/
def Obligations.StepKeepsTheFullTables : Prop :=
  ∀ s t : State, s.params.Legal → s.FtWf → step s = .next t → t.FtWf

/-! ## The pure functions -/

/-- R60, R61: `modulusDegree` and `leadingBitPosition` give the position of the leading
set bit among those they scan, or 0. -/
def Obligations.BitScansFindTheLeadingBit : Prop :=
  (∀ (w : Width) (m : Word) (p : Nat), p < w.bits → m.getLsbD p = true →
    (∀ q, p < q → q < w.bits → m.getLsbD q = false) → modulusDegree w.bits m = p) ∧
  (∀ (w : Width) (m : Word), (∀ q, q < w.bits → m.getLsbD q = false) →
    modulusDegree w.bits m = 0) ∧
  (∀ (width startPos p : Nat) (v : Word), 1 ≤ startPos → p + startPos ≤ width →
    v.getLsbD p = true → (∀ q, p < q → q + startPos ≤ width → v.getLsbD q = false) →
    leadingBitPosition v startPos width = p) ∧
  (∀ (width startPos : Nat) (v : Word), 1 ≤ startPos →
    (∀ q, q + startPos ≤ width → v.getLsbD q = false) →
    leadingBitPosition v startPos width = 0) ∧
  (∀ (w : Width) (m : Word), modulusDegree w.bits m = leadingBitPosition m 1 w.bits)

/-- R64: `reduce` gives the unique polynomial of degree less than that of the modulus that
is congruent to the value; it is linear (which the spec marks as its own inference,
`93_implementation_defined.md` K1), and the source's examples hold. -/
def Obligations.ReduceIsTheRemainder : Prop :=
  (∀ (w : Width) (v m : Word), v.toNat < 2 ^ w.bits → m.toNat < 2 ^ w.bits → 1 ≤ m.toNat →
    PolyCongr m.toNat (reduce w.bits v m).toNat v.toNat ∧
    (reduce w.bits v m).toNat < modulusOrder w.bits m ∧
    (∀ r, r < modulusOrder w.bits m → PolyCongr m.toNat r v.toNat →
      r = (reduce w.bits v m).toNat) ∧
    (∀ v' : Word, v'.toNat < 2 ^ w.bits →
      reduce w.bits (v ^^^ v') m = reduce w.bits v m ^^^ reduce w.bits v' m)) ∧
  reduce 8 10 11 = 1 ∧ reduce 8 11 11 = 0 ∧ reduce 8 1 11 = 1 ∧ reduce 8 42 11 = 6 ∧
  reduce 8 9 11 = 2

/-- R80: on reduced operands `mulReduce` gives the carry-less product reduced modulo `m`;
it is commutative, 0 absorbs and 1 is neutral. -/
def Obligations.MulReduceIsTheProductModulo : Prop :=
  ∀ (w : Width) (m a b : Word), 2 ≤ m.toNat → m.toNat < 2 ^ w.bits →
    Below w.bits m a → Below w.bits m b →
    Below w.bits m (mulReduce w.bits a b m) ∧
    PolyCongr m.toNat (mulReduce w.bits a b m).toNat (clmul a.toNat b.toNat) ∧
    mulReduce w.bits a b m = mulReduce w.bits b a m ∧
    mulReduce w.bits a 0 m = 0 ∧ mulReduce w.bits 0 a m = 0 ∧ mulReduce w.bits a 1 m = a

/-- R95: the laws of the ring of polynomials modulo `m`, for every modulus, reducible or
not (for a reducible one the spec's own inference, `93_implementation_defined.md` K2). -/
def Obligations.ArithmeticIsACommutativeRing : Prop :=
  ∀ (w : Width) (m a b c : Word), 2 ≤ m.toNat → m.toNat < 2 ^ w.bits →
    Below w.bits m a → Below w.bits m b → Below w.bits m c →
    Below w.bits m (a ^^^ b) ∧ Below w.bits m (mulReduce w.bits a b m) ∧
    a ^^^ 0 = a ∧ a ^^^ a = 0 ∧ a ^^^ b = b ^^^ a ∧
    mulReduce w.bits a b m = mulReduce w.bits b a m ∧
    (a ^^^ b) ^^^ c = a ^^^ (b ^^^ c) ∧
    mulReduce w.bits (mulReduce w.bits a b m) c m =
      mulReduce w.bits a (mulReduce w.bits b c m) m ∧
    mulReduce w.bits a 1 m = a ∧ mulReduce w.bits a 0 m = 0 ∧
    mulReduce w.bits a (b ^^^ c) m = mulReduce w.bits a b m ^^^ mulReduce w.bits a c m

/-- R81, R82: `pow(a, n)` is the `n`-fold product, `pow(a, 0) = 1` for every `a`; the
inverse of 0 as a pure function, and of 1. -/
def Obligations.PowIsTheIteratedProduct : Prop :=
  ∀ (w : Width) (m a : Word), 2 ≤ m.toNat → m.toNat < 2 ^ w.bits → Below w.bits m a →
    pow w.bits a 0 m = 1 ∧
    (∀ n : Nat, Below w.bits m (pow w.bits a n m) ∧
      pow w.bits a (n + 1) m = mulReduce w.bits (pow w.bits a n m) a m) ∧
    inverse w.bits a m = pow w.bits a (2 ^ modulusDegree w.bits m - 2) m ∧
    (2 ≤ modulusDegree w.bits m → inverse w.bits 0 m = 0) ∧
    (modulusDegree w.bits m = 1 → inverse w.bits 0 m = 1) ∧
    inverse w.bits 1 m = 1

/-- R96: the field laws, when the modulus is irreducible. -/
def Obligations.IrreducibleModulusGivesAField : Prop :=
  ∀ (w : Width) (m a b : Word), m.toNat < 2 ^ w.bits → PolyIrreducible m.toNat →
    Below w.bits m a → Below w.bits m b → b ≠ 0 →
    mulReduce w.bits b (inverse w.bits b m) m = 1 ∧
    divide w.bits a b m = mulReduce w.bits a (inverse w.bits b m) m ∧
    pow w.bits b (modulusOrder w.bits m - 1) m = 1 ∧
    (∀ k n : Nat, mulReduce w.bits (pow w.bits b k m) (pow w.bits b n m) m =
      pow w.bits b ((k + n) % (modulusOrder w.bits m - 1)) m) ∧
    mulReduce w.bits (divide w.bits a b m) b m = a

/-- R100: the verdict of the log-table builder is exact: the build succeeds exactly when
the value 2 has multiplicative order `order - 1` modulo `m` (the spec's own inference,
`93_implementation_defined.md` K3). -/
def Obligations.LogTableVerdictIsExact : Prop :=
  ∀ (w : Width) (m : Word), m.toNat < 2 ^ w.bits → 2 ≤ modulusDegree w.bits m →
    ((buildLogTable w.bits m).isSome = true ↔
      pow w.bits 2 (modulusOrder w.bits m - 1) m = 1 ∧
      ∀ i, 0 < i → i < modulusOrder w.bits m - 1 → pow w.bits 2 i m ≠ 1)

/-- R110, R129: what `LTBUILD #11`, and `FTBUILDM #11` then `FTBUILDD #11`, leave in the
banks, on every `RUNTIME` instance of width 8 whose banks hold degree 3 (tables the spec
marks as computed from R100, R121, R122). -/
def Obligations.WorkedTablesOfField11 : Prop :=
  ∀ s : State, s.params.width = .w8 → s.params.fieldMode = .runtime →
    3 ≤ s.params.logDegMax → s.params.hasFt = true → 3 ≤ s.params.ftDegMax →
    (∃ t, exec (.ltbuild 11) s = .next t ∧ t.lt = some
      { mod := 11
        indToPol := [1, 2, 4, 3, 6, 7, 5, 1, 2, 4, 3, 6, 7, 5].map some
        polToInd := none :: [0, 1, 3, 2, 6, 4, 5].map some }) ∧
    (∃ t u, exec (.ftbuildm 11) s = .next t ∧ exec (.ftbuildd 11) t = .next u ∧ u.ft = some
      { mod := 11
        mulTable := (
          [0, 0, 0, 0, 0, 0, 0, 0] ++ [0, 1, 2, 3, 4, 5, 6, 7] ++ [0, 2, 4, 6, 3, 1, 7, 5] ++
          [0, 3, 6, 5, 7, 4, 1, 2] ++ [0, 4, 3, 7, 6, 2, 5, 1] ++ [0, 5, 1, 4, 2, 7, 3, 6] ++
          [0, 6, 7, 1, 5, 3, 2, 4] ++ [0, 7, 5, 2, 1, 6, 4, 3]).map some
        divTable := some (
          (none :: [0, 0, 0, 0, 0, 0, 0].map some) ++ (none :: [1, 5, 6, 7, 2, 3, 4].map some) ++
          (none :: [2, 1, 7, 5, 4, 6, 3].map some) ++ (none :: [3, 4, 1, 2, 6, 5, 7].map some) ++
          (none :: [4, 2, 5, 1, 3, 7, 6].map some) ++ (none :: [5, 7, 3, 6, 1, 4, 2].map some) ++
          (none :: [6, 3, 2, 4, 7, 1, 5].map some) ++
          (none :: [7, 6, 4, 3, 5, 2, 1].map some)) })

/-! ## Equivalence of the representations -/

/-- R109: whenever the tables serve the operand's field, `LMUL`, `LDIV` and `LPOW` answer
and write what `MUL`, `DIV` and `POW` do, `DivisionByZero` included (the spec marks this as
derived from R19). -/
def Obligations.LogTableAgreesWithDirect : Prop :=
  ∀ (s : State) (rd ra rb : Reg) (n : Word) (t : LogBank), s.Inv → s.lt = some t →
    (∀ a b, Ready2 s ra rb a b → t.mod = a.mod →
      exec (.lmul rd ra rb) s = exec (.mul rd ra rb) s ∧
      exec (.ldiv rd ra rb) s = exec (.div rd ra rb) s) ∧
    (∀ a, Ready1 s ra a → t.mod = a.mod → exec (.lpow rd ra n) s = exec (.pow rd ra n) s)

/-- R128: whenever the tables serve the operand's field, `FMUL` and `FDIV` answer and
write what `MUL` and `DIV` do, `DivisionByZero` included (the spec marks this as derived
from R21). -/
def Obligations.FullTableAgreesWithDirect : Prop :=
  ∀ (s : State) (rd ra rb : Reg) (f : FullBank) (a b : Elem), s.Inv → s.ft = some f →
    Ready2 s ra rb a b → f.mod = a.mod →
    exec (.fmul rd ra rb) s = exec (.mul rd ra rb) s ∧
    (f.divTable ≠ none → exec (.fdiv rd ra rb) s = exec (.div rd ra rb) s)
end

