-- ==== Sys2Proof/Laws/Decode.lean ====
section
/-! SUPPORT. The fields of an assembled command word read back, one lemma per field
(`30_encoding.md` R41), and the row of the opcode map each opcode finds. -/

namespace Sys2Proof

section
variable (op : BitVec 8) (rd ra rb : Reg) (nr : Bool) (imm8 : BitVec 8)

/-- Every bit of an assembled command word, from the field it lies in. -/
theorem commandWord_getLsbD (k : Nat) (h : k < 32) :
    (commandWord op rd ra rb nr imm8).getLsbD k =
      if k < 8 then imm8.getLsbD k
      else if k < 9 then nr
      else if k < 12 then false
      else if k < 16 then rb.getLsbD (k - 12)
      else if k < 20 then ra.getLsbD (k - 16)
      else if k < 24 then rd.getLsbD (k - 20)
      else op.getLsbD (k - 24) := by
  simp only [commandWord, BitVec.getLsbD_or, BitVec.getLsbD_shiftLeft, BitVec.getLsbD_setWidth,
    BitVec.getLsbD_ofBool, h, decide_true, Bool.true_and]
  interval_cases k <;> simp

/-- A field of `n` bits at `lo` reads back when the word has the field's bits there. -/
theorem extract_of_bits {n : Nat} (w : BitVec 32) (lo : Nat) (v : BitVec n)
    (h : ∀ k, k < n → w.getLsbD (lo + k) = v.getLsbD k) : w.extractLsb' lo n = v := by
  apply BitVec.eq_of_getLsbD_eq
  intro k hk
  simp [hk, h k hk]

theorem commandWord_opcode (i j : Word) :
    Command.opcode ⟨commandWord op rd ra rb nr imm8, i, j⟩ = op :=
  extract_of_bits _ _ _ fun k hk => by
    rw [commandWord_getLsbD _ _ _ _ _ _ _ (by omega)]
    simp [show ¬ 24 + k < 24 by omega, show ¬ 24 + k < 20 by omega, show ¬ 24 + k < 16 by omega,
      show ¬ 24 + k < 12 by omega, show ¬ 24 + k < 9 by omega, show ¬ 24 + k < 8 by omega]

theorem commandWord_rd (i j : Word) :
    Command.rd ⟨commandWord op rd ra rb nr imm8, i, j⟩ = rd :=
  extract_of_bits _ _ _ fun k hk => by
    rw [commandWord_getLsbD _ _ _ _ _ _ _ (by omega)]
    simp [show 20 + k < 24 by omega, show ¬ 20 + k < 20 by omega, show ¬ 20 + k < 16 by omega,
      show ¬ 20 + k < 12 by omega, show ¬ 20 + k < 9 by omega, show ¬ 20 + k < 8 by omega]

theorem commandWord_ra (i j : Word) :
    Command.ra ⟨commandWord op rd ra rb nr imm8, i, j⟩ = ra :=
  extract_of_bits _ _ _ fun k hk => by
    rw [commandWord_getLsbD _ _ _ _ _ _ _ (by omega)]
    simp [show 16 + k < 20 by omega, show ¬ 16 + k < 16 by omega, show ¬ 16 + k < 12 by omega,
      show ¬ 16 + k < 9 by omega, show ¬ 16 + k < 8 by omega]

theorem commandWord_rb (i j : Word) :
    Command.rb ⟨commandWord op rd ra rb nr imm8, i, j⟩ = rb :=
  extract_of_bits _ _ _ fun k hk => by
    rw [commandWord_getLsbD _ _ _ _ _ _ _ (by omega)]
    simp [show 12 + k < 16 by omega, show ¬ 12 + k < 12 by omega, show ¬ 12 + k < 9 by omega,
      show ¬ 12 + k < 8 by omega]

theorem commandWord_nr (i j : Word) :
    Command.nr ⟨commandWord op rd ra rb nr imm8, i, j⟩ = nr := by
  rw [Command.nr, commandWord_getLsbD _ _ _ _ _ _ 8 (by omega)]
  rfl

theorem commandWord_imm8 (i j : Word) :
    Command.imm8 ⟨commandWord op rd ra rb nr imm8, i, j⟩ = imm8 :=
  extract_of_bits _ _ _ fun k hk => by
    rw [commandWord_getLsbD _ _ _ _ _ _ _ (by omega)]
    simp [hk]

end

/-- A masked word is determined bit by bit: the row's pattern where the mask is set. -/
theorem masked_eq_iff (cw mask pattern : BitVec 32) :
    cw &&& mask = pattern ↔
      ∀ k, k < 32 → (cw.getLsbD k && mask.getLsbD k) = pattern.getLsbD k := by
  constructor
  · rintro rfl k -
    simp
  · intro h
    apply BitVec.eq_of_getLsbD_eq
    intro k hk
    simpa using h k hk

/-- Decoding goes through the one row of the command's opcode. -/
theorem decode_of_row {c : Command} {r : Row}
    (hf : opcodeRows.find? (fun r => r.opcode == c.opcode) = some r)
    (hm : c.cw &&& r.mask = r.pattern) (h0 : r.usesImm0 = true ∨ c.imm0 = 0)
    (h1 : r.usesImm1 = true ∨ c.imm1 = 0) : decode c = .ok (r.build c) := by
  unfold decode
  rw [hf]
  have n0 : ¬ (r.usesImm0 = false ∧ c.imm0 ≠ 0) := by rcases h0 with h | h <;> simp [h]
  have n1 : ¬ (r.usesImm1 = false ∧ c.imm1 ≠ 0) := by rcases h1 with h | h <;> simp [h]
  simp only [hm, ne_eq, not_true_eq_false, if_false]
  rw [if_neg n0, if_neg n1]

end Sys2Proof
end

