-- ==== Sys2Proof/Laws/State.lean ====
section
/-! SUPPORT. One lemma per field per update of the state: what each named update writes
and what it leaves. Later proofs rewrite with these and never unfold an update. -/

namespace Sys2Proof.Machine

/-! ### `setReg` -/

@[simp] theorem setReg_params (s : State) (r : Reg) (e : Option Elem) :
    (setReg s r e).params = s.params := rfl
@[simp] theorem setReg_regs (s : State) (r : Reg) (e : Option Elem) :
    (setReg s r e).regs = s.regs.set r.toNat e r.isLt := rfl
@[simp] theorem setReg_status (s : State) (r : Reg) (e : Option Elem) :
    (setReg s r e).status = s.status := rfl
@[simp] theorem setReg_lt (s : State) (r : Reg) (e : Option Elem) : (setReg s r e).lt = s.lt := rfl
@[simp] theorem setReg_ft (s : State) (r : Reg) (e : Option Elem) : (setReg s r e).ft = s.ft := rfl
@[simp] theorem setReg_inputs (s : State) (r : Reg) (e : Option Elem) :
    (setReg s r e).inputs = s.inputs := rfl
@[simp] theorem setReg_pos (s : State) (r : Reg) (e : Option Elem) :
    (setReg s r e).pos = s.pos := rfl
@[simp] theorem setReg_responses (s : State) (r : Reg) (e : Option Elem) :
    (setReg s r e).responses = s.responses := rfl

/-! ### `setLt` -/

@[simp] theorem setLt_params (s : State) (b : Option LogBank) : (setLt s b).params = s.params := rfl
@[simp] theorem setLt_regs (s : State) (b : Option LogBank) : (setLt s b).regs = s.regs := rfl
@[simp] theorem setLt_status (s : State) (b : Option LogBank) : (setLt s b).status = s.status := rfl
@[simp] theorem setLt_lt (s : State) (b : Option LogBank) : (setLt s b).lt = b := rfl
@[simp] theorem setLt_ft (s : State) (b : Option LogBank) : (setLt s b).ft = s.ft := rfl
@[simp] theorem setLt_inputs (s : State) (b : Option LogBank) : (setLt s b).inputs = s.inputs := rfl
@[simp] theorem setLt_pos (s : State) (b : Option LogBank) : (setLt s b).pos = s.pos := rfl
@[simp] theorem setLt_responses (s : State) (b : Option LogBank) :
    (setLt s b).responses = s.responses := rfl

/-! ### `setFt` -/

@[simp] theorem setFt_params (s : State) (b : Option FullBank) :
    (setFt s b).params = s.params := rfl
@[simp] theorem setFt_regs (s : State) (b : Option FullBank) : (setFt s b).regs = s.regs := rfl
@[simp] theorem setFt_status (s : State) (b : Option FullBank) :
    (setFt s b).status = s.status := rfl
@[simp] theorem setFt_lt (s : State) (b : Option FullBank) : (setFt s b).lt = s.lt := rfl
@[simp] theorem setFt_ft (s : State) (b : Option FullBank) : (setFt s b).ft = b := rfl
@[simp] theorem setFt_inputs (s : State) (b : Option FullBank) :
    (setFt s b).inputs = s.inputs := rfl
@[simp] theorem setFt_pos (s : State) (b : Option FullBank) : (setFt s b).pos = s.pos := rfl
@[simp] theorem setFt_responses (s : State) (b : Option FullBank) :
    (setFt s b).responses = s.responses := rfl

/-! ### `setStatus` -/

@[simp] theorem setStatus_params (s : State) (v : BitVec 16) :
    (setStatus s v).params = s.params := rfl
@[simp] theorem setStatus_regs (s : State) (v : BitVec 16) : (setStatus s v).regs = s.regs := rfl
@[simp] theorem setStatus_status (s : State) (v : BitVec 16) : (setStatus s v).status = v := rfl
@[simp] theorem setStatus_lt (s : State) (v : BitVec 16) : (setStatus s v).lt = s.lt := rfl
@[simp] theorem setStatus_ft (s : State) (v : BitVec 16) : (setStatus s v).ft = s.ft := rfl
@[simp] theorem setStatus_inputs (s : State) (v : BitVec 16) :
    (setStatus s v).inputs = s.inputs := rfl
@[simp] theorem setStatus_pos (s : State) (v : BitVec 16) : (setStatus s v).pos = s.pos := rfl
@[simp] theorem setStatus_responses (s : State) (v : BitVec 16) :
    (setStatus s v).responses = s.responses := rfl

/-! ### `respond` -/

@[simp] theorem respond_params (s : State) (e : BitVec 4) (v : Word) :
    (respond s e v).params = s.params := rfl
@[simp] theorem respond_regs (s : State) (e : BitVec 4) (v : Word) :
    (respond s e v).regs = s.regs := rfl
@[simp] theorem respond_status (s : State) (e : BitVec 4) (v : Word) :
    (respond s e v).status = s.status := rfl
@[simp] theorem respond_lt (s : State) (e : BitVec 4) (v : Word) : (respond s e v).lt = s.lt := rfl
@[simp] theorem respond_ft (s : State) (e : BitVec 4) (v : Word) : (respond s e v).ft = s.ft := rfl
@[simp] theorem respond_inputs (s : State) (e : BitVec 4) (v : Word) :
    (respond s e v).inputs = s.inputs := rfl
@[simp] theorem respond_pos (s : State) (e : BitVec 4) (v : Word) :
    (respond s e v).pos = s.pos := rfl
@[simp] theorem respond_responses (s : State) (e : BitVec 4) (v : Word) :
    (respond s e v).responses = s.responses ++ [{ err := e, res := v }] := rfl

/-! ### `done` -/

@[simp] theorem done_params (s : State) (v : Word) : (done s v).params = s.params := rfl
@[simp] theorem done_regs (s : State) (v : Word) : (done s v).regs = s.regs := rfl
@[simp] theorem done_status (s : State) (v : Word) : (done s v).status = s.status := rfl
@[simp] theorem done_lt (s : State) (v : Word) : (done s v).lt = s.lt := rfl
@[simp] theorem done_ft (s : State) (v : Word) : (done s v).ft = s.ft := rfl
@[simp] theorem done_inputs (s : State) (v : Word) : (done s v).inputs = s.inputs := rfl
@[simp] theorem done_pos (s : State) (v : Word) : (done s v).pos = s.pos := rfl
@[simp] theorem done_responses (s : State) (v : Word) :
    (done s v).responses = s.responses ++ [{ err := 0, res := v }] := rfl

/-! ### `raise` -/

@[simp] theorem raise_params (s : State) (k : Failure) : (raise s k).params = s.params := rfl
@[simp] theorem raise_regs (s : State) (k : Failure) : (raise s k).regs = s.regs := rfl
@[simp] theorem raise_status (s : State) (k : Failure) :
    (raise s k).status = setFlag s.status k := rfl
@[simp] theorem raise_lt (s : State) (k : Failure) : (raise s k).lt = s.lt := rfl
@[simp] theorem raise_ft (s : State) (k : Failure) : (raise s k).ft = s.ft := rfl
@[simp] theorem raise_inputs (s : State) (k : Failure) : (raise s k).inputs = s.inputs := rfl
@[simp] theorem raise_pos (s : State) (k : Failure) : (raise s k).pos = s.pos := rfl
@[simp] theorem raise_responses (s : State) (k : Failure) :
    (raise s k).responses = s.responses ++ [{ err := k.err, res := 0 }] := rfl

/-! ### `writeElem` -/

@[simp] theorem writeElem_params (s : State) (r : Reg) (v m : Word) :
    (writeElem s r v m).params = s.params := rfl
@[simp] theorem writeElem_regs (s : State) (r : Reg) (v m : Word) :
    (writeElem s r v m).regs = s.regs.set r.toNat (some (mkElem s.params v m)) r.isLt := rfl
@[simp] theorem writeElem_status (s : State) (r : Reg) (v m : Word) :
    (writeElem s r v m).status = s.status := rfl
@[simp] theorem writeElem_lt (s : State) (r : Reg) (v m : Word) :
    (writeElem s r v m).lt = s.lt := rfl
@[simp] theorem writeElem_ft (s : State) (r : Reg) (v m : Word) :
    (writeElem s r v m).ft = s.ft := rfl
@[simp] theorem writeElem_inputs (s : State) (r : Reg) (v m : Word) :
    (writeElem s r v m).inputs = s.inputs := rfl
@[simp] theorem writeElem_pos (s : State) (r : Reg) (v m : Word) :
    (writeElem s r v m).pos = s.pos := rfl
@[simp] theorem writeElem_responses (s : State) (r : Reg) (v m : Word) :
    (writeElem s r v m).responses = s.responses := rfl

/-! ### `writeVal` -/

@[simp] theorem writeVal_params (s : State) (r : Reg) (v : Word) :
    (writeVal s r v).params = s.params := rfl
@[simp] theorem writeVal_regs (s : State) (r : Reg) (v : Word) :
    (writeVal s r v).regs = s.regs.set r.toNat ((s.elem r).map fun e => { e with val := v }) r.isLt := rfl
@[simp] theorem writeVal_status (s : State) (r : Reg) (v : Word) :
    (writeVal s r v).status = s.status := rfl
@[simp] theorem writeVal_lt (s : State) (r : Reg) (v : Word) : (writeVal s r v).lt = s.lt := rfl
@[simp] theorem writeVal_ft (s : State) (r : Reg) (v : Word) : (writeVal s r v).ft = s.ft := rfl
@[simp] theorem writeVal_inputs (s : State) (r : Reg) (v : Word) :
    (writeVal s r v).inputs = s.inputs := rfl
@[simp] theorem writeVal_pos (s : State) (r : Reg) (v : Word) : (writeVal s r v).pos = s.pos := rfl
@[simp] theorem writeVal_responses (s : State) (r : Reg) (v : Word) :
    (writeVal s r v).responses = s.responses := rfl

/-! ### `advance` -/

@[simp] theorem advance_params (s : State) : (advance s).params = s.params := rfl
@[simp] theorem advance_regs (s : State) : (advance s).regs = s.regs := rfl
@[simp] theorem advance_status (s : State) : (advance s).status = s.status := rfl
@[simp] theorem advance_lt (s : State) : (advance s).lt = s.lt := rfl
@[simp] theorem advance_ft (s : State) : (advance s).ft = s.ft := rfl
@[simp] theorem advance_inputs (s : State) : (advance s).inputs = s.inputs := rfl
@[simp] theorem advance_pos (s : State) : (advance s).pos = s.pos + 1 := rfl
@[simp] theorem advance_responses (s : State) : (advance s).responses = s.responses := rfl

/-! ### `presentOnly` -/

@[simp] theorem presentOnly_params (s : State) (c : Command) :
    (presentOnly s c).params = s.params := rfl
@[simp] theorem presentOnly_regs (s : State) (c : Command) : (presentOnly s c).regs = s.regs := rfl
@[simp] theorem presentOnly_status (s : State) (c : Command) :
    (presentOnly s c).status = s.status := rfl
@[simp] theorem presentOnly_lt (s : State) (c : Command) : (presentOnly s c).lt = s.lt := rfl
@[simp] theorem presentOnly_ft (s : State) (c : Command) : (presentOnly s c).ft = s.ft := rfl
@[simp] theorem presentOnly_inputs (s : State) (c : Command) :
    (presentOnly s c).inputs = [.command c] := rfl
@[simp] theorem presentOnly_pos (s : State) (c : Command) : (presentOnly s c).pos = 0 := rfl
@[simp] theorem presentOnly_responses (s : State) (c : Command) :
    (presentOnly s c).responses = s.responses := rfl

/-! ### `takeReset` -/

@[simp] theorem takeReset_params (s : State) : (takeReset s).params = s.params := rfl
@[simp] theorem takeReset_regs (s : State) : (takeReset s).regs = Vector.replicate 16 none := rfl
@[simp] theorem takeReset_status (s : State) : (takeReset s).status = 0 := rfl
@[simp] theorem takeReset_lt (s : State) : (takeReset s).lt = none := rfl
@[simp] theorem takeReset_ft (s : State) : (takeReset s).ft = none := rfl
@[simp] theorem takeReset_inputs (s : State) : (takeReset s).inputs = s.inputs := rfl
@[simp] theorem takeReset_pos (s : State) : (takeReset s).pos = s.pos := rfl
@[simp] theorem takeReset_responses (s : State) : (takeReset s).responses = s.responses := rfl

/-! ### Reading a register after an update that writes none -/

@[simp] theorem elem_setLt (s : State) (b : Option LogBank) (q : Reg) : (setLt s b).elem q = s.elem q := rfl
@[simp] theorem elem_setFt (s : State) (b : Option FullBank) (q : Reg) : (setFt s b).elem q = s.elem q := rfl
@[simp] theorem elem_setStatus (s : State) (v : BitVec 16) (q : Reg) : (setStatus s v).elem q = s.elem q := rfl
@[simp] theorem elem_respond (s : State) (e : BitVec 4) (v : Word) (q : Reg) : (respond s e v).elem q = s.elem q := rfl
@[simp] theorem elem_done (s : State) (v : Word) (q : Reg) : (done s v).elem q = s.elem q := rfl
@[simp] theorem elem_raise (s : State) (k : Failure) (q : Reg) : (raise s k).elem q = s.elem q := rfl
@[simp] theorem elem_advance (s : State) (q : Reg) : (advance s).elem q = s.elem q := rfl
@[simp] theorem elem_presentOnly (s : State) (c : Command) (q : Reg) : (presentOnly s c).elem q = s.elem q := rfl

/-! ### Reading a register after a register write -/

/-- Two register numbers are equal when they are equal as indices. -/
theorem reg_toNat_ne {r q : Reg} (h : q ≠ r) : r.toNat ≠ q.toNat :=
  fun e => h (BitVec.eq_of_toNat_eq e.symm)

theorem elem_setReg_of_ne (s : State) {r q : Reg} (e : Option Elem) (h : q ≠ r) :
    (setReg s r e).elem q = s.elem q := by
  unfold State.elem
  simp only [setReg_params, setReg_regs, Vector.getElem_set_ne _ _ (reg_toNat_ne h)]

/-- A register write reads back; in `FIXED(M)` mode with the field state of `M`. -/
theorem elem_setReg_self (s : State) (r : Reg) (e : Option Elem) :
    (setReg s r e).elem r =
      match s.params.fieldMode with
      | .runtime => e
      | .fixed m => e.map fun e => mkElem s.params e.val m := by
  cases hm : s.params.fieldMode <;> simp [State.elem, hm]

/-- `E[r] <- (v, m)` reads back as the element of value `v` in the field of `m`, which is
`M` in `FIXED(M)` mode, and leaves every other register alone. -/
theorem elem_writeElem (s : State) (r q : Reg) (v m : Word) :
    (writeElem s r v m).elem q =
      if q = r then some (mkElem s.params v (modulusOperand s.params m)) else s.elem q := by
  by_cases h : q = r
  · subst h
    rw [if_pos rfl, writeElem, elem_setReg_self, modulusOperand]
    cases s.params.fieldMode <;> rfl
  · rw [if_neg h, writeElem, elem_setReg_of_ne _ _ h]

/-- `E[r].val <- v` reads back with the value replaced and the field state kept, and
leaves every other register alone. -/
theorem elem_writeVal (s : State) (r q : Reg) (v : Word) :
    (writeVal s r v).elem q =
      if q = r then (s.elem r).map (fun e => { e with val := v }) else s.elem q := by
  by_cases h : q = r
  · subst h
    rw [if_pos rfl, writeVal, elem_setReg_self]
    unfold State.elem
    cases s.params.fieldMode with
    | runtime => rfl
    | fixed m => cases s.regs[q.toNat]'q.isLt <;> rfl
  · rw [if_neg h, writeVal, elem_setReg_of_ne _ _ h]

theorem elem_resetOf (p : Params) (q : Reg) : (State.resetOf p).elem q = none := by
  unfold State.elem State.resetOf
  cases p.fieldMode <;> simp

@[simp] theorem elem_takeReset (s : State) (q : Reg) : (takeReset s).elem q = none :=
  elem_resetOf s.params q

end Sys2Proof.Machine
end

