-- ==== Sys2Proof/Laws/Ops.lean ====
section
/-! SUPPORT. One lemma per shared operation that says everything it can do: the checks of
the execution template, the operand forms, the end of a command, the next input. -/

namespace Sys2Proof.Machine

/-! ## Ending a command -/

/-- A decoded command always answers: with the rest of the template when it is legal on the
instance, with `IllegalCommand` when it is not (`30_encoding.md` R50 step 1). -/
theorem command_next {i : Instr} {s rest t : State} (h : command i s rest = .next t) :
    (i.wellFormed s.params = true ∧ t = rest) ∨
    (i.wellFormed s.params = false ∧ t = raise s .illegalCommand) := by
  simp only [command, legal] at h
  cases hw : i.wellFormed s.params <;> simp_all

theorem command_legal {i : Instr} {s : State} (rest : State)
    (h : i.wellFormed s.params = true) : command i s rest = .next rest := by
  simp [command, legal, h]

theorem command_illegal {i : Instr} {s : State} (rest : State)
    (h : i.wellFormed s.params = false) :
    command i s rest = .next (raise s .illegalCommand) := by
  simp [command, legal, h]

@[simp] theorem finish_ok (s t : State) (v : Word) : finish s (.ok (t, v)) = done t v := rfl
@[simp] theorem finish_error (s : State) (k : Failure) : finish s (.error k) = raise s k := rfl

/-- A command ends with a failure or with a new state and a result. -/
theorem finish_cases (s : State) (r : Except Failure (State × Word)) :
    (∃ k, r = .error k ∧ finish s r = raise s k) ∨
    (∃ t v, r = .ok (t, v) ∧ finish s r = done t v) := by
  cases r with
  | error k => exact .inl ⟨k, rfl, rfl⟩
  | ok p => exact .inr ⟨p.1, p.2, rfl, rfl⟩

/-! ## The checks -/

theorem needReg_of_some {s : State} {r : Reg} {e : Elem} (h : s.elem r = some e) :
    needReg s r = .ok e := by
  simp [needReg, h]

theorem needReg_of_none {s : State} {r : Reg} (h : s.elem r = none) :
    needReg s r = .error .emptyRegister := by
  simp [needReg, h]

theorem needReg_cases (s : State) (r : Reg) :
    (∃ e, s.elem r = some e ∧ needReg s r = .ok e) ∨
    (s.elem r = none ∧ needReg s r = .error .emptyRegister) := by
  cases h : s.elem r with
  | none => exact .inr ⟨rfl, needReg_of_none h⟩
  | some e => exact .inl ⟨e, rfl, needReg_of_some h⟩

theorem needModulus_of_ge {p : Params} {imm1 : Word} (h : 2 ≤ (modulusOperand p imm1).toNat) :
    needModulus p imm1 = .ok (modulusOperand p imm1) := by
  rw [needModulus, if_neg (by omega)]

theorem needModulus_of_lt {p : Params} {imm1 : Word} (h : (modulusOperand p imm1).toNat < 2) :
    needModulus p imm1 = .error .malformedModulus := by
  rw [needModulus, if_pos h]

/-- What a modulus that `LTBUILD` accepts for building satisfies (`42_log_table.md` R101). -/
theorem needLogDegree_ok {p : Params} {imm1 m : Word} (h : needLogDegree p imm1 = .ok m) :
    m = modulusOperand p imm1 ∧ 2 ≤ m.toNat ∧ 2 ≤ modulusDegree p.bits m ∧
    modulusDegree p.bits m ≤ p.logDegMax := by
  by_cases hm : (modulusOperand p imm1).toNat < 2
  · simp [needLogDegree, needModulus_of_lt hm, bind, Except.bind] at h
  · simp only [needLogDegree, needModulus_of_ge (Nat.not_lt.mp hm), bind, Except.bind] at h
    split at h
    · cases h
    · cases h
      exact ⟨rfl, by omega, by omega, by omega⟩

theorem needNonzero_of_ne {e : Elem} (h : e.val ≠ 0) : needNonzero e = .ok () := by
  rw [needNonzero, if_neg h]

theorem needNonzero_of_eq {e : Elem} (h : e.val = 0) :
    needNonzero e = .error .divisionByZero := by
  rw [needNonzero, if_pos h]

theorem needLt_of_tag {s : State} {e : Elem} {b : LogBank} (h : s.lt = some b)
    (hm : b.mod = e.mod) : needLt s e = .ok b := by
  simp [needLt, h, hm]

theorem needLt_of_mismatch {s : State} {e : Elem} (h : ∀ b, s.lt = some b → b.mod ≠ e.mod) :
    needLt s e = .error .tableMismatch := by
  unfold needLt
  cases hl : s.lt with
  | none => rfl
  | some b => exact if_neg (h b hl)

theorem needFtm_of_tag {s : State} {m : Word} {f : FullBank} (h : s.ft = some f)
    (hm : f.mod = m) : needFtm s m = .ok f := by
  simp [needFtm, h, hm]

theorem needFtm_of_mismatch {s : State} {m : Word} (h : ∀ f, s.ft = some f → f.mod ≠ m) :
    needFtm s m = .error .tableMismatch := by
  unfold needFtm
  cases hl : s.ft with
  | none => rfl
  | some f => exact if_neg (h f hl)

theorem needFtd_of_tag {s : State} {m : Word} {f : FullBank} {t : Table} (h : s.ft = some f)
    (hm : f.mod = m) (hd : f.divTable = some t) : needFtd s m = .ok t := by
  simp [needFtd, h, hm, hd]

theorem needFtd_of_mismatch {s : State} {m : Word}
    (h : ∀ f, s.ft = some f → f.mod ≠ m ∨ f.divTable = none) :
    needFtd s m = .error .tableMismatch := by
  unfold needFtd
  cases hl : s.ft with
  | none => rfl
  | some f =>
    rcases h f hl with hm | hd
    · exact if_neg hm
    · simp [hd]

/-! ## The operand forms -/

/-- The single source is ready or it fails, as the template says (R50 steps 2, 4). -/
theorem oneSource_cases (s : State) (ra : Reg) :
    (∃ a, Ready1 s ra a ∧ oneSource s ra = .ok a) ∨
    (∃ k, Fails1 s ra k ∧ oneSource s ra = .error k) := by
  unfold oneSource
  rcases needReg_cases s ra with ⟨a, ha, h⟩ | ⟨ha, h⟩
  · cases hr : a.reduced
    · exact .inr ⟨.unreducedOperand, .inr ⟨a, ha, hr, rfl⟩, by simp [h, bind, Except.bind, needRed, hr]⟩
    · exact .inl ⟨a, ⟨ha, hr⟩, by simp [h, bind, Except.bind, pure, Except.pure, needRed, hr]⟩
  · exact .inr ⟨.emptyRegister, .inl ⟨ha, rfl⟩, by simp [h, bind, Except.bind]⟩

theorem oneSource_ready {s : State} {ra : Reg} {a : Elem} (h : Ready1 s ra a) :
    oneSource s ra = .ok a := by
  simp [oneSource, needReg_of_some h.1, bind, Except.bind, pure, Except.pure, needRed, h.2]

theorem oneSource_fails {s : State} {ra : Reg} {k : Failure} (h : Fails1 s ra k) :
    oneSource s ra = .error k := by
  rcases h with ⟨ha, rfl⟩ | ⟨a, ha, hr, rfl⟩
  · simp [oneSource, needReg_of_none ha, bind, Except.bind]
  · simp [oneSource, needReg_of_some ha, bind, Except.bind, needRed, hr]

theorem twoSources_ready {s : State} {ra rb : Reg} {a b : Elem} (h : Ready2 s ra rb a b) :
    twoSources s ra rb = .ok (a, b) := by
  obtain ⟨ha, hb, hm, hra, hrb⟩ := h
  simp [twoSources, needReg_of_some ha, needReg_of_some hb, bind, Except.bind, pure,
    Except.pure, needSame, needRed, hm, hra, hrb]

theorem twoSources_fails {s : State} {ra rb : Reg} {k : Failure} (h : Fails2 s ra rb k) :
    twoSources s ra rb = .error k := by
  rcases h with ⟨ha | hb, rfl⟩ | ⟨a, b, ha, hb, hm, rfl⟩ | ⟨a, b, ha, hb, hm, hr, rfl⟩
  · simp [twoSources, needReg_of_none ha, bind, Except.bind]
  · rcases needReg_cases s ra with ⟨a, -, h⟩ | ⟨-, h⟩ <;>
      simp [twoSources, h, needReg_of_none hb, bind, Except.bind]
  · simp [twoSources, needReg_of_some ha, needReg_of_some hb, bind, Except.bind, needSame, hm]
  · cases hra : a.reduced
    · simp [twoSources, needReg_of_some ha, needReg_of_some hb, bind, Except.bind, needSame,
        needRed, hm, hra]
    · have hrb : b.reduced = false := by simpa [hra] using hr
      simp [twoSources, needReg_of_some ha, needReg_of_some hb, bind, Except.bind, needSame,
        needRed, hm, hra, hrb]

/-- The two sources are ready or they fail, as the template says (R50 steps 2, 3, 4). -/
theorem twoSources_cases (s : State) (ra rb : Reg) :
    (∃ a b, Ready2 s ra rb a b ∧ twoSources s ra rb = .ok (a, b)) ∨
    (∃ k, Fails2 s ra rb k ∧ twoSources s ra rb = .error k) := by
  have fails {k} (h : Fails2 s ra rb k) :
      ∃ k, Fails2 s ra rb k ∧ twoSources s ra rb = .error k := ⟨k, h, twoSources_fails h⟩
  cases ha : s.elem ra with
  | none => exact .inr (fails (.inl ⟨.inl ha, rfl⟩))
  | some a =>
    cases hb : s.elem rb with
    | none => exact .inr (fails (.inl ⟨.inr hb, rfl⟩))
    | some b =>
      by_cases hm : a.mod = b.mod
      · by_cases hr : a.reduced = true ∧ b.reduced = true
        · exact .inl ⟨a, b, ⟨ha, hb, hm, hr⟩, twoSources_ready ⟨ha, hb, hm, hr⟩⟩
        · refine .inr (fails (.inr (.inr ⟨a, b, ha, hb, hm, ?_, rfl⟩)))
          cases hra : a.reduced <;> cases hrb : b.reduced <;> simp_all
      · exact .inr (fails (.inr (.inl ⟨a, b, ha, hb, hm, rfl⟩)))

/-- The modulus operand is `IMM1` in `RUNTIME` mode and `M` in `FIXED(M)` mode (R15). -/
theorem modulusOperand_runtime {p : Params} (imm1 : Word) (h : p.fieldMode = .runtime) :
    modulusOperand p imm1 = imm1 := by
  simp [modulusOperand, h]

theorem modulusOperand_fixed {p : Params} {m : Word} (imm1 : Word)
    (h : p.fieldMode = .fixed m) : modulusOperand p imm1 = m := by
  simp [modulusOperand, h]

/-! ## Tables -/

theorem readEntry_of_some {which : TableId} {t : Table} {k : Nat} {v : Word}
    (h : t[k]? = some (some v)) : readEntry which t k = v := by
  simp [readEntry, h]

/-! ## The next input -/

theorem nextInput_some {s : State} {x : HostInput} (h : nextInput s = some x) :
    s.pos < s.inputs.length :=
  (List.getElem?_eq_some_iff.mp h).1

theorem nextInput_presentOnly (s : State) (c : Command) :
    nextInput (presentOnly s c) = some (.command c) := rfl

end Sys2Proof.Machine
end

