-- ==== Sys2Proof/Laws/Exec.lean ====
section
/-! SUPPORT. What an instruction can do, said once for all 34: the shapes of the state in
which `exec` leaves the machine. The frames and the invariants go through it. -/

namespace Sys2Proof.Machine

/-- The shapes of a state in which `exec i s` can end. -/
inductive Ends (i : Instr) (s : State) : State → Prop
  /-- the command fails and writes nothing but its flag (`60_exceptions.md` R150) -/
  | fails (k : Failure) : Ends i s (raise s k)
  /-- `LTBUILD`, legal and of a modulus that fits, fails on the generator: the bank is invalid
  (`42_log_table.md` R101) -/
  | buildFails (imm1 m : Word) (hi : i = .ltbuild imm1) (hw : i.wellFormed s.params = true)
      (hm : needLogDegree s.params imm1 = .ok m)
      (hb : buildLogTable s.params.bits m = none) :
      Ends i s (raise (setLt s none) .tableBuildFail)
  /-- the command only answers -/
  | answers (v : Word) (hi : i ≠ .clrstat) : Ends i s (done s v)
  /-- the command writes its destination register -/
  | writesReg (rd : Reg) (e : Elem) (v : Word) (hd : i.dest = some rd) (hi : i ≠ .clrstat) :
      Ends i s (done (setReg s rd (some e)) v)
  /-- the command writes the bank `LT` -/
  | setsLt (b : Option LogBank) (hw : i.writesLt = true) (hi : i ≠ .clrstat) :
      Ends i s (done (setLt s b) 0)
  /-- the command writes the bank `FT`; `FTBUILDD` leaves the products -/
  | setsFt (b : Option FullBank) (hw : i.writesFt = true) (hi : i ≠ .clrstat)
      (hd : ∀ m, i = .ftbuildd m →
        b.map (fun f => (f.mod, f.mulTable)) = s.ft.map fun f => (f.mod, f.mulTable)) :
      Ends i s (done (setFt s b) 0)
  /-- `CLRSTAT` (`44_system.md` R136) -/
  | clears (hi : i = .clrstat) : Ends i s (done (setStatus s 0) 0)

theorem ends_finish {i : Instr} {s : State} {r : Except Failure (State × Word)}
    (h : ∀ t v, r = .ok (t, v) → Ends i s (done t v)) : Ends i s (finish s r) := by
  cases r with
  | error k => exact .fails k
  | ok p => exact h p.1 p.2 rfl

/-- A command ends as the rest of the template does when it is legal, or fails. -/
theorem ends_legal {i : Instr} {s rest t : State} (h : command i s rest = .next t)
    (hr : i.wellFormed s.params = true → Ends i s rest) : Ends i s t := by
  rcases command_next h with ⟨hw, rfl⟩ | ⟨-, rfl⟩
  · exact hr hw
  · exact .fails _

theorem ends_command {i : Instr} {s rest t : State} (h : command i s rest = .next t)
    (hr : Ends i s rest) : Ends i s t := ends_legal h fun _ => hr

theorem needReg_ok {s : State} {r : Reg} {e : Elem} (h : needReg s r = .ok e) :
    s.elem r = some e := by
  unfold needReg at h
  split at h <;> cases h
  assumption

theorem needFtm_ok {s : State} {m : Word} {f : FullBank} (h : needFtm s m = .ok f) :
    s.ft = some f ∧ f.mod = m := by
  unfold needFtm at h
  split at h
  · split at h <;> cases h
    exact ⟨‹_›, ‹_›⟩
  · cases h

theorem writeVal_of_some {s : State} {r : Reg} {e : Elem} (v : Word) (h : s.elem r = some e) :
    writeVal s r v = setReg s r (some { e with val := v }) := by
  simp [writeVal, h]

/-- The end of a template that computes a value from the checks, then answers with it or
writes it to the destination. -/
theorem ends_bind {α : Type} {i : Instr} {s : State} {c : Except Failure α}
    {k : α → Except Failure (State × Word)}
    (h : ∀ a, c = .ok a → Ends i s (finish s (k a))) : Ends i s (finish s (c >>= k)) := by
  cases c with
  | error e => exact .fails e
  | ok a => exact h a rfl

theorem ends_toDest {i : Instr} {s : State} {rd : Reg} {r m : Word} (hd : i.dest = some rd)
    (hi : i ≠ .clrstat) : Ends i s (finish s (pure (toDest s rd r m))) :=
  .writesReg rd _ r hd hi

/-- Every instruction ends in one of the shapes of `Ends`. -/
theorem exec_ends {i : Instr} {s t : State} (h : exec i s = .next t) : Ends i s t := by
  cases i with
  | load rd nr v m =>
    exact ends_command h (ends_bind fun _ _ => ends_toDest rfl nofun)
  | setval rd v =>
    refine ends_command h (ends_bind fun e he => ?_)
    rw [writeVal_of_some v (needReg_ok he)]
    exact .writesReg rd _ v rfl nofun
  | red rd =>
    refine ends_command h (ends_bind fun e he => ?_)
    simp only [writeVal_of_some _ (needReg_ok he)]
    exact .writesReg rd _ _ rfl nofun
  | getval | getmod | getdeg | getord | poldeg =>
    exact ends_command h (ends_bind fun _ _ => .answers _ nofun)
  | mdeg | getstat => exact ends_command h (.answers _ nofun)
  | clrstat => exact ends_command h (.clears rfl)
  | add | mul => exact ends_command h (ends_bind fun _ _ => ends_toDest rfl nofun)
  | div | inv =>
    exact ends_command h (ends_bind fun _ _ => ends_bind fun _ _ => ends_toDest rfl nofun)
  | pow => exact ends_command h (ends_bind fun _ _ => ends_toDest rfl nofun)
  | cmpeq | cmpne | cmplt | cmple | cmpgt | cmpge =>
    exact ends_command h (ends_bind fun _ _ => .answers _ nofun)
  | ltbuild m =>
    refine ends_legal h fun hw => ?_
    split
    · exact .fails _
    · unfold buildLt
      split
      · exact .setsLt _ rfl nofun
      · exact .buildFails m _ rfl hw ‹_› ‹_›
  | ltinv => exact ends_command h (.setsLt _ rfl nofun)
  | lmul | lpow | fmul =>
    exact ends_command h (ends_bind fun _ _ => ends_bind fun _ _ => ends_toDest rfl nofun)
  | ldiv | fdiv =>
    exact ends_command h (ends_bind fun _ _ => ends_bind fun _ _ => ends_bind fun _ _ =>
      ends_toDest rfl nofun)
  | ltrdi | ltrdp =>
    refine ends_command h (ends_bind fun _ _ => ?_)
    split
    · exact .fails _
    · exact .answers _ nofun
  | ftbuildm m =>
    refine ends_command h (ends_bind fun _ _ => ?_)
    split
    · exact .fails _
    · exact .setsFt _ rfl nofun nofun
  | ftbuildd m =>
    refine ends_command h (ends_bind fun _ _ => ends_bind fun f hf => ?_)
    exact .setsFt _ rfl nofun fun _ _ => by simp [(needFtm_ok hf).1]
  | ftinv => exact ends_command h (.setsFt _ rfl nofun nofun)

end Sys2Proof.Machine
end

