-- ==== Sys2Proof/Laws/PerInstr.lean ====
section
/-! SUPPORT. What holds of every instruction as syntax: the command that spells it matches
the row of its opcode and leaves the immediates the row does not use at zero
(`30_encoding.md` R41 to R43). -/

namespace Sys2Proof.Laws.Encoding

/-- The command that spells `i` matches the row of its opcode. -/
def Statement (i : Instr) : Prop :=
  ∃ r, opcodeRows.find? (fun r => r.opcode == (encode i).opcode) = some r ∧
    (encode i).cw &&& r.mask = r.pattern ∧
    (r.usesImm0 = true ∨ (encode i).imm0 = 0) ∧ (r.usesImm1 = true ∨ (encode i).imm1 = 0)

/-- A command word under a mask, checked bit by bit. -/
theorem masked {op : BitVec 8} {rd ra rb : Reg} {nr : Bool} {imm8 : BitVec 8}
    {mask pattern : BitVec 32}
    (h : ∀ k, k < 32 →
      ((if k < 8 then imm8.getLsbD k else if k < 9 then nr else if k < 12 then false
        else if k < 16 then rb.getLsbD (k - 12) else if k < 20 then ra.getLsbD (k - 16)
        else if k < 24 then rd.getLsbD (k - 20) else op.getLsbD (k - 24)) && mask.getLsbD k) =
      pattern.getLsbD k) :
    commandWord op rd ra rb nr imm8 &&& mask = pattern := by
  rw [masked_eq_iff]
  intro k hk
  rw [commandWord_getLsbD _ _ _ _ _ _ _ hk]
  exact h k hk

theorem load (rd : Reg) (nr : Bool) (value modulus : Word) :
    Statement (.load rd nr value modulus) :=
  ⟨_, by simp only [encode, commandWord_opcode]; rfl,
    masked fun k hk => by interval_cases k <;> simp, by simp [encode], by simp [encode]⟩

theorem setval (rd : Reg) (value : Word) : Statement (.setval rd value) :=
  ⟨_, by simp only [encode, commandWord_opcode]; rfl,
    masked fun k hk => by interval_cases k <;> simp, by simp [encode], by simp [encode]⟩

theorem red (rd : Reg) : Statement (.red rd) :=
  ⟨_, by simp only [encode, commandWord_opcode]; rfl,
    masked fun k hk => by interval_cases k <;> simp, by simp [encode], by simp [encode]⟩

theorem getval (ra : Reg) : Statement (.getval ra) :=
  ⟨_, by simp only [encode, commandWord_opcode]; rfl,
    masked fun k hk => by interval_cases k <;> simp, by simp [encode], by simp [encode]⟩

theorem getmod (ra : Reg) : Statement (.getmod ra) :=
  ⟨_, by simp only [encode, commandWord_opcode]; rfl,
    masked fun k hk => by interval_cases k <;> simp, by simp [encode], by simp [encode]⟩

theorem getdeg (ra : Reg) : Statement (.getdeg ra) :=
  ⟨_, by simp only [encode, commandWord_opcode]; rfl,
    masked fun k hk => by interval_cases k <;> simp, by simp [encode], by simp [encode]⟩

theorem getord (ra : Reg) : Statement (.getord ra) :=
  ⟨_, by simp only [encode, commandWord_opcode]; rfl,
    masked fun k hk => by interval_cases k <;> simp, by simp [encode], by simp [encode]⟩

theorem poldeg (ra : Reg) (startPos : BitVec 8) : Statement (.poldeg ra startPos) :=
  ⟨_, by simp only [encode, commandWord_opcode]; rfl,
    masked fun k hk => by interval_cases k <;> simp, by simp [encode], by simp [encode]⟩

theorem mdeg (modulus : Word) : Statement (.mdeg modulus) :=
  ⟨_, by simp only [encode, commandWord_opcode]; rfl,
    masked fun k hk => by interval_cases k <;> simp, by simp [encode], by simp [encode]⟩

theorem getstat : Statement .getstat :=
  ⟨_, by simp only [encode, commandWord_opcode]; rfl,
    masked fun k hk => by interval_cases k <;> simp, by simp [encode], by simp [encode]⟩

theorem clrstat : Statement .clrstat :=
  ⟨_, by simp only [encode, commandWord_opcode]; rfl,
    masked fun k hk => by interval_cases k <;> simp, by simp [encode], by simp [encode]⟩

theorem add (rd ra rb : Reg) : Statement (.add rd ra rb) :=
  ⟨_, by simp only [encode, commandWord_opcode]; rfl,
    masked fun k hk => by interval_cases k <;> simp, by simp [encode], by simp [encode]⟩

theorem mul (rd ra rb : Reg) : Statement (.mul rd ra rb) :=
  ⟨_, by simp only [encode, commandWord_opcode]; rfl,
    masked fun k hk => by interval_cases k <;> simp, by simp [encode], by simp [encode]⟩

theorem div (rd ra rb : Reg) : Statement (.div rd ra rb) :=
  ⟨_, by simp only [encode, commandWord_opcode]; rfl,
    masked fun k hk => by interval_cases k <;> simp, by simp [encode], by simp [encode]⟩

theorem inv (rd ra : Reg) : Statement (.inv rd ra) :=
  ⟨_, by simp only [encode, commandWord_opcode]; rfl,
    masked fun k hk => by interval_cases k <;> simp, by simp [encode], by simp [encode]⟩

theorem pow (rd ra : Reg) (n : Word) : Statement (.pow rd ra n) :=
  ⟨_, by simp only [encode, commandWord_opcode]; rfl,
    masked fun k hk => by interval_cases k <;> simp, by simp [encode], by simp [encode]⟩

theorem cmpeq (ra rb : Reg) : Statement (.cmpeq ra rb) :=
  ⟨_, by simp only [encode, commandWord_opcode]; rfl,
    masked fun k hk => by interval_cases k <;> simp, by simp [encode], by simp [encode]⟩

theorem cmpne (ra rb : Reg) : Statement (.cmpne ra rb) :=
  ⟨_, by simp only [encode, commandWord_opcode]; rfl,
    masked fun k hk => by interval_cases k <;> simp, by simp [encode], by simp [encode]⟩

theorem cmplt (ra rb : Reg) : Statement (.cmplt ra rb) :=
  ⟨_, by simp only [encode, commandWord_opcode]; rfl,
    masked fun k hk => by interval_cases k <;> simp, by simp [encode], by simp [encode]⟩

theorem cmple (ra rb : Reg) : Statement (.cmple ra rb) :=
  ⟨_, by simp only [encode, commandWord_opcode]; rfl,
    masked fun k hk => by interval_cases k <;> simp, by simp [encode], by simp [encode]⟩

theorem cmpgt (ra rb : Reg) : Statement (.cmpgt ra rb) :=
  ⟨_, by simp only [encode, commandWord_opcode]; rfl,
    masked fun k hk => by interval_cases k <;> simp, by simp [encode], by simp [encode]⟩

theorem cmpge (ra rb : Reg) : Statement (.cmpge ra rb) :=
  ⟨_, by simp only [encode, commandWord_opcode]; rfl,
    masked fun k hk => by interval_cases k <;> simp, by simp [encode], by simp [encode]⟩

theorem ltbuild (modulus : Word) : Statement (.ltbuild modulus) :=
  ⟨_, by simp only [encode, commandWord_opcode]; rfl,
    masked fun k hk => by interval_cases k <;> simp, by simp [encode], by simp [encode]⟩

theorem ltinv : Statement .ltinv :=
  ⟨_, by simp only [encode, commandWord_opcode]; rfl,
    masked fun k hk => by interval_cases k <;> simp, by simp [encode], by simp [encode]⟩

theorem lmul (rd ra rb : Reg) : Statement (.lmul rd ra rb) :=
  ⟨_, by simp only [encode, commandWord_opcode]; rfl,
    masked fun k hk => by interval_cases k <;> simp, by simp [encode], by simp [encode]⟩

theorem ldiv (rd ra rb : Reg) : Statement (.ldiv rd ra rb) :=
  ⟨_, by simp only [encode, commandWord_opcode]; rfl,
    masked fun k hk => by interval_cases k <;> simp, by simp [encode], by simp [encode]⟩

theorem lpow (rd ra : Reg) (n : Word) : Statement (.lpow rd ra n) :=
  ⟨_, by simp only [encode, commandWord_opcode]; rfl,
    masked fun k hk => by interval_cases k <;> simp, by simp [encode], by simp [encode]⟩

theorem ltrdi (index : Word) : Statement (.ltrdi index) :=
  ⟨_, by simp only [encode, commandWord_opcode]; rfl,
    masked fun k hk => by interval_cases k <;> simp, by simp [encode], by simp [encode]⟩

theorem ltrdp (v : Word) : Statement (.ltrdp v) :=
  ⟨_, by simp only [encode, commandWord_opcode]; rfl,
    masked fun k hk => by interval_cases k <;> simp, by simp [encode], by simp [encode]⟩

theorem ftbuildm (modulus : Word) : Statement (.ftbuildm modulus) :=
  ⟨_, by simp only [encode, commandWord_opcode]; rfl,
    masked fun k hk => by interval_cases k <;> simp, by simp [encode], by simp [encode]⟩

theorem ftbuildd (modulus : Word) : Statement (.ftbuildd modulus) :=
  ⟨_, by simp only [encode, commandWord_opcode]; rfl,
    masked fun k hk => by interval_cases k <;> simp, by simp [encode], by simp [encode]⟩

theorem ftinv : Statement .ftinv :=
  ⟨_, by simp only [encode, commandWord_opcode]; rfl,
    masked fun k hk => by interval_cases k <;> simp, by simp [encode], by simp [encode]⟩

theorem fmul (rd ra rb : Reg) : Statement (.fmul rd ra rb) :=
  ⟨_, by simp only [encode, commandWord_opcode]; rfl,
    masked fun k hk => by interval_cases k <;> simp, by simp [encode], by simp [encode]⟩

theorem fdiv (rd ra rb : Reg) : Statement (.fdiv rd ra rb) :=
  ⟨_, by simp only [encode, commandWord_opcode]; rfl,
    masked fun k hk => by interval_cases k <;> simp, by simp [encode], by simp [encode]⟩

end Sys2Proof.Laws.Encoding
end

