-- ==== Sys2Proof/Laws/Tables.lean ====
section
/-! SUPPORT. The table builders: their lengths, their entries by index, and that every
operation on a bank keeps the canonical form `Memory.wf`. -/

namespace Sys2Proof.Machine

/-! ## The log-table builder (`42_log_table.md` R100) -/

theorem logPass_length (w : Nat) (m : Word) (i : Nat) (b : LogBuild) :
    (logPass w m i b).indToPol.length = b.indToPol.length ∧
    (logPass w m i b).polToInd.length = b.polToInd.length := by
  simp [logPass]

theorem logPasses_length (w : Nat) (m : Word) (n i : Nat) (b : LogBuild) :
    (logPasses w m n i b).indToPol.length = b.indToPol.length ∧
    (logPasses w m n i b).polToInd.length = b.polToInd.length := by
  induction n generalizing i b with
  | zero => exact ⟨rfl, rfl⟩
  | succ n ih =>
    obtain ⟨h1, h2⟩ := ih (i + 1) (logPass w m i b)
    obtain ⟨g1, g2⟩ := logPass_length w m i b
    exact ⟨h1.trans g1, h2.trans g2⟩

/-- What a successful build gives, in terms of its passes. -/
theorem buildLogTable_some {w : Nat} {m : Word} {b : LogBank}
    (h : buildLogTable w m = some b) :
    (logPasses w m (modulusOrder w m - 1) 0 (logStart (modulusOrder w m))).ok = true ∧
    (logPasses w m (modulusOrder w m - 1) 0 (logStart (modulusOrder w m))).cur = 1 ∧
    b.mod = m ∧
    b.indToPol = (logPasses w m (modulusOrder w m - 1) 0 (logStart (modulusOrder w m))).indToPol ++
      (logPasses w m (modulusOrder w m - 1) 0 (logStart (modulusOrder w m))).indToPol ∧
    b.polToInd = (logPasses w m (modulusOrder w m - 1) 0 (logStart (modulusOrder w m))).polToInd := by
  simp only [buildLogTable] at h
  split at h
  case isTrue hc => cases h; exact ⟨hc.1, hc.2, rfl, rfl, rfl⟩
  case isFalse => cases h

theorem buildLogTable_length {w : Nat} {m : Word} {b : LogBank}
    (h : buildLogTable w m = some b) :
    b.mod = m ∧ b.indToPol.length = 2 * (modulusOrder w m - 1) ∧ b.polToInd.length = modulusOrder w m := by
  obtain ⟨-, -, hm, hi, hp⟩ := buildLogTable_some h
  obtain ⟨g1, g2⟩ := logPasses_length w m (modulusOrder w m - 1) 0 (logStart (modulusOrder w m))
  refine ⟨hm, ?_, ?_⟩
  · rw [hi, List.length_append, g1, logStart, List.length_replicate]; omega
  · rw [hp, g2, logStart, List.length_replicate]

/-! ## The full-table builders (`43_full_table.md` R121, R122) -/

theorem buildMulTable_getElem? (w : Nat) (m : Word) {k : Nat}
    (h : k < modulusOrder w m * modulusOrder w m) :
    (buildMulTable w m)[k]? = some (some (mulReduce w
      (BitVec.ofNat 64 (min (k / modulusOrder w m) (k % modulusOrder w m)))
      (BitVec.ofNat 64 (max (k / modulusOrder w m) (k % modulusOrder w m))) m)) := by
  simp [buildMulTable, List.getElem?_range h]

theorem buildDivTable_getElem? (w : Nat) (m : Word) {k : Nat}
    (h : k < modulusOrder w m * modulusOrder w m) :
    (buildDivTable w m)[k]? = some (if k % modulusOrder w m = 0 then none
      else some (divide w (BitVec.ofNat 64 (k / modulusOrder w m))
        (BitVec.ofNat 64 (k % modulusOrder w m)) m)) := by
  simp [buildDivTable, List.getElem?_range h]

theorem buildMulTable_length (w : Nat) (m : Word) :
    (buildMulTable w m).length = modulusOrder w m * modulusOrder w m := by
  simp [buildMulTable]

theorem buildDivTable_length (w : Nat) (m : Word) :
    (buildDivTable w m).length = modulusOrder w m * modulusOrder w m := by
  simp [buildDivTable]

/-- The flat index of a pair splits back into the pair. -/
theorem pair_index {order a b : Nat} (ha : a < order) (hb : b < order) :
    a * order + b < order * order ∧ (a * order + b) / order = a ∧
    (a * order + b) % order = b := by
  refine ⟨?_, ?_, ?_⟩
  · calc a * order + b < a * order + order := by omega
      _ = (a + 1) * order := by ring
      _ ≤ order * order := Nat.mul_le_mul_right _ ha
  · rw [Nat.mul_comm, Nat.mul_add_div (by omega), Nat.div_eq_of_lt hb, Nat.add_zero]
  · rw [Nat.mul_comm, Nat.mul_add_mod, Nat.mod_eq_of_lt hb]

theorem buildMulTable_isSome (w : Nat) (m : Word) :
    (buildMulTable w m).map Option.isSome =
      (List.range (modulusOrder w m * modulusOrder w m)).map (fun _ => true) := by
  simp [buildMulTable, Function.comp_def]

theorem buildDivTable_isSome (w : Nat) (m : Word) :
    (buildDivTable w m).map Option.isSome =
      (List.range (modulusOrder w m * modulusOrder w m)).map (fun k => k % modulusOrder w m != 0) := by
  simp only [buildDivTable, List.map_map]
  apply List.map_congr_left
  intro k _
  by_cases hk : k % modulusOrder w m = 0 <;> simp [hk]

/-! ## The canonical form of the arrays -/

theorem memory_wf_resetOf (p : Params) : Memory.wf (State.resetOf p) = true := rfl

theorem memory_wf_reset : Memory.wf State.reset = true := rfl

/-- An operation that leaves the parameters and both banks alone keeps the form. -/
theorem memory_wf_congr {s t : State} (hp : t.params = s.params) (hl : t.lt = s.lt)
    (hf : t.ft = s.ft) : Memory.wf t = Memory.wf s := by
  simp only [Memory.wf, hp, hl, hf]

theorem memory_wf_setLt_none {s : State} (h : Memory.wf s = true) :
    Memory.wf (setLt s none) = true := by
  simp only [Memory.wf, Bool.and_eq_true] at h ⊢
  exact ⟨rfl, h.2⟩

theorem memory_wf_setLt_build {s : State} {m : Word} {b : LogBank} (h : Memory.wf s = true)
    (hb : buildLogTable s.params.bits m = some b) :
    Memory.wf (setLt s (some b)) = true := by
  obtain ⟨hm, hi, hp⟩ := buildLogTable_length hb
  simp only [Memory.wf, Bool.and_eq_true] at h ⊢
  refine ⟨?_, h.2⟩
  simp [hm, hi, hp]

theorem memory_wf_setFt_none {s : State} (h : Memory.wf s = true) :
    Memory.wf (setFt s none) = true := by
  simp only [Memory.wf, Bool.and_eq_true] at h ⊢
  exact ⟨h.1, rfl⟩

theorem memory_wf_setFt_buildMul {s : State} (m : Word) (h : Memory.wf s = true) :
    Memory.wf (setFt s (some
      { mod := m, mulTable := buildMulTable s.params.bits m, divTable := none })) = true := by
  simp only [Memory.wf, Bool.and_eq_true] at h ⊢
  exact ⟨h.1, by simp [buildMulTable_isSome]⟩

theorem memory_wf_setFt_buildDiv {s : State} {f : FullBank} (h : Memory.wf s = true)
    (hf : s.ft = some f) :
    Memory.wf (setFt s (some
      { f with divTable := some (buildDivTable s.params.bits f.mod) })) = true := by
  simp only [Memory.wf, Bool.and_eq_true, hf] at h ⊢
  exact ⟨h.1, by simpa [buildDivTable_isSome] using h.2.1⟩

end Sys2Proof.Machine
end

