-- ==== Sys2Proof/Laws/Poly.lean ====
section
/-! SUPPORT. The pure functions: bounds of the degree, multiplication by `x` as a linear
map on reduced values, and the multiplication loop as a sum over the bits of its second
operand (`40_utilities_reduction.md` R60, `41_direct_polynomial.md` R80). -/

namespace Sys2Proof.Machine

/-! ## Sums of words -/

theorem word_xor_left_comm (a b c : Word) : a ^^^ (b ^^^ c) = b ^^^ (a ^^^ c) := by
  rw [← BitVec.xor_assoc, BitVec.xor_comm a b, BitVec.xor_assoc]

theorem word_xor_cancel (a b : Word) : a ^^^ (a ^^^ b) = b := by
  rw [← BitVec.xor_assoc, BitVec.xor_self, BitVec.zero_xor]

/-! ## The degree (R60) -/

theorem scanDown_lt (m : Word) {n : Nat} (hn : 1 ≤ n) : scanDown m n < n := by
  induction n with
  | zero => omega
  | succ n ih =>
    rw [scanDown]
    split
    · omega
    · rcases Nat.eq_zero_or_pos n with rfl | h
      · simp [scanDown]
      · have := ih h; omega

theorem bits_bounds (w : Width) : 8 ≤ w.bits ∧ w.bits ≤ 64 := by cases w <;> decide

/-- The order of the field of a modulus, written out. -/
theorem modulusOrder_eq (w : Nat) (m : Word) : modulusOrder w m = 2 ^ modulusDegree w m := rfl

theorem modulusDegree_lt (w : Width) (m : Word) : modulusDegree w.bits m < w.bits :=
  scanDown_lt m (by have := bits_bounds w; omega)

/-- A value below `2^n` that is at least 1 lies between the power of two of its scanned
degree and the next. -/
theorem scanDown_bounds (m : Word) {n : Nat} (h : m.toNat < 2 ^ n) (h1 : 1 ≤ m.toNat) :
    2 ^ scanDown m n ≤ m.toNat ∧ m.toNat < 2 ^ (scanDown m n + 1) := by
  induction n with
  | zero => simp at h; omega
  | succ n ih =>
    rw [scanDown]
    split
    case isTrue hb => exact ⟨Nat.ge_two_pow_of_testBit hb, h⟩
    case isFalse hb =>
      apply ih
      exact Nat.lt_pow_two_of_testBit _ fun i hi => by
        rcases Nat.eq_or_lt_of_le hi with rfl | hi
        · exact Bool.eq_false_iff.mpr hb
        · exact Nat.testBit_lt_two_pow (Nat.lt_of_lt_of_le h (Nat.pow_le_pow_right (by omega) hi))

theorem modulusDegree_bounds {w : Nat} {m : Word} (h : m.toNat < 2 ^ w) (h1 : 1 ≤ m.toNat) :
    2 ^ modulusDegree w m ≤ m.toNat ∧ m.toNat < 2 ^ (modulusDegree w m + 1) :=
  scanDown_bounds m h h1

/-- A modulus of at least 2 has degree at least 1. -/
theorem modulusDegree_pos {w : Nat} {m : Word} (h : m.toNat < 2 ^ w) (h2 : 2 ≤ m.toNat) :
    1 ≤ modulusDegree w m := by
  have := (modulusDegree_bounds h (by omega)).2
  by_contra hd
  have : modulusDegree w m = 0 := by omega
  simp_all
  omega

/-- The order fits in a word. -/
theorem modulusOrder_lt (w : Width) (m : Word) : modulusOrder w.bits m < 2 ^ 64 := by
  have h := modulusDegree_lt w m
  have hb := bits_bounds w
  exact Nat.pow_lt_pow_right (by omega) (by omega)

theorem modulusOrder_toNat (w : Width) (m : Word) :
    (BitVec.ofNat 64 (modulusOrder w.bits m)).toNat = modulusOrder w.bits m := by
  rw [BitVec.toNat_ofNat, Nat.mod_eq_of_lt (modulusOrder_lt w m)]

theorem degree_toNat (w : Width) (m : Word) :
    (BitVec.ofNat 6 (modulusDegree w.bits m)).toNat = modulusDegree w.bits m := by
  have h := modulusDegree_lt w m
  have hb := bits_bounds w
  rw [BitVec.toNat_ofNat, Nat.mod_eq_of_lt (by omega)]

/-! ## Multiplication by `x` (R80) -/

/-- Multiplication by `x` is linear. -/
theorem mulX_xor (m : Word) (d : Nat) (a b : Word) :
    mulX m d (a ^^^ b) = mulX m d a ^^^ mulX m d b := by
  simp only [mulX, BitVec.shiftLeft_xor_distrib, BitVec.getLsbD_xor]
  cases (a <<< 1).getLsbD d <;> cases (b <<< 1).getLsbD d
  · rfl
  · simp [BitVec.xor_assoc]
  · simp [BitVec.xor_assoc, BitVec.xor_comm m]
  · simp [BitVec.xor_assoc, word_xor_left_comm m]

@[simp] theorem mulX_zero (m : Word) (d : Nat) : mulX m d 0 = 0 := by
  simp [mulX]

/-- Multiplication by `x` keeps a reduced value reduced: no bit is lost and the fold
clears bit `d`. -/
theorem mulX_below {m a : Word} {d : Nat} (hd : d < 64) (hm : 2 ^ d ≤ m.toNat)
    (hm' : m.toNat < 2 ^ (d + 1)) (ha : a.toNat < 2 ^ d) : (mulX m d a).toNat < 2 ^ d := by
  have h64 : 2 ^ (d + 1) ≤ 2 ^ 64 := Nat.pow_le_pow_right (by omega) (by omega)
  have hs : (a <<< 1).toNat = 2 * a.toNat := by
    rw [BitVec.toNat_shiftLeft, Nat.shiftLeft_eq, Nat.mod_eq_of_lt (by omega)]
    omega
  have hlt : (a <<< 1).toNat < 2 ^ (d + 1) := by omega
  have mbit : m.getLsbD d = true := by
    rw [BitVec.getLsbD, Nat.testBit_eq_decide_div_mod_eq,
      show m.toNat / 2 ^ d = 1 from Nat.div_eq_of_lt_le (by omega) (by omega)]
    rfl
  have below {v : Word} (hv : v.toNat < 2 ^ (d + 1)) (hb : v.getLsbD d = false) :
      v.toNat < 2 ^ d :=
    Nat.lt_pow_two_of_testBit _ fun i hi => by
      rcases Nat.eq_or_lt_of_le hi with rfl | hi
      · exact hb
      · exact Nat.testBit_lt_two_pow (Nat.lt_of_lt_of_le hv (Nat.pow_le_pow_right (by omega) hi))
  unfold mulX
  split
  case isTrue h =>
    apply below
    · rw [BitVec.toNat_xor]
      exact Nat.xor_lt_two_pow hlt hm'
    · rw [BitVec.getLsbD_xor, h, mbit]; rfl
  case isFalse h => exact below hlt (by simpa using h)

/-! ## The multiplication loop (R80) -/

/-- The accumulator of the loop can be taken out. -/
theorem mulLoop_res (m : Word) (d n : Nat) (a b res : Word) :
    mulLoop m d n a b res = res ^^^ mulLoop m d n a b 0 := by
  induction n generalizing a b res with
  | zero => simp [mulLoop]
  | succ n ih =>
    rw [mulLoop, mulLoop]
    by_cases hb : b = 0
    · simp [hb]
    · rw [if_neg hb, if_neg hb, ih, ih (mulX m d a) (b >>> 1) (if b.getLsbD 0 then 0 ^^^ a else 0)]
      split <;> simp [BitVec.xor_assoc]

/-- One pass of the loop: the low bit of `b` selects `a`, the rest multiplies `x * a`. -/
theorem mulLoop_step (m : Word) (d n : Nat) (a b : Word) :
    mulLoop m d (n + 1) a b 0 =
      (if b.getLsbD 0 then a else 0) ^^^ mulLoop m d n (mulX m d a) (b >>> 1) 0 := by
  rw [mulLoop]
  by_cases hb : b = 0
  · subst hb
    cases n <;> simp [mulLoop]
  · rw [if_neg hb, mulLoop_res]
    split <;> simp

/-- The loop is linear in its first operand. -/
theorem mulLoop_xor_left (m : Word) (d n : Nat) (a a' b : Word) :
    mulLoop m d n (a ^^^ a') b 0 = mulLoop m d n a b 0 ^^^ mulLoop m d n a' b 0 := by
  induction n generalizing a a' b with
  | zero => simp [mulLoop]
  | succ n ih =>
    simp only [mulLoop_step, mulX_xor, ih]
    split <;> simp [BitVec.xor_assoc, word_xor_left_comm _ a']

/-- The loop is linear in its second operand. -/
theorem mulLoop_xor_right (m : Word) (d n : Nat) (a b b' : Word) :
    mulLoop m d n a (b ^^^ b') 0 = mulLoop m d n a b 0 ^^^ mulLoop m d n a b' 0 := by
  induction n generalizing a b b' with
  | zero => simp [mulLoop]
  | succ n ih =>
    simp only [mulLoop_step, BitVec.ushiftRight_xor_distrib, ih, BitVec.getLsbD_xor]
    cases b.getLsbD 0 <;> cases b'.getLsbD 0 <;>
      simp [BitVec.xor_assoc, word_xor_left_comm _ a]

/-- The loop keeps reduced values reduced. -/
theorem mulLoop_below {m : Word} {d : Nat} (hd : d < 64) (hm : 2 ^ d ≤ m.toNat)
    (hm' : m.toNat < 2 ^ (d + 1)) {n : Nat} {a b : Word} (ha : a.toNat < 2 ^ d) :
    (mulLoop m d n a b 0).toNat < 2 ^ d := by
  induction n generalizing a b with
  | zero => simp [mulLoop]
  | succ n ih =>
    rw [mulLoop_step, BitVec.toNat_xor]
    refine Nat.xor_lt_two_pow ?_ (ih (mulX_below hd hm hm' ha))
    split
    · exact ha
    · simp

/-! ## Carry-less products -/

theorem clmulBelow_lt (a b n : Nat) : clmulBelow a b n < 2 ^ (a.log2 + n) := by
  have ha : a < 2 ^ (a.log2 + 1) := Nat.lt_log2_self
  induction n with
  | zero => simp [clmulBelow]
  | succ n ih =>
    have low : clmulBelow a b n < 2 ^ (a.log2 + (n + 1)) :=
      Nat.lt_of_lt_of_le ih (Nat.pow_le_pow_right (by omega) (by omega))
    rw [clmulBelow]
    split
    · refine Nat.xor_lt_two_pow low ?_
      rw [Nat.shiftLeft_eq, show a.log2 + (n + 1) = (a.log2 + 1) + n by omega, Nat.pow_add]
      exact Nat.mul_lt_mul_of_pos_right ha (Nat.two_pow_pos n)
    · exact low

@[simp] theorem clmul_zero_left (b : Nat) : clmul 0 b = 0 := by
  have h : ∀ n, clmulBelow 0 b n = 0 := by
    intro n
    induction n with
    | zero => rfl
    | succ n ih => simp [clmulBelow, ih]
  exact h _

@[simp] theorem clmul_zero_right (a : Nat) : clmul a 0 = 0 := by
  simp [clmul, clmulBelow]

/-- The degree of a product is the sum of the degrees. -/
theorem clmul_bounds {a b : Nat} (ha : a ≠ 0) (hb : b ≠ 0) :
    2 ^ (a.log2 + b.log2) ≤ clmul a b ∧ clmul a b < 2 ^ (a.log2 + b.log2 + 1) := by
  have hlt := clmulBelow_lt a b (b.log2 + 1)
  refine ⟨?_, hlt⟩
  apply Nat.ge_two_pow_of_testBit
  have htop : b.testBit b.log2 = true := Nat.testBit_log2 hb
  have hlow : (clmulBelow a b b.log2).testBit (a.log2 + b.log2) = false :=
    Nat.testBit_lt_two_pow (clmulBelow_lt a b b.log2)
  rw [clmul, clmulBelow, if_pos htop, Nat.testBit_xor, hlow, Nat.testBit_shiftLeft]
  simp [Nat.testBit_log2 ha]

end Sys2Proof.Machine
end

