-- ==== Sys2Proof/Machine/Assembler.lean ====
section
/-! DEFINITION. The assembler's side of `30_encoding.md`: the pseudo-instructions (R49),
and the assembler syntax (R48), written and read. -/

namespace Sys2Proof

/-! ## Pseudo-instructions (R49) -/

/-- What a pseudo-instruction assembles to (R49). -/
def Pseudo.expand : Pseudo → Instr
  | .ladd rd ra rb => .add rd ra rb
  | .fadd rd ra rb => .add rd ra rb
  | .sqr rd ra => .mul rd ra ra

/-! ## Writing a line (R48) -/

/-- A register operand: `E0` .. `E15`. -/
def asmReg (r : Reg) : String := "E" ++ toString r.toNat

/-- An immediate operand: `#` and a decimal number. -/
def asmImm (v : Nat) : String := "#" ++ toString v

/-- A mnemonic and its operands, separated by commas. -/
def asmLine (mnemonic : String) (operands : List String) : String :=
  if operands.isEmpty then mnemonic else mnemonic ++ " " ++ String.intercalate ", " operands

/-- The modulus operand, written only in `RUNTIME` mode (R48). -/
def asmModulus (p : Params) (m : Word) : List String :=
  match p.fieldMode with
  | .runtime => [asmImm m.toNat]
  | .fixed _ => []

/-- An instruction in the assembler syntax of R48. -/
def Instr.asm (p : Params) : Instr → String
  | .load rd nr v m =>
    asmLine (if nr then "LOAD.NR" else "LOAD") ([asmReg rd, asmImm v.toNat] ++ asmModulus p m)
  | .setval rd v => asmLine "SETVAL" [asmReg rd, asmImm v.toNat]
  | .red rd => asmLine "RED" [asmReg rd]
  | .getval ra => asmLine "GETVAL" [asmReg ra]
  | .getmod ra => asmLine "GETMOD" [asmReg ra]
  | .getdeg ra => asmLine "GETDEG" [asmReg ra]
  | .getord ra => asmLine "GETORD" [asmReg ra]
  | .poldeg ra k => asmLine "POLDEG" [asmReg ra, asmImm k.toNat]
  | .mdeg m => asmLine "MDEG" [asmImm m.toNat]
  | .getstat => asmLine "GETSTAT" []
  | .clrstat => asmLine "CLRSTAT" []
  | .add rd ra rb => asmLine "ADD" [asmReg rd, asmReg ra, asmReg rb]
  | .mul rd ra rb => asmLine "MUL" [asmReg rd, asmReg ra, asmReg rb]
  | .div rd ra rb => asmLine "DIV" [asmReg rd, asmReg ra, asmReg rb]
  | .inv rd ra => asmLine "INV" [asmReg rd, asmReg ra]
  | .pow rd ra n => asmLine "POW" [asmReg rd, asmReg ra, asmImm n.toNat]
  | .cmpeq ra rb => asmLine "CMPEQ" [asmReg ra, asmReg rb]
  | .cmpne ra rb => asmLine "CMPNE" [asmReg ra, asmReg rb]
  | .cmplt ra rb => asmLine "CMPLT" [asmReg ra, asmReg rb]
  | .cmple ra rb => asmLine "CMPLE" [asmReg ra, asmReg rb]
  | .cmpgt ra rb => asmLine "CMPGT" [asmReg ra, asmReg rb]
  | .cmpge ra rb => asmLine "CMPGE" [asmReg ra, asmReg rb]
  | .ltbuild m => asmLine "LTBUILD" (asmModulus p m)
  | .ltinv => asmLine "LTINV" []
  | .lmul rd ra rb => asmLine "LMUL" [asmReg rd, asmReg ra, asmReg rb]
  | .ldiv rd ra rb => asmLine "LDIV" [asmReg rd, asmReg ra, asmReg rb]
  | .lpow rd ra n => asmLine "LPOW" [asmReg rd, asmReg ra, asmImm n.toNat]
  | .ltrdi i => asmLine "LTRDI" [asmImm i.toNat]
  | .ltrdp v => asmLine "LTRDP" [asmImm v.toNat]
  | .ftbuildm m => asmLine "FTBUILDM" (asmModulus p m)
  | .ftbuildd m => asmLine "FTBUILDD" (asmModulus p m)
  | .ftinv => asmLine "FTINV" []
  | .fmul rd ra rb => asmLine "FMUL" [asmReg rd, asmReg ra, asmReg rb]
  | .fdiv rd ra rb => asmLine "FDIV" [asmReg rd, asmReg ra, asmReg rb]

/-! ## Reading a line (R48) -/

/-- Why a line is not assembled, by name. -/
inductive AsmError where
  /-- an operand is neither a register `E0` .. `E15` nor `#` and a number of 64 bits -/
  | badOperand
  /-- no form of R48 has this mnemonic with these operands -/
  | badForm
  deriving DecidableEq, Repr

/-- An operand as written. -/
inductive AsmOperand where
  | reg (r : Reg)
  | imm (v : Word)
  deriving DecidableEq, Repr

/-- Space between the parts of a line. -/
def asmSpace (c : Char) : Bool := c == ' ' || c == '\t'

/-- Without the space at both ends. -/
def asmTrim (cs : List Char) : List Char :=
  ((cs.dropWhile asmSpace).reverse.dropWhile asmSpace).reverse

/-- The value of a digit, at most 15. -/
def asmDigit (c : Char) : Option Nat :=
  "0123456789abcdef".toList.findIdx? (fun d => d == c) <|>
    "0123456789ABCDEF".toList.findIdx? (fun d => d == c)

/-- The number that digits of a base spell, after `acc`. -/
def asmDigits (base : Nat) : List Char → Nat → Option Nat
  | [], acc => some acc
  | c :: cs, acc =>
    match asmDigit c with
    | some d => if d < base then asmDigits base cs (acc * base + d) else none
    | none => none

/-- A decimal number, or `0x` and a hexadecimal number. -/
def asmNumber : List Char → Option Nat
  | [] => none
  | '0' :: 'x' :: cs => if cs.isEmpty then none else asmDigits 16 cs 0
  | cs => asmDigits 10 cs 0

/-- One operand. -/
def asmOperand (cs : List Char) : Except AsmError AsmOperand :=
  match cs with
  | 'E' :: ds =>
    match (List.range 16).find? fun n => (toString n).toList == ds with
    | some n => .ok (.reg (BitVec.ofNat 4 n))
    | none => .error .badOperand
  | '#' :: ds =>
    match asmNumber ds with
    | some v => if v < 2 ^ 64 then .ok (.imm (BitVec.ofNat 64 v)) else .error .badOperand
    | none => .error .badOperand
  | _ => .error .badOperand

/-- The parts between commas. -/
def asmSplit : List Char → List (List Char)
  | [] => [[]]
  | c :: cs =>
    match c == ',', asmSplit cs with
    | true, ps => [] :: ps
    | false, p :: ps => (c :: p) :: ps
    | false, [] => [[c]]

/-- Each part, read as an operand. -/
def asmOperands : List (List Char) → Except AsmError (List AsmOperand)
  | [] => .ok []
  | p :: ps => do
    let o ← asmOperand (asmTrim p)
    let os ← asmOperands ps
    pure (o :: os)

/-- The instruction of a mnemonic and its operands, in the forms of R48 and R49. `fixed`
is `FIXED(M)` mode, in which no modulus operand is written and `IMM1` is zero. -/
def asmForm (fixed : Bool) (mnemonic : String) (operands : List AsmOperand) : Option Instr :=
  match operands with
  | [] =>
    match mnemonic with
    | "LTINV" => some .ltinv
    | "FTINV" => some .ftinv
    | "GETSTAT" => some .getstat
    | "CLRSTAT" => some .clrstat
    | "LTBUILD" => if fixed then some (.ltbuild 0) else none
    | "FTBUILDM" => if fixed then some (.ftbuildm 0) else none
    | "FTBUILDD" => if fixed then some (.ftbuildd 0) else none
    | _ => none
  | [.imm v] =>
    match mnemonic with
    | "MDEG" => some (.mdeg v)
    | "LTRDI" => some (.ltrdi v)
    | "LTRDP" => some (.ltrdp v)
    | "LTBUILD" => if fixed then none else some (.ltbuild v)
    | "FTBUILDM" => if fixed then none else some (.ftbuildm v)
    | "FTBUILDD" => if fixed then none else some (.ftbuildd v)
    | _ => none
  | [.reg a] =>
    match mnemonic with
    | "RED" => some (.red a)
    | "GETVAL" => some (.getval a)
    | "GETMOD" => some (.getmod a)
    | "GETDEG" => some (.getdeg a)
    | "GETORD" => some (.getord a)
    | "POLDEG" => some (.poldeg a 1)
    | _ => none
  | [.reg a, .imm v] =>
    match mnemonic with
    | "SETVAL" => some (.setval a v)
    | "POLDEG" => if v.toNat < 256 then some (.poldeg a (v.setWidth 8)) else none
    | "LOAD" => if fixed then some (.load a false v 0) else none
    | "LOAD.NR" => if fixed then some (.load a true v 0) else none
    | _ => none
  | [.reg d, .imm v, .imm m] =>
    match mnemonic with
    | "LOAD" => if fixed then none else some (.load d false v m)
    | "LOAD.NR" => if fixed then none else some (.load d true v m)
    | _ => none
  | [.reg a, .reg b] =>
    match mnemonic with
    | "INV" => some (.inv a b)
    | "CMPEQ" => some (.cmpeq a b)
    | "CMPNE" => some (.cmpne a b)
    | "CMPLT" => some (.cmplt a b)
    | "CMPLE" => some (.cmple a b)
    | "CMPGT" => some (.cmpgt a b)
    | "CMPGE" => some (.cmpge a b)
    | "SQR" => some (Pseudo.sqr a b).expand
    | _ => none
  | [.reg d, .reg a, .imm n] =>
    match mnemonic with
    | "POW" => some (.pow d a n)
    | "LPOW" => some (.lpow d a n)
    | _ => none
  | [.reg d, .reg a, .reg b] =>
    match mnemonic with
    | "ADD" => some (.add d a b)
    | "MUL" => some (.mul d a b)
    | "DIV" => some (.div d a b)
    | "LMUL" => some (.lmul d a b)
    | "LDIV" => some (.ldiv d a b)
    | "FMUL" => some (.fmul d a b)
    | "FDIV" => some (.fdiv d a b)
    | "LADD" => some (Pseudo.ladd d a b).expand
    | "FADD" => some (Pseudo.fadd d a b).expand
    | _ => none
  | _ => none

/-- A line: its instruction, or `none` when it holds only space and a comment, which runs
from `;` to the end of the line. -/
def asmRead (p : Params) (line : String) : Except AsmError (Option Instr) :=
  let text := asmTrim (line.toList.takeWhile fun c => c != ';')
  let mnemonic := text.takeWhile fun c => !asmSpace c
  let rest := asmTrim (text.dropWhile fun c => !asmSpace c)
  if text.isEmpty then .ok none
  else do
    let operands ← if rest.isEmpty then pure [] else asmOperands (asmSplit rest)
    match asmForm (decide (p.fieldMode ≠ .runtime)) (String.ofList mnemonic) operands with
    | some i => pure (some i)
    | none => .error .badForm

end Sys2Proof
end

