-- ==== Sys2Proof/Tests/Slice0.lean ====
section
/-! SUPPORT. Tests. Expected results are the spec's: the words of the instruction rules'
'Encoding' lines, and the vectors of `95_test_vectors.md` (the section is named at each
group). -/

namespace Sys2Proof.Tests

open Sys2Proof.Machine

/-! ## Well-formedness: an ill-formed term for each check -/

theorem test_wf_value_too_wide :
    (Instr.load 1 false 0x100 11).illFormed .ref8 = some .valueTooWide := by decide
theorem test_wf_modulus_too_wide :
    (Instr.load 1 false 7 0x10B).illFormed .ref8 = some .modulusTooWide := by decide
theorem test_wf_modulus_unused :
    (Instr.load 1 false 7 11).illFormed { Params.ref8 with fieldMode := .fixed 11 } =
      some .modulusUnused := by decide
theorem test_wf_startpos_zero :
    (Instr.poldeg 1 0).illFormed .ref8 = some .startPosZero := by decide
theorem test_wf_no_full_table :
    (Instr.fmul 3 1 2).illFormed .ref16 = some .noFullTable := by decide
theorem test_wf_accepts : (Instr.load 1 false 7 11).wellFormed .ref8 = true := by decide

/-! ## Decoding: a word per constructor (rules R65 to R136, line 'Encoding') -/

theorem test_decode_load : decode ⟨0x01100000, 7, 11⟩ = .ok (.load 1 false 7 11) := rfl
theorem test_decode_load_nr : decode ⟨0x01F00100, 8, 11⟩ = .ok (.load 15 true 8 11) := rfl
theorem test_decode_setval : decode ⟨0x02900000, 1, 0⟩ = .ok (.setval 9 1) := rfl
theorem test_decode_red : decode ⟨0x03100000, 0, 0⟩ = .ok (.red 1) := rfl
theorem test_decode_getval : decode ⟨0x04040000, 0, 0⟩ = .ok (.getval 4) := rfl
theorem test_decode_getmod : decode ⟨0x05040000, 0, 0⟩ = .ok (.getmod 4) := rfl
theorem test_decode_getdeg : decode ⟨0x06040000, 0, 0⟩ = .ok (.getdeg 4) := rfl
theorem test_decode_getord : decode ⟨0x07040000, 0, 0⟩ = .ok (.getord 4) := rfl
theorem test_decode_poldeg : decode ⟨0x080F00FF, 0, 0⟩ = .ok (.poldeg 15 255) := rfl
theorem test_decode_mdeg : decode ⟨0x09000000, 0, 11⟩ = .ok (.mdeg 11) := rfl
theorem test_decode_getstat : decode ⟨0x0E000000, 0, 0⟩ = .ok .getstat := rfl
theorem test_decode_clrstat : decode ⟨0x0F000000, 0, 0⟩ = .ok .clrstat := rfl
theorem test_decode_add : decode ⟨0x10716000, 0, 0⟩ = .ok (.add 7 1 6) := rfl
theorem test_decode_mul : decode ⟨0x11312000, 0, 0⟩ = .ok (.mul 3 1 2) := rfl
theorem test_decode_div : decode ⟨0x12645000, 0, 0⟩ = .ok (.div 6 4 5) := rfl
theorem test_decode_inv : decode ⟨0x13A90000, 0, 0⟩ = .ok (.inv 10 9) := rfl
theorem test_decode_pow : decode ⟨0x14750000, 7, 0⟩ = .ok (.pow 7 5 7) := rfl
theorem test_decode_cmpeq : decode ⟨0x20034000, 0, 0⟩ = .ok (.cmpeq 3 4) := rfl
theorem test_decode_cmpne : decode ⟨0x21012000, 0, 0⟩ = .ok (.cmpne 1 2) := rfl
theorem test_decode_cmplt : decode ⟨0x22012000, 0, 0⟩ = .ok (.cmplt 1 2) := rfl
theorem test_decode_cmple : decode ⟨0x23012000, 0, 0⟩ = .ok (.cmple 1 2) := rfl
theorem test_decode_cmpgt : decode ⟨0x24012000, 0, 0⟩ = .ok (.cmpgt 1 2) := rfl
theorem test_decode_cmpge : decode ⟨0x25012000, 0, 0⟩ = .ok (.cmpge 1 2) := rfl
theorem test_decode_ltbuild : decode ⟨0x30000000, 0, 11⟩ = .ok (.ltbuild 11) := rfl
theorem test_decode_ltinv : decode ⟨0x31000000, 0, 0⟩ = .ok .ltinv := rfl
theorem test_decode_lmul : decode ⟨0x32756000, 0, 0⟩ = .ok (.lmul 7 5 6) := rfl
theorem test_decode_ldiv : decode ⟨0x33532000, 0, 0⟩ = .ok (.ldiv 5 3 2) := rfl
theorem test_decode_lpow : decode ⟨0x34610000, 10, 0⟩ = .ok (.lpow 6 1 10) := rfl
theorem test_decode_ltrdi : decode ⟨0x35000000, 999, 0⟩ = .ok (.ltrdi 999) := rfl
theorem test_decode_ltrdp : decode ⟨0x36000000, 5, 0⟩ = .ok (.ltrdp 5) := rfl
theorem test_decode_ftbuildm : decode ⟨0x40000000, 0, 0x25⟩ = .ok (.ftbuildm 0x25) := rfl
theorem test_decode_ftbuildd : decode ⟨0x41000000, 0, 11⟩ = .ok (.ftbuildd 11) := rfl
theorem test_decode_ftinv : decode ⟨0x42000000, 0, 0⟩ = .ok .ftinv := rfl
theorem test_decode_fmul : decode ⟨0x43312000, 0, 0⟩ = .ok (.fmul 3 1 2) := rfl
theorem test_decode_fdiv : decode ⟨0x44432000, 0, 0⟩ = .ok (.fdiv 4 3 2) := rfl

/-! Refused words (95, 2.8). -/

theorem test_refuse_opcodes :
    [0x00, 0x0A, 0x15, 0x26, 0x37, 0x45, 0xFF].map
      (fun op : Nat => decodeTableWord 32 (op * 2 ^ 24)) = List.replicate 7 none := by decide
theorem test_refuse_rsv : decode ⟨0x11312200, 0, 0⟩ = .error .nonzeroField := rfl
theorem test_refuse_nr : decode ⟨0x11312100, 0, 0⟩ = .error .nonzeroField := rfl
theorem test_refuse_rd : decode ⟨0x04130000, 0, 0⟩ = .error .nonzeroField := rfl
theorem test_refuse_imm0 : decode ⟨0x30000000, 1, 11⟩ = .error .nonzeroImm0 := rfl
theorem test_refuse_imm1 : decode ⟨0x02100000, 5, 11⟩ = .error .nonzeroImm1 := rfl
theorem test_refuse_short_image : decodeImage [0x00, 0x00, 0x31, 0x11] = .error .imageLength := rfl

/-- The example image of R47. -/
theorem test_image_load :
    (encode (.load 1 false 7 11)).image =
      [0x00, 0x00, 0x10, 0x01, 7, 0, 0, 0, 0, 0, 0, 0, 0x0B, 0, 0, 0, 0, 0, 0, 0] := by decide
/-- The response image of line 0 of program P1. -/
theorem test_image_response : responseImage ⟨0, 7⟩ = [0x00, 7, 0, 0, 0, 0, 0, 0, 0] := by decide
/-- The assembler syntax of R48. -/
theorem test_asm : (Instr.load 2 true 8 11).asm .ref8 = "LOAD.NR E2, #8, #11" := by decide
theorem test_asm_read :
    asmRead .ref8 "  LOAD.NR E2, #0x8,#11 ; raw" = .ok (some (.load 2 true 8 11)) := by
  decide +kernel
theorem test_asm_read_pseudo :
    (asmRead .ref8 "SQR E15, E1").toOption = some (some (.mul 15 1 1)) ∧
    asmRead .ref8 "POLDEG E1" = .ok (some (.poldeg 1 1)) ∧
    asmRead .ref8 "; nothing" = .ok none ∧
    asmRead .ref8 "LTBUILD" = .error .badForm ∧
    asmRead .ref8 "GETVAL E16" = .error .badOperand := by decide +kernel
/-- The pseudo-instructions of R49. -/
theorem test_pseudo_sqr : (Pseudo.sqr 2 1).expand = .mul 2 1 1 := rfl

/-! ## Instructions (95, 2.2 to 2.9) -/

/-- `E1 = (4, 11)`, `E2 = (3, 11)`, `E3 = (0, 19)`, `E4 = (9, 11)` unreduced,
`E5 = (0, 11)`, `E6 = (5, 11)`, `E9` empty, both banks as the argument leaves them. -/
def demo (lt ft : Bool) : State :=
  let s := [(1, 4, 11), (2, 3, 11), (3, 0, 19), (4, 9, 11), (5, 0, 11), (6, 5, 11)].foldl
    (fun s (r, v, m) => writeElem s r v m) State.reset
  let s := if lt then setLt s (buildLogTable 8 11) else s
  if ft then
    setFt s (some { mod := 11, mulTable := buildMulTable 8 11,
                    divTable := some (buildDivTable 8 11) })
  else s

/-- The state an outcome goes on with. -/
def after (o : Host.Outcome State Fault Refusal) : Option State :=
  match o with
  | .next t => some t
  | _ => none

/-- The response an instruction gives. -/
def answer (i : Instr) (s : State) : Option (Nat × Nat) :=
  ((after (exec i s)).bind fun t => t.responses.getLast?).map fun r => (r.err.toNat, r.res.toNat)

/-- The value and modulus a register holds afterwards. -/
def regAfter (i : Instr) (s : State) (r : Reg) : Option (Nat × Nat) :=
  ((after (exec i s)).bind fun t => t.elem r).map fun e => (e.val.toNat, e.mod.toNat)

/-- `STATUS` afterwards. -/
def statusAfter (i : Instr) (s : State) : Option Nat :=
  (after (exec i s)).map fun t => t.status.toNat

/-- An instance of width 64. -/
def params64 : Params :=
  { width := .w64, fieldMode := .runtime, logDegMax := 2, hasFt := false, ftDegMax := 0 }

/-- A state of an instance with one element in `E1`. -/
def one (p : Params) (v m : Word) : State := writeElem (State.resetOf p) 1 v m

theorem test_mdeg : answer (.mdeg 0x80) State.reset = some (0, 7) := by decide
theorem test_mdeg_wide :
    (answer (.mdeg 0x100) State.reset, statusAfter (.mdeg 0x100) State.reset) =
      (some (6, 0), some 0x40) := by decide
theorem test_poldeg_skips : answer (.poldeg 1 4) (one .ref8 42 11) = some (0, 3) := by decide
theorem test_poldeg_all_skipped :
    answer (.poldeg 1 255) (one .ref8 42 11) = some (0, 0) := by decide
theorem test_load_reduces :
    (answer (.load 2 false 8 11) State.reset, regAfter (.load 2 false 8 11) State.reset 2) =
      (some (0, 3), some (3, 11)) := by decide
theorem test_load_fixed :
    regAfter (.load 1 false 8 0) (State.resetOf { Params.ref8 with fieldMode := .fixed 11 }) 1 =
      some (3, 11) := by decide
theorem test_setval : regAfter (.setval 1 42) (one .ref8 1 11) 1 = some (42, 11) := by decide
theorem test_setval_empty : answer (.setval 9 1) State.reset = some (7, 0) := by decide
theorem test_red : regAfter (.red 1) (one .ref8 42 11) 1 = some (6, 11) := by decide
theorem test_red_w64 :
    answer (.red 1) (one params64 0xFFFFFFFFFFFFFFFF 0x8000000000000003) =
      some (0, 0x7FFFFFFFFFFFFFFC) := by decide
theorem test_getval_unreduced : answer (.getval 4) (demo false false) = some (0, 9) := by decide
theorem test_getmod : answer (.getmod 4) (demo false false) = some (0, 11) := by decide
theorem test_getdeg : answer (.getdeg 4) (demo false false) = some (0, 3) := by decide
theorem test_getord : answer (.getord 4) (demo false false) = some (0, 8) := by decide
theorem test_add : regAfter (.add 7 1 2) (demo false false) 7 = some (7, 11) := by decide
theorem test_add_unreduced : answer (.add 7 4 1) (demo false false) = some (8, 0) := by decide
theorem test_mul_same_destination :
    regAfter (.mul 2 2 2) (demo false false) 2 = some (5, 11) := by decide
theorem test_mul_w64 :
    answer (.mul 1 1 1) (one params64 0x7FFFFFFFFFFFFFFF 0x8000000000000003) =
      some (0, 0x2AAAAAAAAAAAAAAB) := by decide +kernel
theorem test_div : answer (.div 7 1 2) (demo false false) = some (0, 5) := by decide
theorem test_div_cross_field_first :
    answer (.div 7 4 3) (demo false false) = some (1, 0) := by decide
theorem test_inv_aes :
    answer (.inv 2 1) (one .ref16 0x53 0x11B) = some (0, 0xCA) := by decide +kernel
theorem test_inv_zero : answer (.inv 7 5) (demo false false) = some (2, 0) := by decide
theorem test_pow_largest :
    answer (.pow 2 1 0xFFFFFFFFFFFFFFFF) (one .ref8 2 11) = some (0, 2) := by decide +kernel
theorem test_pow_zero_zero : answer (.pow 2 5 0) (demo false false) = some (0, 1) := by decide
theorem test_cmpeq_fields : answer (.cmpeq 5 3) (demo false false) = some (1, 0) := by decide
theorem test_cmpne : answer (.cmpne 1 2) (demo false false) = some (0, 1) := by decide
theorem test_cmplt : answer (.cmplt 2 1) (demo false false) = some (0, 1) := by decide
theorem test_cmple : answer (.cmple 1 1) (demo false false) = some (0, 1) := by decide
theorem test_cmpgt : answer (.cmpgt 2 1) (demo false false) = some (0, 0) := by decide
theorem test_cmpge : answer (.cmpge 2 1) (demo false false) = some (0, 0) := by decide
/-- A build that started leaves the bank invalid; one refused by its degree does not. -/
theorem test_ltbuild_generator :
    (answer (.ltbuild 31) (demo true false),
      (after (exec (.ltbuild 31) (demo true false))).map fun t => t.lt.isSome) =
      (some (5, 0), some false) := by decide +kernel
theorem test_ltbuild_degree :
    (answer (.ltbuild 3) (demo true false),
      (after (exec (.ltbuild 3) (demo true false))).map fun t => t.lt.isSome) =
      (some (5, 0), some true) := by decide +kernel
theorem test_ltinv :
    (after (exec .ltinv (demo true false))).map (fun t => t.lt.isSome) = some false := by
  decide +kernel
theorem test_lmul : answer (.lmul 7 2 6) (demo true false) = some (0, 4) := by decide +kernel
theorem test_lmul_no_table : answer (.lmul 7 5 1) (demo false false) = some (4, 0) := by decide
theorem test_ldiv_wraps : answer (.ldiv 7 1 6) (demo true false) = some (0, 3) := by
  decide +kernel
theorem test_ldiv_table_first : answer (.ldiv 7 1 5) (demo false false) = some (4, 0) := by decide
theorem test_lpow_exact :
    answer (.lpow 7 6 0xFFFFFFFFFFFFFFFF) (demo true false) = some (0, 5) := by decide +kernel
theorem test_lpow_zero : answer (.lpow 7 5 0) (demo true false) = some (0, 1) := by
  decide +kernel
theorem test_ltrdi_tail :
    [10, 13, 14].map (fun i => answer (.ltrdi i) (demo true false)) =
      [some (0, 3), some (0, 5), some (9, 0)] := by decide +kernel
theorem test_ltrdp_bounds :
    [0, 5, 7, 8].map (fun v => answer (.ltrdp v) (demo true false)) =
      [some (9, 0), some (0, 6), some (0, 5), some (9, 0)] := by decide +kernel
theorem test_ftbuildm_degree :
    (answer (.ftbuildm 0x25) (demo false true),
      (after (exec (.ftbuildm 0x25) (demo false true))).map fun t => t.ft.isSome) =
      (some (5, 0), some true) := by decide +kernel
theorem test_ftbuildm_drops_quotients :
    ((after (exec (.ftbuildm 11) (demo false true))).bind fun t => t.ft).map
      (fun f => f.divTable) = some none := by decide +kernel
theorem test_ftbuildd_other_field :
    answer (.ftbuildd 19) (demo false true) = some (4, 0) := by decide +kernel
theorem test_ftinv :
    (after (exec .ftinv (demo false true))).map (fun t => t.ft.isSome) = some false := by
  decide +kernel
theorem test_fmul : answer (.fmul 7 2 6) (demo false true) = some (0, 4) := by decide +kernel
theorem test_fmul_absent :
    answer (.fmul 3 1 2) (State.resetOf .ref16) = some (6, 0) := by decide
theorem test_fdiv : answer (.fdiv 7 1 6) (demo false true) = some (0, 3) := by decide +kernel
theorem test_fdiv_zero : answer (.fdiv 7 1 5) (demo false true) = some (2, 0) := by
  decide +kernel
theorem test_getstat :
    answer .getstat (setStatus State.reset 0x106) = some (0, 0x106) := by decide
theorem test_clrstat : statusAfter .clrstat (setStatus State.reset 0x1BA) = some 0 := by decide

/-! Steps: the first command after reset, an illegal command, a reset that abandons one,
the end of the host's list. -/

theorem test_step_first_command :
    ((after (step (State.reset.withFetchWord 32 0x0E000000))).map fun t =>
      (t.responses, t.pos)) = some ([⟨0, 0⟩], 1) := by decide
theorem test_step_illegal :
    ((after (step (State.reset.withFetchWord 32 0x11312200))).map fun t =>
      (t.responses, t.status)) = some ([⟨6, 0⟩], 0x40) := by decide
theorem test_step_reset :
    ((after (step { demo true true with inputs := [.reset (some (encode (.red 1)))] })).map fun t =>
      (t.elem 1, t.lt.isSome, t.responses)) = some (none, false, []) := by decide +kernel
theorem test_step_exhausted : after (step State.reset) = some State.reset := by decide

/-! ## Witnesses: a concrete state and operands for the hypotheses of each statement,
clause by clause. `both` has both banks for modulus 11, `bare` neither. -/

def both : State := demo true true
def bare : State := demo false false

/-- The elements the witnesses name. -/
def e1 : Elem := ⟨4, 11, 3, 8⟩
def e2 : Elem := ⟨3, 11, 3, 8⟩
def e3 : Elem := ⟨0, 19, 4, 16⟩
def e4 : Elem := ⟨9, 11, 3, 8⟩
def e5 : Elem := ⟨0, 11, 3, 8⟩

theorem both_lt : ∃ t, both.lt = some t ∧ t.mod = 11 := ⟨_, rfl, rfl⟩
theorem both_ft : ∃ f t, both.ft = some f ∧ f.mod = 11 ∧ f.divTable = some t :=
  ⟨_, _, rfl, rfl, rfl⟩

/-- Two ready sources, the second not zero (`MUL`, `DIV`, the comparisons, ...), or zero. -/
theorem test_witness_Ready2 :
    Ready2 both 1 2 e1 e2 ∧ Ready2 both 1 5 e1 e5 ∧ Ready2 both 5 1 e5 e1 ∧
    Ready2 both 2 2 e2 e2 ∧ Ready2 bare 1 2 e1 e2 ∧ e2.val ≠ 0 ∧ e5.val = 0 := by
  refine ⟨?_, ?_, ?_, ?_, ?_, by decide, by decide⟩ <;>
    exact ⟨by decide +kernel, by decide +kernel, rfl, by decide, by decide⟩

/-- Every failure of two sources, also where two of its conditions hold. -/
theorem test_witness_Fails2 :
    Fails2 bare 1 9 .emptyRegister ∧ Fails2 bare 9 3 .emptyRegister ∧
    Fails2 bare 4 3 .crossFieldMismatch ∧ Fails2 bare 4 1 .unreducedOperand ∧
    Fails2 bare 1 4 .unreducedOperand :=
  ⟨.inl ⟨.inr (by decide), rfl⟩, .inl ⟨.inl (by decide), rfl⟩,
   .inr (.inl ⟨e4, e3, by decide, by decide, by decide, rfl⟩),
   .inr (.inr ⟨e4, e1, by decide, by decide, rfl, .inl (by decide), rfl⟩),
   .inr (.inr ⟨e1, e4, by decide, by decide, rfl, .inr (by decide), rfl⟩)⟩

/-- One source: ready and not zero, ready and zero, empty, unreduced. -/
theorem test_witness_source1 :
    Ready1 both 1 e1 ∧ Ready1 both 5 e5 ∧ Ready1 bare 1 e1 ∧ Fails1 bare 9 .emptyRegister ∧
    Fails1 bare 4 .unreducedOperand :=
  ⟨⟨by decide +kernel, by decide⟩, ⟨by decide +kernel, by decide⟩, ⟨by decide, by decide⟩,
   .inl ⟨by decide, rfl⟩, .inr ⟨e4, by decide, by decide, rfl⟩⟩

/-- A valid log table serves field 11 and no other; with no table none does. -/
theorem test_witness_log_tables :
    (∃ t, both.lt = some t ∧ t.mod = e1.mod) ∧
    (∀ t, both.lt = some t → t.mod ≠ e3.mod) ∧ Ready1 both 3 e3 ∧
    (∀ t, bare.lt = some t → t.mod ≠ e1.mod) := by
  refine ⟨both_lt, ?_, ⟨by decide +kernel, by decide⟩,
    fun t h => (by cases h)⟩
  obtain ⟨t', h', hm⟩ := both_lt
  intro t h
  rw [h'] at h
  cases h
  rw [hm]
  decide

/-- Full tables: for the operand's field, for another field, absent, and with no quotients. -/
theorem test_witness_full_tables :
    both.params.hasFt = true ∧
    (∃ f t, both.ft = some f ∧ f.mod = e1.mod ∧ f.divTable = some t) ∧
    (∀ f, both.ft = some f → f.mod ≠ e3.mod) ∧ Ready2 both 3 3 e3 e3 ∧
    (∀ f, bare.ft = some f → f.mod ≠ e1.mod ∨ f.divTable = none) ∧
    Params.ref16.hasFt = false := by
  refine ⟨rfl, both_ft, ?_, ⟨by decide +kernel, by decide +kernel, rfl, by decide, by decide⟩,
    fun f h => (by cases h), rfl⟩
  obtain ⟨f', t', h', hm, -⟩ := both_ft
  intro f h
  rw [h'] at h
  cases h
  rw [hm]
  decide

theorem test_witness_MdegMeasuresTheModulus :
    Params.ref8.fits 0xFF = true ∧ Params.ref8.fits 0x100 = false := by decide

theorem test_witness_PoldegScansTheValue :
    (0 : BitVec 8) = 0 ∧ (255 : BitVec 8) ≠ 0 ∧ bare.elem 9 = none ∧ bare.elem 4 = some e4 := by
  decide

/-- `LOAD` and the builders: ill-formed, malformed modulus, the least legal modulus; also
in `FIXED(M)` mode. -/
theorem test_witness_modulus_operands :
    (Instr.load 1 false 0x100 11).wellFormed .ref8 = false ∧
    (Instr.load 1 false 0xFF 1).wellFormed .ref8 = true ∧
    (modulusOperand .ref8 1).toNat < 2 ∧ 2 ≤ (modulusOperand .ref8 2).toNat ∧
    (Instr.load 1 true 0xFF 0).wellFormed { Params.ref8 with fieldMode := .fixed 11 } = true ∧
    2 ≤ (modulusOperand { Params.ref8 with fieldMode := .fixed 11 } 0).toNat ∧
    (Instr.ltbuild 0x100).wellFormed .ref8 = false ∧
    (Instr.ltbuild 0xFF).wellFormed .ref8 = true ∧
    (Instr.ftbuildm 2).wellFormed .ref16 = false ∧
    (Instr.ftbuildm 2).wellFormed .ref8 = true ∧
    (Instr.ftbuildd 2).wellFormed .ref8 = true := by decide

theorem test_witness_SetvalWritesTheRawValue :
    Params.ref8.fits 0x100 = false ∧ Params.ref8.fits 42 = true ∧ bare.elem 9 = none ∧
    bare.elem 1 = some e1 := by decide

theorem test_witness_RedReducesInPlace :
    bare.elem 9 = none ∧ bare.elem 4 = some e4 ∧ reduce 8 e4.val e4.mod = 2 := by decide

/-- `LTBUILD`: degree below 2, above `LOGDEG_MAX`, at both ends of the range; a build that
succeeds and one that does not. -/
theorem test_witness_LtbuildBuildsOrInvalidates :
    modulusDegree 8 3 < 2 ∧ Params.ref16.logDegMax < modulusDegree 16 0x203 ∧
    modulusDegree 8 7 = 2 ∧ modulusDegree 16 0x11D = Params.ref16.logDegMax ∧
    (buildLogTable 8 7).isSome = true ∧ buildLogTable 8 31 = none := by decide +kernel

/-- The one failure that writes a bank: a legal `LTBUILD` that fits and whose build fails. -/
theorem test_witness_FailingCommandChangesOnlyStatus :
    (Instr.ltbuild 31).wellFormed .ref8 = true ∧ needLogDegree .ref8 31 = .ok 31 ∧
    buildLogTable Params.ref8.bits 31 = none := ⟨by decide, rfl, by decide +kernel⟩

theorem test_witness_table_indices :
    both.lt ≠ none ∧ bare.lt = none ∧
    2 * (2 ^ modulusDegree 8 11 - 1) ≤ (14 : Word).toNat ∧
    (13 : Word).toNat < 2 * (2 ^ modulusDegree 8 11 - 1) ∧
    2 ^ modulusDegree 8 11 ≤ (8 : Word).toNat ∧ (7 : Word).toNat < 2 ^ modulusDegree 8 11 := by
  decide +kernel

theorem test_witness_FtbuildmBuildsTheProducts :
    Params.ref8.ftDegMax < modulusDegree 8 0x25 ∧
    modulusDegree 8 19 ≤ Params.ref8.ftDegMax := by decide

theorem test_witness_InvalidationEndsTheTable :
    Params.ref8.hasFt = true ∧ Params.ref16.hasFt = false := ⟨rfl, rfl⟩

theorem test_witness_DecodedCommandEncodesBack :
    decode (plain 0x44FFF000#32) = .ok (.fdiv 15 15 15) := rfl

theorem test_witness_StepRunsTheDecodedInstruction :
    nextInput (presentOnly both (plain 0x11312000#32)) = some (.command (plain 0x11312000#32)) ∧
    decode (plain 0x11312000#32) = .ok (.mul 3 1 2) := ⟨rfl, rfl⟩

theorem test_witness_StepTakesOneInputAndAnswersOnce :
    nextInput State.reset = none ∧
    nextInput (presentOnly both (plain 0)) = some (.command (plain 0)) ∧
    nextInput { both with inputs := [.reset none] } = some (.reset none) := ⟨rfl, rfl, rfl⟩

theorem test_witness_ResetInputTakesTheResetState :
    nextInput { both with inputs := [.reset (some (plain 0x03100000#32))] } =
      some (.reset (some (plain 0x03100000#32))) := rfl

/-- Each condition of R44, at the boundary of its range. -/
theorem test_witness_IllegalCommandWritesOnlyItsFlag :
    nextInput (presentOnly both (plain 0x45000000#32)) = some (.command (plain 0x45000000#32)) ∧
    (plain 0x45000000#32).Illegal .ref8 ∧ (plain 0x44000000#32).Illegal .ref16 ∧
    (plain 0x11312200#32).Illegal .ref8 ∧
    Command.Illegal .ref8 ⟨0x11312000, 1, 0⟩ ∧ Command.Illegal .ref8 ⟨0x14210000, 3, 1⟩ ∧
    Command.Illegal { Params.ref8 with fieldMode := .fixed 11 } ⟨0x01100000, 7, 11⟩ ∧
    Command.Illegal .ref8 ⟨0x01100000, 0x100, 11⟩ ∧
    Command.Illegal .ref8 ⟨0x01100000, 7, 0x10B⟩ ∧ (plain 0x08010000#32).Illegal .ref8 :=
  ⟨rfl, .inl (by decide), .inr (.inl (by decide)), .inr (.inr (.inl (by decide))),
   .inr (.inr (.inr (.inl (by decide)))), .inr (.inr (.inr (.inr (.inl (by decide))))),
   .inr (.inr (.inr (.inr (.inr (.inl (by decide)))))),
   .inr (.inr (.inr (.inr (.inr (.inr (.inl (by decide))))))),
   .inr (.inr (.inr (.inr (.inr (.inr (.inr (.inl (by decide)))))))),
   .inr (.inr (.inr (.inr (.inr (.inr (.inr (.inr (by decide))))))))⟩

/-- The frames and the whole-machine rules: a command that answers, of each kind. -/
theorem test_witness_exec_answers :
    (∃ t, exec (.add 7 1 2) both = .next t) ∧ (∃ t, exec (.ftbuildd 11) both = .next t) ∧
    (∃ t, exec (.ltbuild 31) both = .next t) ∧ (∃ t, exec .clrstat both = .next t) ∧
    (∃ t, exec (.cmpeq 1 9) both = .next t) :=
  ⟨⟨_, rfl⟩, ⟨_, rfl⟩, ⟨_, rfl⟩, ⟨_, rfl⟩, ⟨_, rfl⟩⟩

theorem test_witness_EmptySourceFails :
    (Instr.fdiv 7 1 9).wellFormed both.params = true ∧ (9 : Reg) ∈ (Instr.fdiv 7 1 9).sources ∧
    both.elem 9 = none := ⟨by decide, by decide, by decide +kernel⟩

/-- An instance with the fixed modulus 11, and an element in it. -/
def fixed11 : State := one { Params.ref8 with fieldMode := .fixed 11 } 3 11

theorem test_witness_FixedModulusNeverMismatches :
    fixed11.params.Legal ∧ fixed11.params.fieldMode = .fixed 11 ∧
    (∃ t r, exec (.mul 2 1 1) fixed11 = .next t ∧ t.responses = fixed11.responses ++ [r] ∧
      t.elem 2 = some ⟨5, 11, 3, 8⟩) :=
  ⟨by decide, rfl, ⟨_, _, rfl, rfl, by decide⟩⟩

/-! ### A state that satisfies all the invariants, with both banks in use -/

/-- Field 7 (`x^2 + x + 1`): `E1 = 2`, `E2 = 3`, all three tables. -/
def demo7 : State :=
  let s := writeElem (writeElem State.reset 1 2 7) 2 3 7
  let s := setLt s (some
    { mod := 7, indToPol := [1, 2, 3, 1, 2, 3].map some, polToInd := none :: [0, 1, 2].map some })
  presentOnly (setFt s (some
    { mod := 7, mulTable := buildMulTable 8 7, divTable := some (buildDivTable 8 7) }))
    (encode (.lmul 3 1 2))

theorem demo7_elem (r : Reg) :
    demo7.elem r = if r = 1 then some ⟨2, 7, 2, 4⟩ else if r = 2 then some ⟨3, 7, 2, 4⟩ else none := by
  revert r
  decide +kernel

theorem elem7_wf (v : Word) (h : Params.ref8.fits v = true) :
    (Elem.mk v 7 2 4).Wf .ref8 :=
  ⟨⟨(by decide : 2 ≤ (7 : Word).toNat), (by decide : Params.ref8.fits 7 = true), trivial⟩, h,
   (by decide : (2 : BitVec 6).toNat = modulusDegree 8 7),
   (by decide : 1 ≤ (2 : BitVec 6).toNat), (by decide : (2 : BitVec 6).toNat ≤ 8 - 1),
   (by decide : (4 : Word).toNat = 2 ^ (2 : BitVec 6).toNat)⟩

theorem demo7_regs : demo7.RegsWf := by
  intro r e h
  rw [demo7_elem] at h
  split at h
  · cases h; exact elem7_wf 2 (by decide)
  · split at h
    · cases h; exact elem7_wf 3 (by decide)
    · cases h

theorem demo7_lt : demo7.LtWf := by
  intro b h
  cases h
  refine ⟨⟨by decide, by decide, trivial⟩, by decide, by decide, by decide, by decide, by decide,
    by decide, ?_, ?_⟩
  · intro i j hi hj
    have hj : j < 3 := hj
    interval_cases j <;> interval_cases i <;> decide
  · intro v hv hv'
    have hv' : v < 4 := hv'
    interval_cases v
    · exact ⟨0, by decide⟩
    · exact ⟨1, by decide⟩
    · exact ⟨2, by decide⟩

theorem demo7_ft : demo7.FtWf := by
  intro f h
  cases h
  refine ⟨rfl, ⟨by decide, by decide, trivial⟩, by decide, by decide, ?_, ?_⟩
  · intro a b ha hb
    have ha : a < 4 := ha
    have hb : b < 4 := hb
    interval_cases a <;> interval_cases b <;> decide
  · intro t ht
    cases ht
    refine ⟨by decide, ?_⟩
    intro a b ha hb
    have ha : a < 4 := ha
    have hb : b < 4 := hb
    interval_cases a <;> interval_cases b <;> decide

theorem demo7_inv : demo7.Inv where
  legal := by decide
  regs := demo7_regs
  lt := demo7_lt
  ft := demo7_ft
  status := by decide
  responses := by decide
  pos := by decide

/-- The invariants, a step, and the premises of both equivalences, all together. -/
theorem test_witness_invariants :
    demo7.Inv ∧ demo7.params.Legal ∧ demo7.LtWf ∧ demo7.FtWf ∧
    (∃ t, step demo7 = .next t) ∧
    (∃ t, demo7.lt = some t ∧ t.mod = 7) ∧
    (∃ f, demo7.ft = some f ∧ f.mod = 7 ∧ f.divTable ≠ none) ∧
    Ready2 demo7 1 2 ⟨2, 7, 2, 4⟩ ⟨3, 7, 2, 4⟩ ∧ Ready1 demo7 1 ⟨2, 7, 2, 4⟩ :=
  ⟨demo7_inv, demo7_inv.legal, demo7_lt, demo7_ft, ⟨_, rfl⟩, ⟨_, rfl, rfl⟩,
   ⟨_, rfl, rfl, by simp⟩,
   ⟨demo7_elem 1, demo7_elem 2, rfl, by decide, by decide⟩, ⟨demo7_elem 1, by decide⟩⟩

/-- A command that writes only reduced values may find an unreduced register. -/
theorem test_witness_CommandsWriteReducedValues :
    (Instr.lmul 3 1 2).mayUnreduce = false ∧ (Instr.load 1 false 8 11).mayUnreduce = false ∧
    (∃ t, exec (.lmul 3 1 2) demo7 = .next t) := ⟨rfl, rfl, ⟨_, rfl⟩⟩

theorem test_witness_ResetMeetsTheInvariants :
    Params.ref8.Legal ∧ Params.ref16.Legal ∧
    ({ Params.ref8 with fieldMode := .fixed 255 } : Params).Legal := by decide

/-! ### The pure functions -/

/-- The scans at both ends of their range. -/
theorem test_witness_BitScansFindTheLeadingBit :
    (7 < Width.w8.bits ∧ (0x80 : Word).getLsbD 7 = true) ∧
    ((1 : Word).getLsbD 0 = true ∧ ∀ q, q < 8 → 0 < q → (1 : Word).getLsbD q = false) ∧
    (∀ q, q < 8 → (0 : Word).getLsbD q = false) ∧
    (0 + 8 ≤ 8 ∧ (0x2B : Word).getLsbD 0 = true) ∧
    (1 ≤ 4 ∧ 3 + 4 ≤ 8 ∧ (0x2A : Word).getLsbD 3 = true ∧
      ∀ q, q < 8 → 3 < q → q + 4 ≤ 8 → (0x2A : Word).getLsbD q = false) := by decide

theorem test_witness_ReduceIsTheRemainder :
    (0xFF : Word).toNat < 2 ^ Width.w8.bits ∧ 1 ≤ (1 : Word).toNat ∧ 0 < modulusOrder 8 1 ∧
    PolyCongr 11 1 10 := by
  refine ⟨by decide, by decide, by decide, 1, by decide⟩

/-- Reduced elements at the top of the largest field of width 64, and of degree 1. -/
theorem test_witness_reduced_operands :
    2 ≤ (0x8000000000000003 : Word).toNat ∧ (0x8000000000000003 : Word).toNat < 2 ^ Width.w64.bits ∧
    Below 64 0x8000000000000003 0x7FFFFFFFFFFFFFFF ∧ Below 8 2 1 ∧
    modulusDegree 8 2 = 1 ∧ 2 ≤ modulusDegree 8 7 := by
  refine ⟨by decide, by decide, ?_, ?_, by decide, by decide⟩
  · exact (by decide +kernel : (0x7FFFFFFFFFFFFFFF : Word).toNat < modulusOrder 64 0x8000000000000003)
  · exact (by decide : (1 : Word).toNat < modulusOrder 8 2)

/-- `x^2 + x + 1` is irreducible. -/
theorem test_witness_IrreducibleModulusGivesAField :
    PolyIrreducible (7 : Word).toNat ∧ (7 : Word).toNat < 2 ^ Width.w8.bits ∧
    Below 8 7 3 ∧ (3 : Word) ≠ 0 := by
  refine ⟨⟨by decide, fun a b h => ?_⟩, by decide, ?_, by decide⟩
  · have h : clmul a b = 7 := h
    rcases Nat.eq_zero_or_pos a with rfl | ha
    · simp at h
    rcases Nat.eq_zero_or_pos b with rfl | hb
    · simp at h
    have hd := clmul_bounds (by omega : a ≠ 0) (by omega : b ≠ 0)
    rw [h] at hd
    have h3 : a.log2 + b.log2 < 3 := by
      by_contra hc
      have := Nat.pow_le_pow_right (n := 2) (by omega) (by omega : 3 ≤ a.log2 + b.log2)
      omega
    have la : a < 2 ^ 3 :=
      Nat.lt_of_lt_of_le Nat.lt_log2_self (Nat.pow_le_pow_right (by omega) (by omega))
    have lb : b < 2 ^ 3 :=
      Nat.lt_of_lt_of_le Nat.lt_log2_self (Nat.pow_le_pow_right (by omega) (by omega))
    have cases : ∀ a : Fin 8, ∀ b : Fin 8, clmul a b = 7 → a.val = 1 ∨ b.val = 1 := by decide
    exact cases ⟨a, la⟩ ⟨b, lb⟩ h
  · exact (by decide : (3 : Word).toNat < modulusOrder 8 7)

theorem test_witness_LogTableVerdictIsExact :
    (0x83 : Word).toNat < 2 ^ Width.w8.bits ∧ 2 ≤ modulusDegree 8 0x83 ∧
    2 ≤ modulusDegree 8 6 := by decide

theorem test_witness_WorkedTablesOfField11 :
    State.reset.params.width = .w8 ∧ State.reset.params.fieldMode = .runtime ∧
    3 ≤ State.reset.params.logDegMax ∧ State.reset.params.hasFt = true ∧
    3 ≤ State.reset.params.ftDegMax := by decide

/-! ### The ports -/

/-- A ready block, a command to accept, and as many quiet edges as its latency asks for. -/
theorem test_witness_PortsCarryOneTransaction :
    (PortState.resetOf .ref8).phase = .ready ∧
    (∀ j ∈ List.replicate (Config.latency 0) (PortIn.mk false false (plain 0) true),
      j.rst = false) ∧
    (List.replicate (Config.latency 0) (PortIn.mk false false (plain 0) true)).length =
      Config.latency (PortState.resetOf .ref8).accepted :=
  ⟨rfl, fun _ h => (List.eq_of_mem_replicate h) ▸ rfl, List.length_replicate⟩

/-- The last cycle of `MDEG #11` presents its answer; the host takes it. -/
theorem test_port_answers :
    ((clockEdge ⟨State.reset, .executing (encode (.mdeg 11)) 0, 1⟩
      ⟨false, false, plain 0, false⟩).outputs false) = ⟨false, some ⟨0, 3⟩⟩ := by decide

end Sys2Proof.Tests
end

section
/-! PROOFS, part 1. The ring of polynomials modulo a modulus (`41_direct_polynomial.md` R80 to
R83) and reduction (`40_utilities_reduction.md` R63). -/

namespace Sys2Proof.Machine

/-! ## The multiplication loop as a polynomial in `x`

`mulLoop m d n a b 0` applies the polynomial `b` in the operator `mulX` to `a`. Two such
operators commute, and applied to 1 such an operator gives back its polynomial; commutativity
and associativity of the product follow from these two facts. -/

/-- The loop commutes with multiplication by `x`. -/
theorem mulLoop_mulX (m : Word) (d n : Nat) (a b : Word) :
    mulLoop m d n (mulX m d a) b 0 = mulX m d (mulLoop m d n a b 0) := by
  induction n generalizing a b with
  | zero => exact (mulX_zero m d).symm
  | succ n ih =>
    rw [mulLoop_step, mulLoop_step, mulX_xor, ih]
    split
    · rfl
    · rw [mulX_zero]

theorem mulLoop_zero_left (m : Word) (d n : Nat) (b : Word) : mulLoop m d n 0 b 0 = 0 := by
  simpa using mulLoop_xor_left m d n 0 0 b

theorem mulLoop_zero_right (m : Word) (d n : Nat) (a : Word) : mulLoop m d n a 0 0 = 0 := by
  simpa using mulLoop_xor_right m d n a 0 0

/-- Two loops commute. -/
theorem mulLoop_comm (m : Word) (d n k : Nat) (a b c : Word) :
    mulLoop m d n (mulLoop m d k a b 0) c 0 = mulLoop m d k (mulLoop m d n a c 0) b 0 := by
  induction n generalizing a c with
  | zero => exact (mulLoop_zero_left m d k b).symm
  | succ n ih =>
    rw [mulLoop_step, mulLoop_step, mulLoop_xor_left, ← mulLoop_mulX, ih]
    split
    · rfl
    · rw [mulLoop_zero_left]

/-- Doubling a power of `x` below the degree is a shift. -/
theorem mulX_shiftLeft_one (m : Word) {d j : Nat} (hj : j + 1 < d) :
    mulX m d (1#64 <<< j) = 1#64 <<< (j + 1) := by
  have hbit : (1#64 <<< (j + 1)).getLsbD d = false := by
    simp [BitVec.getLsbD_shiftLeft, BitVec.getLsbD_one, show d - (j + 1) ≠ 0 by omega]
  rw [mulX, ← BitVec.shiftLeft_add, hbit]
  rfl

/-- A word below `2^0` is 0. -/
theorem eq_zero_of_toNat_lt_one {b : Word} (h : b.toNat < 2 ^ 0) : b = 0 :=
  BitVec.eq_of_toNat_eq (by simpa using h)

theorem toNat_ushiftRight_one_lt {b : Word} {k : Nat} (h : b.toNat < 2 ^ (k + 1)) :
    (b >>> 1).toNat < 2 ^ k := by
  rw [BitVec.toNat_ushiftRight, Nat.shiftRight_eq_div_pow]
  omega

/-- A word is its low bit and the rest, shifted anywhere. -/
theorem shiftLeft_split (b : Word) (j : Nat) :
    (if b.getLsbD 0 then 1#64 <<< j else 0) ^^^ (b >>> 1) <<< (j + 1) = b <<< j := by
  have hlow : (if b.getLsbD 0 then 1#64 <<< j else 0) =
      (if b.getLsbD 0 then 1#64 else 0) <<< j := by split <;> simp
  rw [hlow, Nat.add_comm j 1, BitVec.shiftLeft_add, ← BitVec.shiftLeft_xor_distrib]
  congr 1
  apply BitVec.eq_of_getLsbD_eq
  intro i hi
  cases i with
  | zero => cases b.getLsbD 0 <;> simp
  | succ i => cases b.getLsbD 0 <;> simp [hi, Nat.add_comm 1 i]

/-- The loop applied to a power of `x` shifts its reduced multiplier. -/
theorem mulLoop_shiftLeft_one (m : Word) {d k n : Nat} (hkn : k ≤ n) {j : Nat} (hjk : j + k ≤ d)
    {b : Word} (hb : b.toNat < 2 ^ k) : mulLoop m d n (1#64 <<< j) b 0 = b <<< j := by
  induction k generalizing n j b with
  | zero =>
    obtain rfl := eq_zero_of_toNat_lt_one hb
    exact (mulLoop_zero_right m d n _).trans (BitVec.zero_shiftLeft _).symm
  | succ k ih =>
    obtain ⟨n, rfl⟩ : ∃ n', n = n' + 1 := ⟨n - 1, by omega⟩
    have hhalf := toNat_ushiftRight_one_lt hb
    have hrest : mulLoop m d n (mulX m d (1#64 <<< j)) (b >>> 1) 0 = (b >>> 1) <<< (j + 1) := by
      rcases Nat.lt_or_ge (j + 1) d with hj | hj
      · rw [mulX_shiftLeft_one m hj]
        exact ih (by omega) (by omega) hhalf
      · obtain rfl : k = 0 := by omega
        rw [eq_zero_of_toNat_lt_one hhalf]
        exact (mulLoop_zero_right m d n _).trans (BitVec.zero_shiftLeft _).symm
    rw [mulLoop_step, hrest, shiftLeft_split]

/-! ## The ring laws (R95) -/

/-- What the laws of the ring ask of a modulus: a `w`-bit quantity of at least 2. -/
structure GoodModulus (w : Width) (m : Word) : Prop where
  two_le : 2 ≤ m.toNat
  fits : m.toNat < 2 ^ w.bits

section
variable {w : Width} {m : Word}

namespace GoodModulus

theorem bounds (hm : GoodModulus w m) :
    2 ^ modulusDegree w.bits m ≤ m.toNat ∧ m.toNat < 2 ^ (modulusDegree w.bits m + 1) :=
  modulusDegree_bounds hm.fits (by have := hm.two_le; omega)

theorem degree_pos (hm : GoodModulus w m) : 1 ≤ modulusDegree w.bits m :=
  modulusDegree_pos hm.fits hm.two_le

theorem two_le_order (hm : GoodModulus w m) : 2 ≤ modulusOrder w.bits m :=
  Nat.pow_le_pow_right (n := 2) (by omega) hm.degree_pos

end GoodModulus

theorem degree_lt_64 (w : Width) (m : Word) : modulusDegree w.bits m < 64 := by
  have := modulusDegree_lt w m
  have := bits_bounds w
  omega

theorem below_zero (w : Nat) (m : Word) : Below w m 0 := Nat.two_pow_pos _

theorem below_one (hm : GoodModulus w m) : Below w.bits m 1 := hm.two_le_order

theorem below_xor {w : Nat} {a b : Word} (ha : Below w m a) (hb : Below w m b) :
    Below w m (a ^^^ b) := by
  rw [Below, BitVec.toNat_xor]
  exact Nat.xor_lt_two_pow ha hb

/-- A natural number below the order is the reduced value of its bits. -/
theorem toNat_ofNat_of_lt_order {k : Nat} (h : k < modulusOrder w.bits m) :
    (BitVec.ofNat 64 k).toNat = k := by
  rw [BitVec.toNat_ofNat, Nat.mod_eq_of_lt (h.trans (modulusOrder_lt w m))]

theorem below_ofNat {k : Nat} (h : k < modulusOrder w.bits m) :
    Below w.bits m (BitVec.ofNat 64 k) := by
  rwa [Below, toNat_ofNat_of_lt_order h]

theorem mulReduce_below (hm : GoodModulus w m) {a : Word} (b : Word) (ha : Below w.bits m a) :
    Below w.bits m (mulReduce w.bits a b m) :=
  mulLoop_below (degree_lt_64 w m) hm.bounds.1 hm.bounds.2 ha

theorem mulReduce_zero_left (w : Nat) (b m : Word) : mulReduce w 0 b m = 0 :=
  mulLoop_zero_left ..

/-- 1 is neutral on the left: the loop applied to 1 gives back the polynomial. -/
theorem mulReduce_one_left {b : Word} (hb : Below w.bits m b) : mulReduce w.bits 1 b m = b := by
  simpa [mulReduce] using
    mulLoop_shiftLeft_one m (n := 64) (j := 0) (degree_lt_64 w m).le (Nat.zero_add _).le hb

theorem mulReduce_comm {a b : Word} (ha : Below w.bits m a) (hb : Below w.bits m b) :
    mulReduce w.bits a b m = mulReduce w.bits b a m :=
  calc mulReduce w.bits a b m
      = mulReduce w.bits (mulReduce w.bits 1 a m) b m := by rw [mulReduce_one_left ha]
    _ = mulReduce w.bits (mulReduce w.bits 1 b m) a m := mulLoop_comm ..
    _ = mulReduce w.bits b a m := by rw [mulReduce_one_left hb]

theorem mulReduce_one_right (hm : GoodModulus w m) {a : Word} (ha : Below w.bits m a) :
    mulReduce w.bits a 1 m = a := by
  rw [mulReduce_comm ha (below_one hm), mulReduce_one_left ha]

theorem mulReduce_assoc (hm : GoodModulus w m) {a b : Word} (ha : Below w.bits m a)
    (hb : Below w.bits m b) (c : Word) :
    mulReduce w.bits (mulReduce w.bits a b m) c m =
      mulReduce w.bits a (mulReduce w.bits b c m) m :=
  calc mulReduce w.bits (mulReduce w.bits a b m) c m
      = mulReduce w.bits (mulReduce w.bits b a m) c m := by rw [mulReduce_comm ha hb]
    _ = mulReduce w.bits (mulReduce w.bits b c m) a m := mulLoop_comm ..
    _ = mulReduce w.bits a (mulReduce w.bits b c m) m :=
      mulReduce_comm (mulReduce_below hm c hb) ha

/-! ## The power as an iterated product (R81) -/

/-- The `n`-fold product of `a`, 1 for `n = 0`. -/
def iterMul (w : Nat) (a m : Word) : Nat → Word
  | 0 => 1
  | n + 1 => mulReduce w (iterMul w a m n) a m

theorem iterMul_below (hm : GoodModulus w m) {a : Word} (n : Nat) :
    Below w.bits m (iterMul w.bits a m n) := by
  induction n with
  | zero => exact below_one hm
  | succ n ih => exact mulReduce_below hm a ih

theorem iterMul_add (hm : GoodModulus w m) (a : Word) (k n : Nat) :
    iterMul w.bits a m (k + n) =
      mulReduce w.bits (iterMul w.bits a m k) (iterMul w.bits a m n) m := by
  induction n with
  | zero => exact (mulReduce_one_right hm (iterMul_below hm k)).symm
  | succ n ih =>
    rw [← Nat.add_assoc, iterMul, ih,
      mulReduce_assoc hm (iterMul_below hm k) (iterMul_below hm n), iterMul]

/-- The powers of a square are the even powers. -/
theorem iterMul_square (hm : GoodModulus w m) {a : Word} (ha : Below w.bits m a) (n : Nat) :
    iterMul w.bits (mulReduce w.bits a a m) m n = iterMul w.bits a m (2 * n) := by
  induction n with
  | zero => rfl
  | succ n ih =>
    rw [show 2 * (n + 1) = 2 * n + 1 + 1 by ring, iterMul, ih, iterMul, iterMul,
      mulReduce_assoc hm (iterMul_below hm _) ha]

/-- The square-and-multiply loop multiplies its accumulator by the power it is asked for. -/
theorem powLoop_eq (hm : GoodModulus w m) {n : Nat} {res a : Word} {e : Nat} (he : e < 2 ^ n)
    (hr : Below w.bits m res) (ha : Below w.bits m a) :
    powLoop w.bits m n res a e = mulReduce w.bits res (iterMul w.bits a m e) m := by
  induction n generalizing res a e with
  | zero =>
    obtain rfl : e = 0 := by simpa using he
    exact (mulReduce_one_right hm hr).symm
  | succ n ih =>
    by_cases h0 : e = 0
    · subst h0
      rw [powLoop, if_pos rfl, iterMul, mulReduce_one_right hm hr]
    · have hhalf : e >>> 1 < 2 ^ n := by
        rw [Nat.shiftRight_eq_div_pow]
        omega
      have hsq := mulReduce_below hm a ha
      rw [powLoop, if_neg h0]
      cases hb : e.testBit 0 with
      | true =>
        have he2 : e = 1 + 2 * (e >>> 1) := by
          rw [Nat.testBit_zero, decide_eq_true_eq] at hb
          rw [Nat.shiftRight_eq_div_pow]
          omega
        have h1 : iterMul w.bits a m 1 = a := mulReduce_one_left ha
        rw [if_pos rfl, ih hhalf (mulReduce_below hm a hr) hsq, iterMul_square hm ha,
          mulReduce_assoc hm hr ha]
        conv_rhs => rw [he2, iterMul_add hm, h1]
      | false =>
        have he2 : e = 2 * (e >>> 1) := by
          rw [Nat.testBit_zero, decide_eq_false_iff_not] at hb
          rw [Nat.shiftRight_eq_div_pow]
          omega
        rw [if_neg nofun, ih hhalf hr hsq, iterMul_square hm ha, ← he2]

theorem polyPow_eq_iterMul (hm : GoodModulus w m) {a : Word} (ha : Below w.bits m a) (n : Nat) :
    pow w.bits a n m = iterMul w.bits a m n := by
  rw [pow, powLoop_eq hm Nat.lt_log2_self (below_one hm) ha,
    mulReduce_one_left (iterMul_below hm n)]

theorem polyPow_zero (w : Nat) (a m : Word) : pow w a 0 m = 1 := by
  simp [pow, powLoop]

theorem polyPow_succ (hm : GoodModulus w m) {a : Word} (ha : Below w.bits m a) (n : Nat) :
    pow w.bits a (n + 1) m = mulReduce w.bits (pow w.bits a n m) a m := by
  rw [polyPow_eq_iterMul hm ha, polyPow_eq_iterMul hm ha, iterMul]

theorem polyPow_add (hm : GoodModulus w m) {a : Word} (ha : Below w.bits m a) (k n : Nat) :
    pow w.bits a (k + n) m = mulReduce w.bits (pow w.bits a k m) (pow w.bits a n m) m := by
  simp only [polyPow_eq_iterMul hm ha, iterMul_add hm]

theorem polyPow_below (hm : GoodModulus w m) {a : Word} (ha : Below w.bits m a) (n : Nat) :
    Below w.bits m (pow w.bits a n m) := by
  rw [polyPow_eq_iterMul hm ha]
  exact iterMul_below hm n

theorem divide_below (hm : GoodModulus w m) {a : Word} (b : Word) (ha : Below w.bits m a) :
    Below w.bits m (divide w.bits a b m) := mulReduce_below hm _ ha

theorem inverse_below (hm : GoodModulus w m) {a : Word} (ha : Below w.bits m a) :
    Below w.bits m (inverse w.bits a m) := polyPow_below hm ha _

end

/-! ## Reduction (R63) -/

/-- A value whose top bit is clear is shorter by one bit. -/
theorem toNat_lt_of_top_clear {v : Word} {k : Nat} (hv : v.toNat < 2 ^ (k + 1))
    (hb : v.getLsbD k = false) : v.toNat < 2 ^ k :=
  Nat.lt_pow_two_of_testBit _ fun i hi => by
    rcases Nat.eq_or_lt_of_le hi with rfl | hi
    · exact hb
    · exact Nat.testBit_lt_two_pow (hv.trans_le (Nat.pow_le_pow_right (by omega) hi))

/-- Aligning a modulus of degree `d` under bit `k` puts its leading bit there. -/
theorem shiftLeft_modulus {m : Word} {d k : Nat} (hm : 2 ^ d ≤ m.toNat)
    (hm' : m.toNat < 2 ^ (d + 1)) (hd : d ≤ k) (hk : k < 64) :
    (m <<< (k - d)).toNat < 2 ^ (k + 1) ∧ (m <<< (k - d)).getLsbD k = true := by
  have hlt : m.toNat * 2 ^ (k - d) < 2 ^ (k + 1) := by
    rw [show k + 1 = (d + 1) + (k - d) by omega, Nat.pow_add]
    exact Nat.mul_lt_mul_of_pos_right hm' (Nat.two_pow_pos _)
  have hmbit : m.getLsbD d = true := by
    by_contra h
    have := toNat_lt_of_top_clear hm' (by simpa using h)
    omega
  constructor
  · rw [BitVec.toNat_shiftLeft, Nat.shiftLeft_eq]
    exact (Nat.mod_le _ _).trans_lt hlt
  · rw [BitVec.getLsbD_shiftLeft, show k - (k - d) = d by omega, hmbit]
    simp [hk]

/-- Each pass of the reduction clears one leading bit, down to the degree. -/
theorem reduceFrom_lt {m : Word} {d : Nat} (hm : 2 ^ d ≤ m.toNat) (hm' : m.toNat < 2 ^ (d + 1))
    {n : Nat} (hn : n ≤ 64) {v : Word} (hv : v.toNat < 2 ^ n) :
    (reduceFrom m d n v).toNat < 2 ^ d := by
  induction n generalizing v with
  | zero => exact hv.trans_le (Nat.pow_le_pow_right (by omega) (by omega))
  | succ k ih =>
    rw [reduceFrom]
    split
    case isTrue hkd => exact hv.trans_le (Nat.pow_le_pow_right (by omega) hkd)
    case isFalse hkd =>
      apply ih (by omega)
      cases hb : v.getLsbD k with
      | false => exact toNat_lt_of_top_clear hv hb
      | true =>
        obtain ⟨hs, hsb⟩ := shiftLeft_modulus hm hm' (Nat.not_lt.mp hkd) (by omega)
        rw [if_pos rfl]
        apply toNat_lt_of_top_clear
        · rw [BitVec.toNat_xor]
          exact Nat.xor_lt_two_pow hv hs
        · rw [BitVec.getLsbD_xor, hb, hsb]
          rfl

theorem reduce_below {w : Width} {m : Word} (hm : GoodModulus w m) {v : Word}
    (hv : v.toNat < 2 ^ w.bits) : Below w.bits m (reduce w.bits v m) :=
  reduceFrom_lt hm.bounds.1 hm.bounds.2 (bits_bounds w).2 hv

end Sys2Proof.Machine
end

section
/-! PROOFS, part 2. What a step and an instruction can do, and the rules of the whole machine
that follow from it (`10_state.md` R15 to R17, R22, R24, R25). -/

namespace Sys2Proof.Machine

/-! ## Steps -/

/-- Every instruction answers a next state (`70_reset_and_hazards.md` R171). -/
theorem exec_next (i : Instr) (s : State) : ∃ t, exec i s = .next t := by
  cases i <;> exact ⟨_, rfl⟩

/-- A command, legal or not, runs as some instruction does: one that does not decode has the
one effect of an illegal instruction (`60_exceptions.md` R146), `POLDEG` with `startPos` 0. -/
theorem runCommand_eq_exec (c : Command) (s : State) : ∃ i, runCommand c s = exec i s := by
  unfold runCommand
  cases decode c with
  | ok i => exact ⟨i, rfl⟩
  | error _ => exact ⟨.poldeg 0 0, rfl⟩

/-- What a step can do (`10_state.md` R16): nothing on an exhausted list, take the reset state,
or run an instruction after the position moved. -/
theorem step_cases (s : State) :
    (nextInput s = none ∧ step s = .next s) ∨
    (∃ c, nextInput s = some (.reset c) ∧ step s = .next (takeReset (advance s))) ∨
    (∃ c i, nextInput s = some (.command c) ∧ step s = exec i (advance s)) := by
  unfold step
  rcases nextInput s with _ | ⟨c⟩ | ⟨c⟩
  · exact .inl ⟨rfl, rfl⟩
  · obtain ⟨i, hi⟩ := runCommand_eq_exec c (advance s)
    exact .inr (.inr ⟨c, i, rfl, hi⟩)
  · exact .inr (.inl ⟨c, rfl, rfl⟩)

/-! ## What every instruction leaves and answers -/

section
variable {i : Instr} {s t : State}

theorem exec_params (h : exec i s = .next t) : t.params = s.params := by
  cases exec_ends h <;> rfl

theorem exec_inputs (h : exec i s = .next t) : t.inputs = s.inputs := by
  cases exec_ends h <;> rfl

theorem exec_pos (h : exec i s = .next t) : t.pos = s.pos := by
  cases exec_ends h <;> rfl

theorem exec_lt_frame (h : exec i s = .next t) (hw : i.writesLt = false) : t.lt = s.lt := by
  cases exec_ends h with
  | buildFails _ _ hi =>
    subst hi
    exact nomatch hw
  | setsLt _ hw' => simp [hw] at hw'
  | _ => rfl

theorem exec_ft_frame (h : exec i s = .next t) (hw : i.writesFt = false) : t.ft = s.ft := by
  cases exec_ends h with
  | setsFt _ hw' => simp [hw] at hw'
  | _ => rfl

/-- An instruction without a destination leaves every register. -/
theorem exec_regs_frame (h : exec i s = .next t) (hd : i.dest = none) : t.regs = s.regs := by
  cases exec_ends h with
  | writesReg _ _ _ hd' => simp [hd] at hd'
  | _ => rfl

theorem code_le_nine (k : Failure) : k.code ≤ 9 := by
  cases k <;> decide

/-- A failure's response is one the block can give (`60_exceptions.md` R140). -/
theorem failure_response_ok (k : Failure) : Response.ok { err := k.err, res := 0 } = true := by
  cases k <;> decide

/-- A success's response is one the block can give. -/
theorem success_response_ok (v : Word) : Response.ok { err := 0, res := v } = true := by
  simp [Response.ok]

/-- Every instruction adds exactly one response (`30_encoding.md` R46). -/
theorem exec_answers (h : exec i s = .next t) :
    ∃ r : Response, t.responses = s.responses ++ [r] ∧ r.ok = true := by
  cases exec_ends h with
  | fails k => exact ⟨_, rfl, failure_response_ok k⟩
  | buildFails => exact ⟨_, rfl, failure_response_ok _⟩
  | _ => exact ⟨_, rfl, success_response_ok _⟩

/-- What an instruction does to `STATUS` (`10_state.md` R17). -/
theorem exec_status (h : exec i s = .next t) :
    t.status = s.status ∨ (∃ k, t.status = setFlag s.status k) ∨
    (i = .clrstat ∧ t.status = 0) := by
  cases exec_ends h with
  | fails k => exact .inr (.inl ⟨k, rfl⟩)
  | buildFails => exact .inr (.inl ⟨_, rfl⟩)
  | clears hi => exact .inr (.inr ⟨hi, rfl⟩)
  | _ => exact .inl rfl

end

/-- A failure sets the bit of its code and no other. -/
theorem setFlag_getLsbD (v : BitVec 16) (k : Failure) (j : Nat) :
    (setFlag v k).getLsbD j = (v.getLsbD j || decide (j = k.code)) := by
  have hk := code_le_nine k
  rw [setFlag, BitVec.getLsbD_or, BitVec.getLsbD_shiftLeft, BitVec.getLsbD_one]
  congr 1
  rw [Bool.eq_iff_iff]
  simp
  omega

/-- No failure has code 0 or a code above 9, so none sets a reserved bit. -/
theorem setFlag_reserved {v : BitVec 16} (k : Failure) (h : statusReserved v = true) :
    statusReserved (setFlag v k) = true := by
  have hk : (1#16 <<< k.code) &&& 0xFC01#16 = 0#16 := by cases k <;> decide
  rw [statusReserved, decide_eq_true_eq] at h ⊢
  rw [setFlag, BitVec.and_comm, BitVec.and_or_distrib_left, BitVec.and_comm, h, BitVec.and_comm, hk]
  rfl

/-! ## Running a template

To show that a property holds of every state an instruction can end in, show it of the illegal
ending, of the ending at each failing check, and of the end of the template. -/

theorem command_induct {P : State → Prop} {i : Instr} {s rest t : State}
    (h : command i s rest = .next t) (hill : P (raise s .illegalCommand))
    (hrest : i.wellFormed s.params = true → P rest) : P t := by
  rcases command_next h with ⟨hw, rfl⟩ | ⟨-, rfl⟩
  · exact hrest hw
  · exact hill

theorem finish_bind_induct {P : State → Prop} {α : Type} {s : State} {c : Except Failure α}
    {f : α → Except Failure (State × Word)} (herr : ∀ k, c = .error k → P (raise s k))
    (hok : ∀ a, c = .ok a → P (finish s (f a))) : P (finish s (c >>= f)) := by
  cases c with
  | error k => exact herr k rfl
  | ok a => exact hok a rfl

/-- A legal command whose first check fails. -/
theorem command_first_check_fails {α : Type} {i : Instr} {s : State} {c : Except Failure α}
    {k : Failure} (f : α → Except Failure (State × Word)) (hw : i.wellFormed s.params = true)
    (hc : c = .error k) : command i s (finish s (c >>= f)) = .next (raise s k) := by
  rw [command_legal _ hw, hc]
  rfl

theorem oneSource_ok {s : State} {ra : Reg} {a : Elem} (h : oneSource s ra = .ok a) :
    Ready1 s ra a := by
  rcases oneSource_cases s ra with ⟨a', hr, ha'⟩ | ⟨k, -, hk⟩
  · rw [ha'] at h
    cases h
    exact hr
  · simp [hk] at h

theorem twoSources_ok {s : State} {ra rb : Reg} {p : Elem × Elem}
    (h : twoSources s ra rb = .ok p) : Ready2 s ra rb p.1 p.2 := by
  rcases twoSources_cases s ra rb with ⟨a, b, hr, hab⟩ | ⟨k, -, hk⟩
  · rw [hab] at h
    cases h
    exact hr
  · simp [hk] at h

/-! ## The frame of the tables, the flags and `STATUS` -/

/-- Settles O8: `step` runs `runCommand`, whose decoding is known. -/
theorem stepRunsTheDecodedInstruction : Obligations.StepRunsTheDecodedInstruction := by
  intro s c i hn hd
  simp only [step, hn, runCommand, hd]

/-- Settles O9. -/
theorem stepTakesOneInputAndAnswersOnce : Obligations.StepTakesOneInputAndAnswersOnce := by
  intro s
  rcases step_cases s with ⟨hn, h⟩ | ⟨c, hn, h⟩ | ⟨c, i, hn, h⟩
  · exact ⟨s, h, rfl, rfl, fun _ => rfl, fun hs => absurd hn hs, by simp [hn], by simp [hn]⟩
  · exact ⟨_, h, rfl, rfl, by simp [hn], fun _ => rfl, by simp [hn], fun _ _ => rfl⟩
  · obtain ⟨t, ht⟩ := exec_next i (advance s)
    obtain ⟨r, hr, hok⟩ := exec_answers ht
    simp only [Response.ok, Bool.and_eq_true, Bool.or_eq_true, decide_eq_true_eq] at hok
    obtain ⟨herr, hres⟩ := hok
    exact ⟨t, h.trans ht, exec_params (s := advance s) ht,
      exec_inputs (s := advance s) ht, by simp [hn], fun _ => exec_pos ht,
      fun _ _ => ⟨r, hr, herr, hres.resolve_left⟩, by simp [hn]⟩

/-- Settles O10. -/
theorem resetInputTakesTheResetState : Obligations.ResetInputTakesTheResetState := by
  intro s c hn
  refine ⟨takeReset (advance s), ?_, elem_takeReset _, rfl, rfl, rfl, rfl, rfl, rfl, rfl⟩
  simp only [step, hn]

/-- Settles O11. -/
theorem resetStateIsEmpty : Obligations.ResetStateIsEmpty :=
  ⟨fun p => ⟨rfl, elem_resetOf p, rfl, rfl, rfl, rfl, rfl⟩, rfl⟩

/-- Settles O45: nothing is held and nothing has been answered. -/
theorem resetMeetsTheInvariants : Obligations.ResetMeetsTheInvariants := by
  intro p hp
  exact
    { legal := hp
      regs := fun r e he => by simp [elem_resetOf] at he
      lt := nofun
      ft := nofun
      status := by simp [statusReserved, State.resetOf]
      responses := nofun
      pos := Nat.le_refl 0 }

/-- Settles O39. -/
theorem tablesAreWrittenOnlyByTheirCommands :
    Obligations.TablesAreWrittenOnlyByTheirCommands := by
  intro i s t h
  refine ⟨exec_lt_frame h, exec_ft_frame h, fun imm1 hi => ?_⟩
  cases exec_ends h with
  | setsFt b _ _ hd => exact hd imm1 hi
  | _ => rfl

/-- Settles O41: an instruction keeps `STATUS`, sets one flag or is `CLRSTAT`. -/
theorem statusFlagsAreSticky : Obligations.StatusFlagsAreSticky := by
  intro i s t h
  rcases exec_status h with hs | ⟨k, hs⟩ | ⟨hi, hs⟩
  · simp [hs]
  · have hlow : k.code ≠ 0 := by cases k <;> decide
    have hhigh := code_le_nine k
    refine ⟨fun _ j hj => by simp [hs, setFlag_getLsbD, hj], fun j hj hc => ?_⟩
    rw [hs, setFlag_getLsbD, hc, Bool.false_or, decide_eq_false_iff_not]
    omega
  · simp [hs, hi]

/-! ## `STATUS` is read by `GETSTAT` alone -/

/-- Two states that differ in `STATUS` alone. -/
def SameButStatus (t' t : State) : Prop := setStatus t' 0 = setStatus t 0

theorem sameButStatus_raise {t' t : State} (h : SameButStatus t' t) (k : Failure) :
    SameButStatus (raise t' k) (raise t k) :=
  congrArg (respond · k.err 0) h

theorem sameButStatus_done {t' t : State} (h : SameButStatus t' t) (v : Word) :
    SameButStatus (done t' v) (done t v) :=
  congrArg (respond · 0 v) h

/-- After one check both runs fail alike or go on alike. -/
theorem sameButStatus_bind {α : Type} {s : State} {x : BitVec 16} {c : Except Failure α}
    {f' f : α → Except Failure (State × Word)}
    (h : ∀ a, SameButStatus (finish (setStatus s x) (f' a)) (finish s (f a))) :
    SameButStatus (finish (setStatus s x) (c >>= f')) (finish s (c >>= f)) := by
  cases c with
  | error k => exact sameButStatus_raise rfl k
  | ok a => exact h a

/-- A test of a number alone fails in both runs or in none. -/
theorem sameButStatus_test {s t' t : State} {x : BitVec 16} {v : Word} {p : Prop} [Decidable p]
    (k : Failure) (h : SameButStatus t' t) :
    SameButStatus (finish (setStatus s x) (if p then .error k else pure (t', v)))
      (finish s (if p then .error k else pure (t, v))) := by
  split
  · exact sameButStatus_raise rfl k
  · exact sameButStatus_done h v

/-- The legality of a command does not depend on `STATUS`. -/
theorem sameButStatus_command {i : Instr} {s t rest' rest : State} {x : BitVec 16}
    (h : command i s rest = .next t) (hr : SameButStatus rest' rest) :
    ∃ t', command i (setStatus s x) rest' = .next t' ∧ setStatus t' 0 = setStatus t 0 := by
  rcases command_next h with ⟨hw, rfl⟩ | ⟨hw, rfl⟩
  · exact ⟨_, command_legal _ hw, hr⟩
  · exact ⟨_, command_illegal _ hw, rfl⟩

/-- Settles O42: the checks and the values read the parameters, the registers and the banks. -/
theorem onlyGetstatReadsStatus : Obligations.OnlyGetstatReadsStatus := by
  intro i s t x hi h
  cases i with
  | getstat => exact absurd rfl hi
  | mdeg | clrstat | ltinv | ftinv => exact sameButStatus_command h rfl
  | load | setval | red | getval | getmod | getdeg | getord | poldeg | add | mul | pow | cmpeq
  | cmpne | cmplt | cmple | cmpgt | cmpge =>
    exact sameButStatus_command h (sameButStatus_bind fun _ => rfl)
  | div | inv | lmul | lpow | ftbuildd | fmul =>
    exact sameButStatus_command h (sameButStatus_bind fun _ => sameButStatus_bind fun _ => rfl)
  | ldiv | fdiv =>
    exact sameButStatus_command h (sameButStatus_bind fun _ => sameButStatus_bind fun _ =>
      sameButStatus_bind fun _ => rfl)
  | ltrdi | ltrdp | ftbuildm =>
    exact sameButStatus_command h (sameButStatus_bind fun _ => sameButStatus_test _ rfl)
  | ltbuild m =>
    refine sameButStatus_command h ?_
    simp only [setStatus_params]
    split
    · rfl
    · simp only [buildLt, setStatus_params]
      split <;> rfl

/-! ## Empty sources -/

/-- Settles O43: the first check of a command with a register source reads its sources. -/
theorem emptySourceFails : Obligations.EmptySourceFails := by
  intro i r s hw hr he
  cases i with
  | load | mdeg | getstat | clrstat | ltbuild | ltinv | ltrdi | ltrdp | ftbuildm | ftbuildd
  | ftinv => simp [Instr.sources] at hr
  | setval rd | red rd | getval rd | getmod rd | getdeg rd | getord rd | poldeg rd =>
    obtain rfl : r = rd := by simpa [Instr.sources] using hr
    exact command_first_check_fails _ hw (needReg_of_none he)
  | inv _ ra | pow _ ra | lpow _ ra =>
    obtain rfl : r = ra := by simpa [Instr.sources] using hr
    exact command_first_check_fails _ hw (oneSource_fails (.inl ⟨he, rfl⟩))
  | add _ ra rb | mul _ ra rb | div _ ra rb | cmpeq ra rb | cmpne ra rb | cmplt ra rb
  | cmple ra rb | cmpgt ra rb | cmpge ra rb | lmul _ ra rb | ldiv _ ra rb | fmul _ ra rb
  | fdiv _ ra rb =>
    have hempty : s.elem ra = none ∨ s.elem rb = none := by
      rcases (by simpa [Instr.sources] using hr : r = ra ∨ r = rb) with rfl | rfl
      · exact .inl he
      · exact .inr he
    exact command_first_check_fails _ hw (twoSources_fails (.inl ⟨hempty, rfl⟩))

/-! ## `FIXED(M)` mode (`10_state.md` R15) -/

/-- The two failures that compare moduli or test one. -/
def Failure.isMismatch : Failure → Bool
  | .crossFieldMismatch | .malformedModulus => true
  | _ => false

/-- The command answered, with neither of the two. -/
def AnswersNoMismatch (s t : State) : Prop :=
  ∃ r : Response, t.responses = s.responses ++ [r] ∧ r.err.toNat ≠ 1 ∧ r.err.toNat ≠ 3

theorem answersNoMismatch_raise {s t : State} {k : Failure} (ht : t.responses = s.responses)
    (hk : k.isMismatch = false) : AnswersNoMismatch s (raise t k) := by
  refine ⟨{ err := k.err, res := 0 }, by simp [ht], ?_⟩
  cases k with
  | crossFieldMismatch | malformedModulus => exact absurd hk (by decide)
  | _ => decide

theorem answersNoMismatch_done {s t : State} (ht : t.responses = s.responses) (v : Word) :
    AnswersNoMismatch s (done t v) :=
  ⟨{ err := 0, res := v }, by simp [ht], by simp⟩

/-- A check that fails with neither of the two. -/
def NoMismatch {α : Type} (c : Except Failure α) : Prop :=
  ∀ k, c = .error k → k.isMismatch = false

theorem noMismatch_ok {α : Type} (a : α) : NoMismatch (.ok a) := nofun

theorem noMismatch_error {α : Type} {k : Failure} (hk : k.isMismatch = false) :
    NoMismatch (.error k : Except Failure α) := by
  rintro _ ⟨⟩
  exact hk

theorem answersNoMismatch_bind {α : Type} {s : State} {c : Except Failure α}
    {f : α → Except Failure (State × Word)} (hc : NoMismatch c)
    (hf : ∀ a, AnswersNoMismatch s (finish s (f a))) :
    AnswersNoMismatch s (finish s (c >>= f)) :=
  finish_bind_induct (fun k hk => answersNoMismatch_raise rfl (hc k hk)) fun a _ => hf a

/-- A test that fails with neither of the two, before an answer. -/
theorem answersNoMismatch_test {s t : State} {v : Word} {p : Prop} [Decidable p] {k : Failure}
    (hk : k.isMismatch = false) (ht : t.responses = s.responses) :
    AnswersNoMismatch s (finish s (if p then .error k else pure (t, v))) := by
  split
  · exact answersNoMismatch_raise rfl hk
  · exact answersNoMismatch_done ht v

theorem answersNoMismatch_command {i : Instr} {s rest t : State} (h : command i s rest = .next t)
    (hr : AnswersNoMismatch s rest) : AnswersNoMismatch s t :=
  command_induct h (answersNoMismatch_raise rfl rfl) fun _ => hr

section
variable (s : State) (r : Reg) (e : Elem) (w : Word)

theorem needReg_noMismatch : NoMismatch (needReg s r) := by
  unfold needReg
  split
  · exact noMismatch_ok _
  · exact noMismatch_error rfl

theorem oneSource_noMismatch : NoMismatch (oneSource s r) := by
  rcases oneSource_cases s r with ⟨a, -, h⟩ | ⟨k, ⟨-, rfl⟩ | ⟨_, -, -, rfl⟩, h⟩ <;> rw [h]
  · exact noMismatch_ok a
  · exact noMismatch_error rfl
  · exact noMismatch_error rfl

theorem needNonzero_noMismatch : NoMismatch (needNonzero e) := by
  unfold needNonzero
  split
  · exact noMismatch_error rfl
  · exact noMismatch_ok _

theorem needLtValid_noMismatch : NoMismatch (needLtValid s) := by
  unfold needLtValid
  split
  · exact noMismatch_ok _
  · exact noMismatch_error rfl

theorem needLt_noMismatch : NoMismatch (needLt s e) := by
  by_cases h : ∀ b, s.lt = some b → b.mod ≠ e.mod
  · rw [needLt_of_mismatch h]
    exact noMismatch_error rfl
  · push Not at h
    obtain ⟨b, hb, hm⟩ := h
    rw [needLt_of_tag hb hm]
    exact noMismatch_ok b

theorem needFtm_noMismatch : NoMismatch (needFtm s w) := by
  by_cases h : ∀ f, s.ft = some f → f.mod ≠ w
  · rw [needFtm_of_mismatch h]
    exact noMismatch_error rfl
  · push Not at h
    obtain ⟨f, hf, hm⟩ := h
    rw [needFtm_of_tag hf hm]
    exact noMismatch_ok f

theorem needFtd_noMismatch : NoMismatch (needFtd s w) := by
  by_cases h : ∀ f, s.ft = some f → f.mod ≠ w ∨ f.divTable = none
  · rw [needFtd_of_mismatch h]
    exact noMismatch_error rfl
  · push Not at h
    obtain ⟨f, hf, hm, hd⟩ := h
    obtain ⟨t, ht⟩ := Option.ne_none_iff_exists'.mp hd
    rw [needFtd_of_tag hf hm ht]
    exact noMismatch_ok t

end

/-! The checks that do compare moduli or test one cannot fail on it in `FIXED(M)` mode. -/

section
variable {s : State} {m : Word}

/-- In `FIXED(M)` mode every element is in the field of `M`. -/
theorem elem_fixed (hf : s.params.fieldMode = .fixed m) {r : Reg} {e : Elem}
    (h : s.elem r = some e) : e = mkElem s.params e.val m := by
  simp only [State.elem, hf, Option.map_eq_some_iff] at h
  obtain ⟨e', -, rfl⟩ := h
  rfl

theorem twoSources_noMismatch (hf : s.params.fieldMode = .fixed m) (ra rb : Reg) :
    NoMismatch (twoSources s ra rb) := by
  rcases twoSources_cases s ra rb with ⟨a, b, -, h⟩ | ⟨k, hk, h⟩ <;> rw [h]
  · exact noMismatch_ok _
  · rcases hk with ⟨-, rfl⟩ | ⟨a, b, ha, hb, hne, rfl⟩ | ⟨-, -, -, -, -, -, rfl⟩
    · exact noMismatch_error rfl
    · rw [elem_fixed hf ha, elem_fixed hf hb] at hne
      exact absurd rfl hne
    · exact noMismatch_error rfl

/-- A legal `M` is at least 2. -/
theorem fixed_modulus_legal {p : Params} (hl : p.Legal) (hf : p.fieldMode = .fixed m) :
    2 ≤ m.toNat ∧ p.fits m = true := by
  have hm := hl.1
  simpa [Params.fieldModeLegal, hf] using hm

theorem needModulus_fixed {p : Params} (hl : p.Legal) (hf : p.fieldMode = .fixed m)
    (imm1 : Word) : needModulus p imm1 = .ok m := by
  have hm := modulusOperand_fixed imm1 hf
  rw [needModulus_of_ge (hm ▸ (fixed_modulus_legal hl hf).1), hm]

theorem needModulus_noMismatch {p : Params} (hl : p.Legal) (hf : p.fieldMode = .fixed m)
    (imm1 : Word) : NoMismatch (needModulus p imm1) := by
  rw [needModulus_fixed hl hf]
  exact noMismatch_ok m

/-- Every instruction of a `FIXED(M)` block answers with neither of the two codes. -/
theorem exec_answersNoMismatch {i : Instr} {t : State} (hl : s.params.Legal)
    (hf : s.params.fieldMode = .fixed m) (h : exec i s = .next t) : AnswersNoMismatch s t := by
  have two := twoSources_noMismatch hf
  cases i with
  | load _ _ _ imm1 =>
    exact answersNoMismatch_command h (answersNoMismatch_bind (needModulus_noMismatch hl hf imm1)
      fun _ => answersNoMismatch_done rfl _)
  | setval rd | red rd | getval rd | getmod rd | getdeg rd | getord rd | poldeg rd =>
    exact answersNoMismatch_command h (answersNoMismatch_bind (needReg_noMismatch s rd)
      fun _ => answersNoMismatch_done rfl _)
  | mdeg | getstat | clrstat | ltinv | ftinv =>
    exact answersNoMismatch_command h (answersNoMismatch_done rfl _)
  | add _ ra rb | mul _ ra rb | cmpeq ra rb | cmpne ra rb | cmplt ra rb | cmple ra rb
  | cmpgt ra rb | cmpge ra rb =>
    exact answersNoMismatch_command h (answersNoMismatch_bind (two ra rb)
      fun _ => answersNoMismatch_done rfl _)
  | div _ ra rb =>
    exact answersNoMismatch_command h (answersNoMismatch_bind (two ra rb) fun p =>
      answersNoMismatch_bind (needNonzero_noMismatch p.2) fun _ => answersNoMismatch_done rfl _)
  | inv _ ra =>
    exact answersNoMismatch_command h (answersNoMismatch_bind (oneSource_noMismatch s ra) fun a =>
      answersNoMismatch_bind (needNonzero_noMismatch a) fun _ => answersNoMismatch_done rfl _)
  | pow _ ra =>
    exact answersNoMismatch_command h (answersNoMismatch_bind (oneSource_noMismatch s ra)
      fun _ => answersNoMismatch_done rfl _)
  | lmul _ ra rb =>
    exact answersNoMismatch_command h (answersNoMismatch_bind (two ra rb) fun p =>
      answersNoMismatch_bind (needLt_noMismatch s p.1) fun _ => answersNoMismatch_done rfl _)
  | ldiv _ ra rb =>
    exact answersNoMismatch_command h (answersNoMismatch_bind (two ra rb) fun p =>
      answersNoMismatch_bind (needLt_noMismatch s p.1) fun _ =>
      answersNoMismatch_bind (needNonzero_noMismatch p.2) fun _ => answersNoMismatch_done rfl _)
  | lpow _ ra =>
    exact answersNoMismatch_command h (answersNoMismatch_bind (oneSource_noMismatch s ra) fun a =>
      answersNoMismatch_bind (needLt_noMismatch s a) fun _ => answersNoMismatch_done rfl _)
  | ltrdi | ltrdp =>
    exact answersNoMismatch_command h (answersNoMismatch_bind (needLtValid_noMismatch s)
      fun _ => answersNoMismatch_test rfl rfl)
  | ltbuild imm1 =>
    refine answersNoMismatch_command h ?_
    rw [needLogDegree, needModulus_fixed hl hf]
    dsimp only [bind, Except.bind]
    split
    case h_1 k hk =>
      split at hk <;> cases hk
      exact answersNoMismatch_raise rfl rfl
    case h_2 m' _ =>
      unfold buildLt
      split
      · exact answersNoMismatch_done rfl 0
      · exact answersNoMismatch_raise rfl rfl
  | ftbuildm imm1 =>
    exact answersNoMismatch_command h (answersNoMismatch_bind (needModulus_noMismatch hl hf imm1)
      fun _ => answersNoMismatch_test rfl rfl)
  | ftbuildd imm1 =>
    exact answersNoMismatch_command h (answersNoMismatch_bind (needModulus_noMismatch hl hf imm1)
      fun m' => answersNoMismatch_bind (needFtm_noMismatch s m') fun _ =>
      answersNoMismatch_done rfl _)
  | fmul _ ra rb =>
    exact answersNoMismatch_command h (answersNoMismatch_bind (two ra rb) fun p =>
      answersNoMismatch_bind (needFtm_noMismatch s p.1.mod) fun _ => answersNoMismatch_done rfl _)
  | fdiv _ ra rb =>
    exact answersNoMismatch_command h (answersNoMismatch_bind (two ra rb) fun p =>
      answersNoMismatch_bind (needFtd_noMismatch s p.1.mod) fun _ =>
      answersNoMismatch_bind (needNonzero_noMismatch p.2) fun _ => answersNoMismatch_done rfl _)

end

/-- Settles O44. -/
theorem fixedModulusNeverMismatches : Obligations.FixedModulusNeverMismatches := by
  intro i m s t hl hf h
  obtain ⟨r, hr, h1, h3⟩ := exec_answersNoMismatch hl hf h
  refine ⟨fun r' hr' => ?_, fun ra e he => ?_⟩
  · obtain rfl : r = r' := by simpa using hr.symm.trans hr'
    exact ⟨h1, h3⟩
  · have hp := exec_params h
    rw [elem_fixed (hp ▸ hf) he, hp]
    exact ⟨rfl, degree_toNat _ m, modulusOrder_toNat _ m⟩

end Sys2Proof.Machine
end

section
/-! PROOFS, part 3. What the table builders build, and that every step keeps valid banks in
order (`10_state.md` R19, R21; `42_log_table.md` R100; `43_full_table.md` R121, R122). -/

namespace Sys2Proof.Machine

/-! ## Moduli -/

theorem goodModulus_of_modulusOk {p : Params} {m : Word} (h : p.ModulusOk m) :
    GoodModulus p.width m :=
  ⟨h.1, of_decide_eq_true h.2.1⟩

theorem needModulus_ok {p : Params} {imm1 m : Word} (h : needModulus p imm1 = .ok m) :
    m = modulusOperand p imm1 ∧ 2 ≤ m.toNat := by
  rcases Nat.lt_or_ge (modulusOperand p imm1).toNat 2 with hm | hm
  · simp [needModulus_of_lt hm] at h
  · rw [needModulus_of_ge hm] at h
    cases h
    exact ⟨rfl, hm⟩

/-- A legal modulus operand of at least 2 is a modulus of the block (`10_state.md` R15). -/
theorem modulusOperand_ok {p : Params} {imm1 : Word} (hl : p.Legal)
    (hc : p.checkModulus imm1 = none) (h2 : 2 ≤ (modulusOperand p imm1).toNat) :
    p.ModulusOk (modulusOperand p imm1) := by
  cases hf : p.fieldMode with
  | runtime =>
    rw [modulusOperand_runtime imm1 hf] at h2 ⊢
    exact ⟨h2, by simpa [Params.checkModulus, hf] using hc, by simp [Params.Admits, hf]⟩
  | fixed m =>
    rw [modulusOperand_fixed imm1 hf]
    obtain ⟨hge, hfits⟩ := fixed_modulus_legal hl hf
    exact ⟨hge, hfits, by simp [Params.Admits, hf]⟩

/-! ## The powers of the generator 2 (R100) -/

/-- The value 2 has multiplicative order `order - 1` modulo `m`. -/
structure Primitive (w : Nat) (m : Word) : Prop where
  pow_order : pow w 2 (modulusOrder w m - 1) m = 1
  pow_ne_one : ∀ i, 0 < i → i < modulusOrder w m - 1 → pow w 2 i m ≠ 1

section
variable {w : Width} {m : Word} (hm : GoodModulus w m) (hd : 2 ≤ modulusDegree w.bits m)
include hd

theorem four_le_order : 4 ≤ modulusOrder w.bits m :=
  Nat.pow_le_pow_right (n := 2) (by omega) hd

theorem below_two : Below w.bits m 2 :=
  (by decide : (2 : Word).toNat < 4).trans_le (four_le_order hd)

include hm

theorem pow_two_below (i : Nat) : Below w.bits m (pow w.bits 2 i m) :=
  polyPow_below hm (below_two hd) i

theorem pow_two_succ (i : Nat) :
    pow w.bits 2 (i + 1) m = mulReduce w.bits (pow w.bits 2 i m) 2 m :=
  polyPow_succ hm (below_two hd) i

namespace Primitive
variable (hp : Primitive w.bits m)
include hp

/-- Every power up to the order has an inverse power, so none is 0. -/
theorem pow_ne_zero {i : Nat} (hi : i < modulusOrder w.bits m - 1) : pow w.bits 2 i m ≠ 0 := by
  intro h
  have hone := hp.pow_order
  rw [show modulusOrder w.bits m - 1 = i + (modulusOrder w.bits m - 1 - i) by omega,
    polyPow_add hm (below_two hd), h, mulReduce_zero_left] at hone
  exact absurd hone (by decide)

/-- Two equal powers would make the power of the difference of their exponents 1. -/
theorem pow_injective {i j : Nat} (hij : i < j) (hj : j < modulusOrder w.bits m - 1) :
    pow w.bits 2 i m ≠ pow w.bits 2 j m := by
  intro h
  apply hp.pow_ne_one (j - i) (by omega) (by omega)
  have hadd := polyPow_add hm (below_two hd)
  calc pow w.bits 2 (j - i) m
      = mulReduce w.bits (pow w.bits 2 (modulusOrder w.bits m - 1) m) (pow w.bits 2 (j - i) m) m := by
        rw [hp.pow_order, mulReduce_one_left (pow_two_below hm hd _)]
    _ = pow w.bits 2 (j + (modulusOrder w.bits m - 1 - i)) m := by
        rw [← hadd]
        congr 1
        omega
    _ = pow w.bits 2 (i + (modulusOrder w.bits m - 1 - i)) m := by rw [hadd, ← h, ← hadd]
    _ = 1 := by
        rw [← hp.pow_order]
        congr 1
        omega

/-- `order - 1` distinct powers among as many nonzero values: every one is a power. -/
theorem exists_pow {v : Nat} (h1 : 1 ≤ v) (hv : v < modulusOrder w.bits m) :
    ∃ k, k < modulusOrder w.bits m - 1 ∧ (pow w.bits 2 k m).toNat = v := by
  have hmaps : Set.MapsTo (fun k => (pow w.bits 2 k m).toNat)
      (Finset.range (modulusOrder w.bits m - 1)) (Finset.Icc 1 (modulusOrder w.bits m - 1)) := by
    intro k hk
    have hne := pow_ne_zero hm hd hp (Finset.mem_range.mp hk)
    have hlt : (pow w.bits 2 k m).toNat < modulusOrder w.bits m := pow_two_below hm hd k
    have hpos : (pow w.bits 2 k m).toNat ≠ 0 := fun h => hne (BitVec.eq_of_toNat_eq h)
    simp only [Finset.coe_Icc, Set.mem_Icc]
    omega
  have hinj : Set.InjOn (fun k => (pow w.bits 2 k m).toNat)
      (Finset.range (modulusOrder w.bits m - 1)) := by
    intro i hi j hj hij
    have heq := BitVec.eq_of_toNat_eq hij
    rcases Nat.lt_trichotomy i j with h | h | h
    · exact absurd heq (pow_injective hm hd hp h (Finset.mem_range.mp hj))
    · exact h
    · exact absurd heq.symm (pow_injective hm hd hp h (Finset.mem_range.mp hi))
  obtain ⟨k, hk, hkv⟩ := Finset.surjOn_of_injOn_of_card_le _ hmaps hinj (by simp)
    (show v ∈ _ by simp only [Finset.coe_Icc, Set.mem_Icc]; omega)
  exact ⟨k, Finset.mem_range.mp hk, hkv⟩

end Primitive

end

/-! ## The log-table builder, pass by pass (R100) -/

/-- The builder after `n` passes. -/
def logAt (w : Nat) (m : Word) (n : Nat) : LogBuild :=
  logPasses w m n 0 (logStart (modulusOrder w m))

theorem logPasses_succ (w : Nat) (m : Word) (n i : Nat) (b : LogBuild) :
    logPasses w m (n + 1) i b = logPass w m (i + n) (logPasses w m n i b) := by
  induction n generalizing i b with
  | zero => rfl
  | succ n ih =>
    rw [logPasses, ih, logPasses, show i + 1 + n = i + (n + 1) by omega]

theorem logAt_succ (w : Nat) (m : Word) (n : Nat) :
    logAt w m (n + 1) = logPass w m n (logAt w m n) := by
  rw [logAt, logPasses_succ, Nat.zero_add, logAt]

theorem logAt_length (w : Nat) (m : Word) (n : Nat) :
    (logAt w m n).indToPol.length = modulusOrder w m - 1 ∧
    (logAt w m n).polToInd.length = modulusOrder w m := by
  simpa [logAt, logStart] using logPasses_length w m n 0 (logStart (modulusOrder w m))

/-- A successful build is read off the last pass. -/
theorem buildLogTable_logAt {w : Nat} {m : Word} {b : LogBank}
    (h : buildLogTable w m = some b) :
    (logAt w m (modulusOrder w m - 1)).ok = true ∧ (logAt w m (modulusOrder w m - 1)).cur = 1 ∧
    b.mod = m ∧
    b.indToPol = (logAt w m (modulusOrder w m - 1)).indToPol ++
      (logAt w m (modulusOrder w m - 1)).indToPol ∧
    b.polToInd = (logAt w m (modulusOrder w m - 1)).polToInd :=
  buildLogTable_some h

section
variable {w : Width} {m : Word} (hm : GoodModulus w m) (hd : 2 ≤ modulusDegree w.bits m)
include hm hd

theorem logAt_cur (n : Nat) : (logAt w.bits m n).cur = pow w.bits 2 n m := by
  induction n with
  | zero => exact (polyPow_zero _ _ _).symm
  | succ n ih => rw [logAt_succ, logPass, ih, pow_two_succ hm hd]

/-- The verdict so far: no power passed is 1. -/
theorem logAt_ok (n : Nat) :
    (logAt w.bits m n).ok = true ↔ ∀ i, 0 < i → i < n → pow w.bits 2 i m ≠ 1 := by
  induction n with
  | zero => exact iff_of_true rfl (by omega)
  | succ n ih =>
    rw [logAt_succ, logPass, logAt_cur hm hd]
    constructor
    · intro h i hi hin hone
      dsimp only at h
      split at h
      case isTrue => cases h
      case isFalse hc =>
        rcases Nat.lt_succ_iff_lt_or_eq.mp hin with hlt | rfl
        · exact ih.mp h i hi hlt hone
        · exact hc ⟨hi, hone⟩
    · intro h
      dsimp only
      rw [if_neg fun hc => h n hc.1 (Nat.lt_succ_self n) hc.2]
      exact ih.mpr fun i hi hin => h i hi (Nat.lt_succ_of_lt hin)

theorem logAt_indToPol {n : Nat} (hn : n ≤ modulusOrder w.bits m - 1) {i : Nat} (hi : i < n) :
    (logAt w.bits m n).indToPol[i]? = some (some (pow w.bits 2 i m)) := by
  induction n with
  | zero => omega
  | succ n ih =>
    have hlen := (logAt_length w.bits m n).1
    rw [logAt_succ, logPass, logAt_cur hm hd]
    dsimp only
    rcases Nat.lt_succ_iff_lt_or_eq.mp hi with hlt | rfl
    · rw [List.getElem?_set_ne (by omega), ih (by omega) hlt]
    · rw [List.getElem?_set_self (by omega)]

/-- Entry 0 of `polToInd` stays unwritten while no power passed is 0. -/
theorem logAt_polToInd_zero {n : Nat} (h0 : ∀ i, i < n → pow w.bits 2 i m ≠ 0) :
    (logAt w.bits m n).polToInd[0]? = some none := by
  induction n with
  | zero =>
    have := four_le_order hd
    rw [logAt, logPasses, logStart, List.getElem?_replicate, if_pos (by omega)]
  | succ n ih =>
    have hne : (pow w.bits 2 n m).toNat ≠ 0 := fun h =>
      h0 n (Nat.lt_succ_self n) (BitVec.eq_of_toNat_eq h)
    rw [logAt_succ, logPass, logAt_cur hm hd]
    dsimp only
    rw [List.getElem?_set_ne hne, ih fun i hi => h0 i (Nat.lt_succ_of_lt hi)]

/-- Distinct powers do not overwrite each other's entries. -/
theorem logAt_polToInd {n : Nat}
    (hinj : ∀ i j, i < j → j < n → pow w.bits 2 i m ≠ pow w.bits 2 j m) {i : Nat} (hi : i < n) :
    (logAt w.bits m n).polToInd[(pow w.bits 2 i m).toNat]? = some (some (BitVec.ofNat 64 i)) := by
  induction n with
  | zero => omega
  | succ n ih =>
    rw [logAt_succ, logPass, logAt_cur hm hd]
    dsimp only
    rcases Nat.lt_succ_iff_lt_or_eq.mp hi with hlt | rfl
    · have hne : (pow w.bits 2 n m).toNat ≠ (pow w.bits 2 i m).toNat := fun h =>
        hinj i n hlt (Nat.lt_succ_self n) (BitVec.eq_of_toNat_eq h.symm)
      rw [List.getElem?_set_ne hne, ih (fun i j hij hj => hinj i j hij (Nat.lt_succ_of_lt hj)) hlt]
    · have hlt : (pow w.bits 2 i m).toNat < modulusOrder w.bits m := pow_two_below hm hd i
      rw [List.getElem?_set_self ((logAt_length w.bits m i).2 ▸ hlt)]

/-- A successful build means that 2 is primitive. -/
theorem primitive_of_build {b : LogBank} (h : buildLogTable w.bits m = some b) :
    Primitive w.bits m := by
  obtain ⟨hok, hcur, -⟩ := buildLogTable_logAt h
  exact ⟨(logAt_cur hm hd _).symm.trans hcur, (logAt_ok hm hd _).mp hok⟩

end

/-- A successful build of a modulus that fits gives a bank in order (`10_state.md` R19). -/
theorem buildLogTable_wf {p : Params} {m : Word} {b : LogBank} (hmod : p.ModulusOk m)
    (hd : 2 ≤ modulusDegree p.bits m) (hmax : modulusDegree p.bits m ≤ p.logDegMax)
    (h : buildLogTable p.bits m = some b) : b.Wf p := by
  have hm := goodModulus_of_modulusOk hmod
  have hp := primitive_of_build hm hd h
  obtain ⟨rfl, hilen, hplen⟩ := buildLogTable_length h
  obtain ⟨-, -, -, hind, hpol⟩ := buildLogTable_logAt h
  have hlen := (logAt_length p.bits b.mod (modulusOrder p.bits b.mod - 1)).1
  have hinj := fun i j => hp.pow_injective hm hd (i := i) (j := j)
  have hlow {i} (hi : i < modulusOrder p.bits b.mod - 1) :
      b.indToPol[i]? = some (some (pow p.bits 2 i b.mod)) := by
    rw [hind, List.getElem?_append_left (hlen.symm ▸ hi)]
    exact logAt_indToPol hm hd le_rfl hi
  refine ⟨hmod, hd, hmax, hilen, hplen, ?_, fun i hi => ⟨hlow hi, ?_, hp.pow_ne_zero hm hd hi⟩,
    hinj, fun v h1 hv => ?_⟩
  · rw [hpol]
    exact logAt_polToInd_zero hm hd fun i hi => hp.pow_ne_zero hm hd hi
  · rw [hlow hi, hind, List.getElem?_append_right (by omega), hlen, Nat.add_sub_cancel]
    exact logAt_indToPol hm hd le_rfl hi
  · obtain ⟨k, hk, hkv⟩ := hp.exists_pow hm hd h1 hv
    refine ⟨k, hk, ?_, ?_⟩
    · rw [hpol, ← hkv]
      exact logAt_polToInd hm hd hinj hk
    · rw [hlow hk, ← hkv, BitVec.ofNat_toNat, BitVec.setWidth_eq]
      rfl

/-! ## Reading a log table in order (`42_log_table.md` R104 to R109) -/

section
variable {p : Params} {b : LogBank} (hb : b.Wf p)
include hb

/-- The first half of `indToPol` holds the powers of 2. -/
theorem expOf_low {i : Nat} (hi : i < modulusOrder p.bits b.mod - 1) :
    expOf b i = pow p.bits 2 i b.mod := by
  obtain ⟨-, -, -, -, -, -, hind, -⟩ := hb
  exact readEntry_of_some (hind i hi).1

/-- The doubled tail of `indToPol` holds them again. -/
theorem expOf_high {i : Nat} (hi : i < modulusOrder p.bits b.mod - 1) :
    expOf b (i + (modulusOrder p.bits b.mod - 1)) = pow p.bits 2 i b.mod := by
  obtain ⟨-, -, -, -, -, -, hind, -⟩ := hb
  obtain ⟨hlow, hhigh, -⟩ := hind i hi
  exact readEntry_of_some (hhigh.trans hlow)

theorem expOf_below {i : Nat} (hi : i < 2 * (modulusOrder p.bits b.mod - 1)) :
    Below p.bits b.mod (expOf b i) := by
  obtain ⟨hmod, hd, -⟩ := id hb
  have hm := goodModulus_of_modulusOk hmod
  rcases Nat.lt_or_ge i (modulusOrder p.bits b.mod - 1) with h | h
  · rw [expOf_low hb h]
    exact pow_two_below hm hd i
  · rw [← Nat.sub_add_cancel h, expOf_high hb (by omega)]
    exact pow_two_below hm hd _

/-- `polToInd` is the discrete logarithm to the base 2. -/
theorem logOf_spec {v : Word} (hv : Below p.bits b.mod v) (h0 : v ≠ 0) :
    logOf b v < modulusOrder p.bits b.mod - 1 ∧ pow p.bits 2 (logOf b v) b.mod = v := by
  obtain ⟨-, -, -, -, -, -, hind, -, hpol⟩ := hb
  have h1 : v.toNat ≠ 0 := fun h => h0 (BitVec.eq_of_toNat_eq h)
  obtain ⟨k, hk, hlog, hexp⟩ := hpol v.toNat (by omega) hv
  have hk' : logOf b v = k := by
    rw [logOf, readEntry_of_some hlog]
    exact toNat_ofNat_of_lt_order (w := p.width) (m := b.mod) (by unfold Params.bits at hk; omega)
  have hpow := (hind k hk).1.symm.trans hexp
  rw [hk']
  exact ⟨hk, by simpa using hpow⟩

end

/-! ## The bank `LT` under a step -/

theorem wellFormed_ltbuild {p : Params} {imm1 : Word}
    (h : (Instr.ltbuild imm1).wellFormed p = true) : p.checkModulus imm1 = none := by
  simpa [Instr.wellFormed, Instr.illFormed] using h

/-- What an instruction can leave in the bank `LT` (`42_log_table.md` R101, R102). -/
inductive LtAfter (s : State) : Option LogBank → Prop
  | same : LtAfter s s.lt
  | dropped : LtAfter s none
  /-- a table just built for a modulus that fits -/
  | built (imm1 m : Word) (b : LogBank) (hc : s.params.checkModulus imm1 = none)
      (hm : needLogDegree s.params imm1 = .ok m)
      (hb : buildLogTable s.params.bits m = some b) : LtAfter s (some b)

theorem exec_ltAfter {i : Instr} {s t : State} (h : exec i s = .next t) : LtAfter s t.lt := by
  cases hw : i.writesLt with
  | false => exact exec_lt_frame h hw ▸ .same
  | true =>
    cases i with
    | ltbuild imm1 =>
      refine command_induct (P := fun t => LtAfter s t.lt) h .same fun hwf => ?_
      cases hm : needLogDegree s.params imm1 with
      | error k => exact .same
      | ok m =>
        dsimp only [buildLt]
        cases hb : buildLogTable s.params.bits m with
        | none => exact .dropped
        | some b => exact .built imm1 m b (wellFormed_ltbuild hwf) hm hb
    | ltinv => exact command_induct (P := fun t => LtAfter s t.lt) h .same fun _ => .dropped
    | _ => exact nomatch hw

/-- Each of these is a bank in order. -/
theorem LtAfter.wf {s : State} {lt : Option LogBank} (h : LtAfter s lt) (hl : s.params.Legal)
    (hs : s.LtWf) {b : LogBank} (hb : lt = some b) : b.Wf s.params := by
  cases h with
  | same => exact hs b hb
  | dropped => cases hb
  | built imm1 m _ hc hm hbuild =>
    cases hb
    obtain ⟨rfl, h2, hd, hmax⟩ := needLogDegree_ok hm
    exact buildLogTable_wf (modulusOperand_ok hl hc h2) hd hmax hbuild

theorem exec_keeps_ltWf {i : Instr} {s t : State} (hl : s.params.Legal) (hs : s.LtWf)
    (h : exec i s = .next t) : t.LtWf := fun _ hb =>
  exec_params h ▸ (exec_ltAfter h).wf hl hs hb

/-- Settles O49: a bank is what it was, dropped, or just built. -/
theorem stepKeepsTheLogTable : Obligations.StepKeepsTheLogTable := by
  intro s t hl hs h
  rcases step_cases s with ⟨-, hstep⟩ | ⟨c, -, hstep⟩ | ⟨c, i, -, hstep⟩ <;> rw [hstep] at h
  · cases h
    exact hs
  · cases h
    exact nofun
  · exact exec_keeps_ltWf (s := advance s) hl hs h

/-! ## The full tables -/

/-- A built multiplication table is in order: the product of a pair is that of the unordered
pair (`43_full_table.md` R121). -/
theorem buildMulTable_wf {p : Params} {m : Word} (hmod : p.ModulusOk m)
    (hmax : modulusDegree p.bits m ≤ p.ftDegMax) :
    FullBank.Wf p { mod := m, mulTable := buildMulTable p.bits m, divTable := none } := by
  refine ⟨hmod, hmax, buildMulTable_length _ _, fun a b ha hb => ?_, nofun⟩
  obtain ⟨hk, hdiv, hrem⟩ := pair_index ha hb
  dsimp only
  rw [buildMulTable_getElem? _ _ hk, hdiv, hrem]
  rcases Nat.le_total a b with h | h
  · rw [min_eq_left h, max_eq_right h]
  · rw [min_eq_right h, max_eq_left h]
    exact congrArg (some <| some ·)
      (mulReduce_comm (w := p.width) (below_ofNat hb) (below_ofNat ha))

/-- A built division table keeps the bank in order (`43_full_table.md` R122). -/
theorem buildDivTable_wf {p : Params} {f : FullBank} (hf : f.Wf p) :
    FullBank.Wf p { f with divTable := some (buildDivTable p.bits f.mod) } := by
  obtain ⟨hmod, hmax, hlen, hmul, -⟩ := hf
  refine ⟨hmod, hmax, hlen, hmul, ?_⟩
  rintro _ ⟨⟩
  refine ⟨buildDivTable_length _ _, fun a b ha hb => ?_⟩
  obtain ⟨hk, hdiv, hrem⟩ := pair_index ha hb
  rw [buildDivTable_getElem? _ _ hk, hdiv, hrem]

section
variable {p : Params} {f : FullBank} (hf : f.Wf p) {a b : Word}
  (ha : Below p.bits f.mod a) (hb : Below p.bits f.mod b)
include hf ha hb

theorem readEntry_mulTable :
    readEntry .mulTable f.mulTable (a.toNat * modulusOrder p.bits f.mod + b.toNat) =
      mulReduce p.bits a b f.mod := by
  obtain ⟨-, -, -, hmul, -⟩ := hf
  simpa using readEntry_of_some (which := .mulTable) (hmul a.toNat b.toNat ha hb)

theorem readEntry_divTable {t : Table} (ht : f.divTable = some t) (h0 : b ≠ 0) :
    readEntry .divTable t (a.toNat * modulusOrder p.bits f.mod + b.toNat) =
      divide p.bits a b f.mod := by
  obtain ⟨-, -, -, -, hdiv⟩ := hf
  have h := (hdiv t ht).2 a.toNat b.toNat ha hb
  have hne : b.toNat ≠ 0 := fun h => h0 (BitVec.eq_of_toNat_eq h)
  rw [if_neg hne] at h
  simpa using readEntry_of_some (which := .divTable) h

end

theorem wellFormed_ftbuildm {p : Params} {imm1 : Word}
    (h : (Instr.ftbuildm imm1).wellFormed p = true) :
    p.hasFt = true ∧ p.checkModulus imm1 = none := by
  cases hf : p.hasFt <;> simp_all [Instr.wellFormed, Instr.illFormed, Params.checkFt]

/-- What an instruction can leave in the bank `FT` (`43_full_table.md` R123 to R125). -/
inductive FtAfter (s : State) : Option FullBank → Prop
  | same : FtAfter s s.ft
  | dropped : FtAfter s none
  /-- the products just built for a modulus that fits -/
  | products (imm1 m : Word) (hft : s.params.hasFt = true)
      (hc : s.params.checkModulus imm1 = none) (hm : needModulus s.params imm1 = .ok m)
      (hmax : modulusDegree s.params.bits m ≤ s.params.ftDegMax) :
      FtAfter s (some
        { mod := m, mulTable := buildMulTable s.params.bits m, divTable := none })
  /-- the bank with the quotients just built -/
  | quotients (f : FullBank) (hf : s.ft = some f) :
      FtAfter s (some { f with divTable := some (buildDivTable s.params.bits f.mod) })

theorem exec_ftAfter {i : Instr} {s t : State} (h : exec i s = .next t) : FtAfter s t.ft := by
  have failed (k : Failure) : FtAfter s (raise s k).ft := .same
  cases hw : i.writesFt with
  | false => exact exec_ft_frame h hw ▸ .same
  | true =>
    cases i with
    | ftbuildm imm1 =>
      refine command_induct (P := fun t => FtAfter s t.ft) h (failed _) fun hwf => ?_
      refine finish_bind_induct (P := fun t => FtAfter s t.ft) (fun k _ => failed k) fun m hm => ?_
      obtain ⟨hft, hc⟩ := wellFormed_ftbuildm hwf
      split
      case isTrue => exact failed _
      case isFalse hle => exact .products imm1 m hft hc hm (Nat.not_lt.mp hle)
    | ftbuildd imm1 =>
      refine command_induct (P := fun t => FtAfter s t.ft) h (failed _) fun _ => ?_
      refine finish_bind_induct (P := fun t => FtAfter s t.ft) (fun k _ => failed k) fun m _ => ?_
      refine finish_bind_induct (P := fun t => FtAfter s t.ft) (fun k _ => failed k) fun f hf => ?_
      obtain ⟨hsf, rfl⟩ := needFtm_ok hf
      exact .quotients f hsf
    | ftinv => exact command_induct (P := fun t => FtAfter s t.ft) h (failed _) fun _ => .dropped
    | _ => exact nomatch hw

/-- Each of these is a bank in order. -/
theorem FtAfter.wf {s : State} {ft : Option FullBank} (h : FtAfter s ft) (hl : s.params.Legal)
    (hs : s.FtWf) {f : FullBank} (hf : ft = some f) :
    s.params.hasFt = true ∧ f.Wf s.params := by
  cases h with
  | same => exact hs f hf
  | dropped => cases hf
  | products imm1 m hft hc hm hmax =>
    cases hf
    obtain ⟨rfl, h2⟩ := needModulus_ok hm
    exact ⟨hft, buildMulTable_wf (modulusOperand_ok hl hc h2) hmax⟩
  | quotients f' hf' =>
    cases hf
    obtain ⟨hft, hwf⟩ := hs f' hf'
    exact ⟨hft, buildDivTable_wf hwf⟩

theorem exec_keeps_ftWf {i : Instr} {s t : State} (hl : s.params.Legal) (hs : s.FtWf)
    (h : exec i s = .next t) : t.FtWf := fun _ hf =>
  exec_params h ▸ (exec_ftAfter h).wf hl hs hf

/-- Settles O50: a bank is what it was, dropped, or just built. -/
theorem stepKeepsTheFullTables : Obligations.StepKeepsTheFullTables := by
  intro s t hl hs h
  rcases step_cases s with ⟨-, hstep⟩ | ⟨c, -, hstep⟩ | ⟨c, i, -, hstep⟩ <;> rw [hstep] at h
  · cases h
    exact hs
  · cases h
    exact nofun
  · exact exec_keeps_ftWf (s := advance s) hl hs h

end Sys2Proof.Machine
end

section
/-! PROOFS, part 4. What every command writes into the registers, and that every step keeps all
the invariants (`10_state.md` R12, R13, R46). -/

namespace Sys2Proof.Machine

/-! ## Elements in order -/

section
variable {p : Params} {m v : Word}

/-- A reduced value is a `W`-bit quantity. -/
theorem fits_of_below (h : Below p.bits m v) : p.fits v = true := by
  have hpow : modulusOrder p.bits m ≤ 2 ^ p.bits :=
    Nat.pow_le_pow_right (by omega) (modulusDegree_lt p.width m).le
  exact decide_eq_true (h.trans_le hpow)

/-- In `FIXED(M)` mode a modulus of the block is `M`. -/
theorem modulusOperand_of_admits (h : p.Admits m) : modulusOperand p m = m := by
  unfold Params.Admits at h
  unfold modulusOperand
  cases hf : p.fieldMode with
  | runtime => rfl
  | fixed m' => exact (by simpa [hf] using h : m = m').symm

/-- An element made for a modulus of the block is in order (`10_state.md` R12). -/
theorem mkElem_wf (hm : p.ModulusOk m) (hv : p.fits v = true) : (mkElem p v m).Wf p := by
  have hdeg : (mkElem p v m).deg.toNat = modulusDegree p.bits m := degree_toNat p.width m
  have hlt := modulusDegree_lt p.width m
  have hpos := (goodModulus_of_modulusOk hm).degree_pos
  refine ⟨hm, hv, hdeg, ?_, ?_, ?_⟩ <;> rw [hdeg]
  · exact hpos
  · exact Nat.le_sub_one_of_lt hlt
  · exact modulusOrder_toNat p.width m

theorem mkElem_reduced (hv : Below p.bits m v) : (mkElem p v m).reduced = true :=
  decide_eq_true (Nat.lt_of_lt_of_eq hv (modulusOrder_toNat p.width m).symm)

end

section
variable {p : Params} {e : Elem} (he : e.Wf p)
include he

theorem Elem.Wf.ord_eq : e.ord.toNat = modulusOrder p.bits e.mod := by
  obtain ⟨-, -, hdeg, -, -, hord⟩ := he
  rw [hord, hdeg, modulusOrder_eq]

/-- `val < ord` says that the value is below the order of the modulus. -/
theorem Elem.Wf.reduced_iff : e.reduced = true ↔ Below p.bits e.mod e.val := by
  rw [Elem.reduced, decide_eq_true_eq, he.ord_eq, Below]

/-- Replacing the value keeps the field state (`40_utilities_reduction.md` R68, R69). -/
theorem Elem.Wf.with_val {v : Word} (hv : p.fits v = true) : Elem.Wf p { e with val := v } := by
  obtain ⟨hmod, -, hfield⟩ := he
  exact ⟨hmod, hv, hfield⟩

end

/-- The single source of an arithmetic command: a modulus of the block, its order, and a
reduced value. -/
theorem ready1_below {s : State} (hs : s.RegsWf) {ra : Reg} {a : Elem} (h : Ready1 s ra a) :
    s.params.ModulusOk a.mod ∧ a.ord.toNat = modulusOrder s.params.bits a.mod ∧
    Below s.params.bits a.mod a.val := by
  obtain ⟨ha, hra⟩ := h
  have hwf := hs ra a ha
  exact ⟨hwf.1, hwf.ord_eq, hwf.reduced_iff.mp hra⟩

/-- The two sources: one field, both values reduced. -/
theorem ready2_below {s : State} (hs : s.RegsWf) {ra rb : Reg} {a b : Elem}
    (h : Ready2 s ra rb a b) :
    s.params.ModulusOk a.mod ∧ a.ord.toNat = modulusOrder s.params.bits a.mod ∧
    Below s.params.bits a.mod a.val ∧ Below s.params.bits a.mod b.val := by
  obtain ⟨ha, hb, hmod, hra, hrb⟩ := h
  have hwf := hs ra a ha
  exact ⟨hwf.1, hwf.ord_eq, hwf.reduced_iff.mp hra, hmod ▸ (hs rb b hb).reduced_iff.mp hrb⟩

/-! ## What the table commands read -/

section
variable {s : State} {e : Elem}

theorem needLt_ok {b : LogBank} (h : needLt s e = .ok b) : s.lt = some b ∧ b.mod = e.mod := by
  unfold needLt at h
  split at h
  · split at h <;> cases h
    exact ⟨‹_›, ‹_›⟩
  · cases h

theorem needFtd_ok {m : Word} {t : Table} (h : needFtd s m = .ok t) :
    ∃ f, s.ft = some f ∧ f.mod = m ∧ f.divTable = some t := by
  unfold needFtd at h
  split at h
  case h_2 => cases h
  case h_1 f hf =>
    split at h
    case isFalse => cases h
    case isTrue hm =>
      split at h <;> cases h
      exact ⟨f, hf, hm, ‹_›⟩

theorem needNonzero_ok {u : Unit} (h : needNonzero e = .ok u) : e.val ≠ 0 := by
  intro h0
  simp [needNonzero_of_eq h0] at h

/-- `LMUL` answers a reduced value (`42_log_table.md` R104). -/
theorem logProduct_below {p : Params} {t : LogBank} (ht : t.Wf p) {a b : Word}
    (ha : Below p.bits t.mod a) (hb : Below p.bits t.mod b) :
    Below p.bits t.mod (if a = 0 ∨ b = 0 then 0 else expOf t (logOf t a + logOf t b)) := by
  split
  case isTrue => exact below_zero _ _
  case isFalse hne =>
    push Not at hne
    have hla := (logOf_spec ht ha hne.1).1
    have hlb := (logOf_spec ht hb hne.2).1
    exact expOf_below ht (by omega)

/-- `LDIV` answers a reduced value (`42_log_table.md` R105). -/
theorem logQuotient_below {p : Params} {t : LogBank} (ht : t.Wf p) {a b : Word}
    (ha : Below p.bits t.mod a) (hb : Below p.bits t.mod b) (hb0 : b ≠ 0) :
    Below p.bits t.mod (if a = 0 then 0 else
      expOf t (logDifference (modulusOrder p.bits t.mod) (logOf t a) (logOf t b))) := by
  split
  case isTrue => exact below_zero _ _
  case isFalse ha0 =>
    have hla := (logOf_spec ht ha ha0).1
    have hlb := (logOf_spec ht hb hb0).1
    refine expOf_below ht ?_
    unfold logDifference
    split <;> omega

/-- `LPOW` answers a reduced value (`42_log_table.md` R106). -/
theorem logPower_below {p : Params} {t : LogBank} (ht : t.Wf p) (a n : Word) :
    Below p.bits t.mod (if a = 0 then (if n = 0 then 1 else 0) else
      expOf t (logOf t a * n.toNat % (modulusOrder p.bits t.mod - 1))) := by
  obtain ⟨hmod, hd, -⟩ := id ht
  have hm := goodModulus_of_modulusOk hmod
  have hfour : 4 ≤ modulusOrder p.bits t.mod := four_le_order (w := p.width) hd
  split
  · split
    · exact below_one hm
    · exact below_zero _ _
  · have := Nat.mod_lt (logOf t a * n.toNat) (show 0 < modulusOrder p.bits t.mod - 1 by omega)
    exact expOf_below ht (by omega)

end

/-! ## What an instruction writes into the registers -/

/-- Every element `t` holds was in the same register of `s`, or is in order and, unless the
command is one of the two exceptions of R13, reduced. -/
def WritesInOrder (i : Instr) (s t : State) : Prop :=
  ∀ q e, t.elem q = some e →
    s.elem q = some e ∨ (e.Wf s.params ∧ (i.mayUnreduce = false → e.reduced = true))

section
variable {i : Instr} {s t : State}

theorem writesInOrder_raise (k : Failure) : WritesInOrder i s (raise s k) :=
  fun _ _ he => .inl he

theorem writesInOrder_of_regs (hp : t.params = s.params) (hr : t.regs = s.regs) :
    WritesInOrder i s t := fun q e he => .inl (by
  rw [← he]
  simp only [State.elem, hp, hr])

theorem writesInOrder_command {rest : State} (h : command i s rest = .next t)
    (hr : i.wellFormed s.params = true → WritesInOrder i s rest) : WritesInOrder i s t :=
  command_induct h (writesInOrder_raise _) hr

theorem writesInOrder_bind {α : Type} {c : Except Failure α}
    {f : α → Except Failure (State × Word)}
    (hf : ∀ a, c = .ok a → WritesInOrder i s (finish s (f a))) :
    WritesInOrder i s (finish s (c >>= f)) :=
  finish_bind_induct (fun k _ => writesInOrder_raise k) hf

/-- `E[rd] <- (v, m)` for a modulus of the block. -/
theorem writesInOrder_writeElem {rd : Reg} {v m r : Word} (hm : s.params.ModulusOk m)
    (hv : s.params.fits v = true) (hb : i.mayUnreduce = false → Below s.params.bits m v) :
    WritesInOrder i s (done (writeElem s rd v m) r) := by
  intro q e he
  rw [elem_done, elem_writeElem, modulusOperand_of_admits hm.2.2] at he
  split at he
  · cases he
    exact .inr ⟨mkElem_wf hm hv, fun hi => mkElem_reduced (hb hi)⟩
  · exact .inl he

/-- The end of an arithmetic command: a reduced result in the field of its source. -/
theorem writesInOrder_toDest {rd : Reg} {v m : Word} (hm : s.params.ModulusOk m)
    (hv : Below s.params.bits m v) : WritesInOrder i s (finish s (pure (toDest s rd v m))) :=
  writesInOrder_writeElem hm (fits_of_below hv) fun _ => hv

/-- `E[rd].val <- v` on a register that holds `e`. -/
theorem writesInOrder_writeVal (hs : s.RegsWf) {rd : Reg} {e : Elem} {v r : Word}
    (hrd : s.elem rd = some e) (hv : s.params.fits v = true)
    (hb : i.mayUnreduce = false → Below s.params.bits e.mod v) :
    WritesInOrder i s (done (writeVal s rd v) r) := by
  intro q e' he'
  rw [elem_done, elem_writeVal, hrd] at he'
  split at he'
  · cases he'
    have hwf := (hs rd e hrd).with_val hv
    exact .inr ⟨hwf, fun hi => hwf.reduced_iff.mpr (hb hi)⟩
  · exact .inl he'

end

theorem wellFormed_load {p : Params} {rd : Reg} {nr : Bool} {v imm1 : Word}
    (h : (Instr.load rd nr v imm1).wellFormed p = true) :
    p.fits v = true ∧ p.checkModulus imm1 = none := by
  cases hv : p.fits v <;> simp_all [Instr.wellFormed, Instr.illFormed]

theorem wellFormed_setval {p : Params} {rd : Reg} {v : Word}
    (h : (Instr.setval rd v).wellFormed p = true) : p.fits v = true := by
  cases hv : p.fits v <;> simp_all [Instr.wellFormed, Instr.illFormed]

theorem reduce_below_of_fits {p : Params} {v m : Word} (hm : p.ModulusOk m)
    (hv : p.fits v = true) : Below p.bits m (reduce p.bits v m) :=
  reduce_below (goodModulus_of_modulusOk hm) (of_decide_eq_true hv)

/-- Every instruction writes its destination in order, from every state that meets the
invariants. -/
theorem exec_writesInOrder {i : Instr} {s t : State} (hs : s.Inv) (h : exec i s = .next t) :
    WritesInOrder i s t := by
  cases i with
  | load rd nr v imm1 =>
    refine writesInOrder_command h fun hw => writesInOrder_bind fun m hm => ?_
    obtain ⟨hv, hc⟩ := wellFormed_load hw
    obtain ⟨rfl, h2⟩ := needModulus_ok hm
    have hmod := modulusOperand_ok hs.legal hc h2
    cases nr with
    | false => exact writesInOrder_toDest hmod (reduce_below_of_fits hmod hv)
    | true => exact writesInOrder_writeElem hmod hv nofun
  | setval rd v =>
    refine writesInOrder_command h fun hw => writesInOrder_bind fun e he => ?_
    exact writesInOrder_writeVal hs.regs (needReg_ok he) (wellFormed_setval hw) nofun
  | red rd =>
    refine writesInOrder_command h fun _ => writesInOrder_bind fun e he => ?_
    obtain ⟨hmod, hval, -⟩ := hs.regs rd e (needReg_ok he)
    have hv := reduce_below_of_fits hmod hval
    exact writesInOrder_writeVal hs.regs (needReg_ok he) (fits_of_below hv) fun _ => hv
  | add rd ra rb =>
    refine writesInOrder_command h fun _ => writesInOrder_bind fun p hp => ?_
    obtain ⟨hmod, -, ha, hb⟩ := ready2_below hs.regs (twoSources_ok hp)
    exact writesInOrder_toDest hmod (below_xor ha hb)
  | mul rd ra rb =>
    refine writesInOrder_command h fun _ => writesInOrder_bind fun p hp => ?_
    obtain ⟨hmod, -, ha, -⟩ := ready2_below hs.regs (twoSources_ok hp)
    exact writesInOrder_toDest hmod (mulReduce_below (goodModulus_of_modulusOk hmod) _ ha)
  | div rd ra rb =>
    refine writesInOrder_command h fun _ => writesInOrder_bind fun p hp =>
      writesInOrder_bind fun _ _ => ?_
    obtain ⟨hmod, -, ha, -⟩ := ready2_below hs.regs (twoSources_ok hp)
    exact writesInOrder_toDest hmod (divide_below (goodModulus_of_modulusOk hmod) _ ha)
  | inv rd ra =>
    refine writesInOrder_command h fun _ => writesInOrder_bind fun a ha =>
      writesInOrder_bind fun _ _ => ?_
    obtain ⟨hmod, -, hlt⟩ := ready1_below hs.regs (oneSource_ok ha)
    exact writesInOrder_toDest hmod (inverse_below (goodModulus_of_modulusOk hmod) hlt)
  | pow rd ra n =>
    refine writesInOrder_command h fun _ => writesInOrder_bind fun a ha => ?_
    obtain ⟨hmod, -, hlt⟩ := ready1_below hs.regs (oneSource_ok ha)
    exact writesInOrder_toDest hmod (polyPow_below (goodModulus_of_modulusOk hmod) hlt _)
  | lmul rd ra rb =>
    refine writesInOrder_command h fun _ => writesInOrder_bind fun p hp =>
      writesInOrder_bind fun b hb => ?_
    obtain ⟨hmod, -, ha, hb'⟩ := ready2_below hs.regs (twoSources_ok hp)
    obtain ⟨hlt, htag⟩ := needLt_ok hb
    rw [← htag] at ha hb' hmod
    have hv := logProduct_below (hs.lt b hlt) ha hb'
    dsimp only
    rw [← htag]
    exact writesInOrder_toDest hmod hv
  | ldiv rd ra rb =>
    refine writesInOrder_command h fun _ => writesInOrder_bind fun p hp =>
      writesInOrder_bind fun b hb => writesInOrder_bind fun u hu => ?_
    obtain ⟨hmod, hord, ha, hb'⟩ := ready2_below hs.regs (twoSources_ok hp)
    obtain ⟨hlt, htag⟩ := needLt_ok hb
    rw [← htag] at ha hb' hmod hord
    have hv := logQuotient_below (hs.lt b hlt) ha hb' (needNonzero_ok hu)
    dsimp only
    rw [hord, ← htag]
    exact writesInOrder_toDest hmod hv
  | lpow rd ra n =>
    refine writesInOrder_command h fun _ => writesInOrder_bind fun a ha =>
      writesInOrder_bind fun b hb => ?_
    obtain ⟨hmod, hord, -⟩ := ready1_below hs.regs (oneSource_ok ha)
    obtain ⟨hlt, htag⟩ := needLt_ok hb
    rw [← htag] at hmod hord
    have hv := logPower_below (hs.lt b hlt) a.val n
    dsimp only
    rw [hord, ← htag]
    exact writesInOrder_toDest hmod hv
  | fmul rd ra rb =>
    refine writesInOrder_command h fun _ => writesInOrder_bind fun p hp =>
      writesInOrder_bind fun f hf => ?_
    obtain ⟨hmod, hord, ha, hb⟩ := ready2_below hs.regs (twoSources_ok hp)
    obtain ⟨hft, htag⟩ := needFtm_ok hf
    rw [← htag] at ha hb hmod hord
    rw [pairIndex, hord, ← htag, readEntry_mulTable (hs.ft f hft).2 ha hb]
    exact writesInOrder_toDest hmod (mulReduce_below (goodModulus_of_modulusOk hmod) _ ha)
  | fdiv rd ra rb =>
    refine writesInOrder_command h fun _ => writesInOrder_bind fun p hp =>
      writesInOrder_bind fun t ht => writesInOrder_bind fun u hu => ?_
    obtain ⟨hmod, hord, ha, hb⟩ := ready2_below hs.regs (twoSources_ok hp)
    obtain ⟨f, hft, htag, hdiv⟩ := needFtd_ok ht
    rw [← htag] at ha hb hmod hord
    rw [pairIndex, hord, ← htag,
      readEntry_divTable (hs.ft f hft).2 ha hb hdiv (needNonzero_ok hu)]
    exact writesInOrder_toDest hmod (divide_below (goodModulus_of_modulusOk hmod) _ ha)
  | _ => exact writesInOrder_of_regs (exec_params h) (exec_regs_frame h rfl)

/-- Settles O48: what a command writes is reduced, so what is unreduced was not written. -/
theorem commandsWriteReducedValues : Obligations.CommandsWriteReducedValues := by
  intro i s t hs hi h r e he hred
  rcases exec_writesInOrder hs h r e he with hold | ⟨-, hnew⟩
  · exact hold
  · simp [hnew hi] at hred

/-! ## All the invariants -/

theorem exec_keeps_regsWf {i : Instr} {s t : State} (hs : s.Inv) (h : exec i s = .next t) :
    t.RegsWf := by
  intro r e he
  rw [exec_params h]
  rcases exec_writesInOrder hs h r e he with hold | ⟨hnew, -⟩
  · exact hs.regs r e hold
  · exact hnew

theorem exec_keeps_statusReserved {i : Instr} {s t : State} (hs : statusReserved s.status = true)
    (h : exec i s = .next t) : statusReserved t.status = true := by
  rcases exec_status h with ht | ⟨k, ht⟩ | ⟨-, ht⟩ <;> rw [ht]
  · exact hs
  · exact setFlag_reserved k hs
  · decide

theorem exec_keeps_responses {i : Instr} {s t : State} (hs : ∀ r ∈ s.responses, r.ok = true)
    (h : exec i s = .next t) : ∀ r ∈ t.responses, r.ok = true := by
  obtain ⟨r, hr, hok⟩ := exec_answers h
  intro r' hr'
  rw [hr, List.mem_append, List.mem_singleton] at hr'
  rcases hr' with hr' | rfl
  · exact hs r' hr'
  · exact hok

theorem exec_keeps_inv {i : Instr} {s t : State} (hs : s.Inv) (h : exec i s = .next t) : t.Inv where
  legal := exec_params h ▸ hs.legal
  regs := exec_keeps_regsWf hs h
  lt := exec_keeps_ltWf hs.legal hs.lt h
  ft := exec_keeps_ftWf hs.legal hs.ft h
  status := exec_keeps_statusReserved hs.status h
  responses := exec_keeps_responses hs.responses h
  pos := exec_pos h ▸ exec_inputs h ▸ hs.pos

theorem advance_keeps_inv {s : State} {x : HostInput} (hs : s.Inv) (hn : nextInput s = some x) :
    (advance s).Inv where
  legal := hs.legal
  regs := hs.regs
  lt := hs.lt
  ft := hs.ft
  status := hs.status
  responses := hs.responses
  pos := nextInput_some hn

theorem takeReset_keeps_inv {s : State} (hs : s.Inv) : (takeReset s).Inv :=
  { resetMeetsTheInvariants s.params hs.legal with
    responses := hs.responses
    pos := hs.pos }

/-- Settles O46: instructions, the move of the position and a reset keep every invariant. -/
theorem stepKeepsTheInvariants : Obligations.StepKeepsTheInvariants := by
  intro s t hs h
  rcases step_cases s with ⟨-, hstep⟩ | ⟨c, hn, hstep⟩ | ⟨c, i, hn, hstep⟩ <;> rw [hstep] at h
  · cases h
    exact hs
  · cases h
    exact takeReset_keeps_inv (advance_keeps_inv hs hn)
  · exact exec_keeps_inv (advance_keeps_inv hs hn) h

/-- Settles O47: the field states are among the invariants. -/
theorem stepKeepsFieldStates : Obligations.StepKeepsFieldStates := by
  intro s t hs h r e he
  obtain ⟨⟨h2, -⟩, -, hfield⟩ := (stepKeepsTheInvariants s t hs h).regs r e he
  exact ⟨h2, hfield⟩

end Sys2Proof.Machine
end

section
/-! PROOFS, part 3. The decoder and the encoder (`30_encoding.md` R41 to R46). -/

namespace Sys2Proof

/-! ## The rows of the opcode map (R43) -/

/-- No two rows have the same opcode. -/
theorem opcodes_nodup : (opcodeRows.map Row.opcode).Nodup := by decide

theorem row_eq_of_opcode {r r' : Row} (hr : r ∈ opcodeRows) (hr' : r' ∈ opcodeRows)
    (h : r.opcode = r'.opcode) : r = r' :=
  List.inj_on_of_nodup_map opcodes_nodup hr hr' h

/-- Every row fixes the opcode and the bits 11:9, which are in no field (R41). -/
theorem row_mask_covers : ∀ r ∈ opcodeRows, r.mask.extractLsb' 24 8 = BitVec.allOnes 8 ∧
    r.mask.extractLsb' 9 3 = BitVec.allOnes 3 ∧ r.pattern.extractLsb' 9 3 = 0 := by decide

/-- Where the mask of a row covers a field, a word of the row has the field of its match. -/
theorem extract_of_masked {cw mask pattern : BitVec 32} (h : cw &&& mask = pattern) {lo n : Nat}
    (hm : mask.extractLsb' lo n = BitVec.allOnes n) :
    cw.extractLsb' lo n = pattern.extractLsb' lo n := by
  rw [← h, BitVec.extractLsb'_and, hm, BitVec.and_allOnes]

/-- Settles O4: two words of the map agree under two rows only if the rows' opcodes do. -/
theorem opcodeRowsNeverOverlap : Obligations.OpcodeRowsNeverOverlap := by
  refine ⟨rfl, (List.pairwise_map.1 opcodes_nodup).imp_of_mem fun {r r'} hr hr' hne cw h => hne ?_⟩
  obtain ⟨hm, hm'⟩ := h
  exact (extract_of_masked hm (row_mask_covers r hr).1).symm.trans
    (extract_of_masked hm' (row_mask_covers r' hr').1)

/-! ## Decoding goes through one row (R44, R45) -/

/-- The command has the form of the row: its word under the mask, and the immediates the row
does not use at zero. -/
def Row.Matches (r : Row) (c : Command) : Prop :=
  c.cw &&& r.mask = r.pattern ∧ (r.usesImm0 = true ∨ c.imm0 = 0) ∧ (r.usesImm1 = true ∨ c.imm1 = 0)

theorem find_row {r : Row} {c : Command} (hr : r ∈ opcodeRows) (ho : r.opcode = c.opcode) :
    opcodeRows.find? (fun r => r.opcode == c.opcode) = some r := by
  cases hf : opcodeRows.find? (fun r => r.opcode == c.opcode) with
  | none => simpa [ho] using List.find?_eq_none.1 hf r hr
  | some r' =>
    have ho' : r'.opcode = c.opcode := by simpa using List.find?_some hf
    rw [row_eq_of_opcode (List.mem_of_find?_eq_some hf) hr (ho'.trans ho.symm)]

/-- A command with the opcode of a row decodes exactly when it has the row's form, and then to
the instruction the row builds. -/
theorem decode_ok_iff_of_row {r : Row} {c : Command} (hr : r ∈ opcodeRows)
    (ho : r.opcode = c.opcode) (i : Instr) :
    decode c = .ok i ↔ r.Matches c ∧ r.build c = i := by
  constructor
  · intro h
    simp only [decode, find_row hr ho] at h
    split_ifs at h with hm h0 h1
    refine ⟨⟨not_not.1 hm, ?_, ?_⟩, Except.ok.inj h⟩
    · simpa [or_iff_not_imp_left] using h0
    · simpa [or_iff_not_imp_left] using h1
  · rintro ⟨⟨hm, h0, h1⟩, rfl⟩
    exact decode_of_row (find_row hr ho) hm h0 h1

/-- A command that decodes has the opcode of a row. -/
theorem exists_row_of_decode_ok {c : Command} {i : Instr} (h : decode c = .ok i) :
    ∃ r ∈ opcodeRows, r.opcode = c.opcode := by
  cases hf : opcodeRows.find? (fun r => r.opcode == c.opcode) with
  | none => simp [decode, hf] at h
  | some r => exact ⟨r, List.mem_of_find?_eq_some hf, by simpa using List.find?_some hf⟩

/-! ## A command is spelled again from its row's fields (R41, R43) -/

/-- The field of `n` bits at `lo` as the row gives it: the match's where the mask covers the
field, else the command's. -/
def Row.field (r : Row) (c : Command) (lo n : Nat) : BitVec n :=
  if r.mask.extractLsb' lo n = BitVec.allOnes n then r.pattern.extractLsb' lo n
  else c.cw.extractLsb' lo n

/-- The command put together from the fields the row gives. -/
def Row.respell (r : Row) (c : Command) : Command where
  cw := commandWord (r.field c 24 8) (r.field c 20 4) (r.field c 16 4) (r.field c 12 4)
    (if r.mask.getLsbD 8 then r.pattern.getLsbD 8 else c.nr) (r.field c 0 8)
  imm0 := if r.usesImm0 then c.imm0 else 0
  imm1 := if r.usesImm1 then c.imm1 else 0

theorem field_of_masked {r : Row} {c : Command} (h : c.cw &&& r.mask = r.pattern) (lo n : Nat) :
    r.field c lo n = c.cw.extractLsb' lo n := by
  unfold Row.field
  split
  case isTrue hm => exact (extract_of_masked h hm).symm
  case isFalse => rfl

theorem nr_of_masked {r : Row} {c : Command} (h : c.cw &&& r.mask = r.pattern) :
    (if r.mask.getLsbD 8 then r.pattern.getLsbD 8 else c.nr) = c.nr := by
  split
  case isTrue hm => rw [← h, BitVec.getLsbD_and, hm, Bool.and_true, Command.nr]
  case isFalse => rfl

/-- A bit of a field is a bit of its word. -/
theorem getLsbD_field (w : BitVec 32) {lo n k : Nat} (hlo : lo ≤ k) (hk : k < lo + n) :
    (w.extractLsb' lo n).getLsbD (k - lo) = w.getLsbD k := by
  rw [BitVec.getLsbD_extractLsb', Nat.add_sub_of_le hlo, decide_eq_true (by omega), Bool.true_and]

/-- A word whose bits 11:9 are zero is put together from its fields. -/
theorem commandWord_fields (c : Command) (h : c.cw.extractLsb' 9 3 = 0) :
    commandWord c.opcode c.rd c.ra c.rb c.nr c.imm8 = c.cw := by
  apply BitVec.eq_of_getLsbD_eq
  intro k hk
  rw [commandWord_getLsbD _ _ _ _ _ _ _ hk]
  split_ifs with h8 h9 h12 h16 h20 h24
  · exact getLsbD_field c.cw (Nat.zero_le k) (by omega)
  · rw [show k = 8 by omega, Command.nr]
  · rw [← getLsbD_field c.cw (lo := 9) (n := 3) (by omega) (by omega), h, BitVec.ofNat_eq_ofNat,
      BitVec.getLsbD_zero]
  · exact getLsbD_field c.cw (by omega) (by omega)
  · exact getLsbD_field c.cw (by omega) (by omega)
  · exact getLsbD_field c.cw (by omega) (by omega)
  · exact getLsbD_field c.cw (by omega) (by omega)

/-- A command of a row's form is the one put together from the fields. -/
theorem respell_of_matches {r : Row} {c : Command} (hr : r ∈ opcodeRows) (h : r.Matches c) :
    r.respell c = c := by
  obtain ⟨hm, h0, h1⟩ := h
  obtain ⟨-, hmask, hzero⟩ := row_mask_covers r hr
  have hw : (r.respell c).cw = c.cw := by
    simp only [Row.respell, field_of_masked hm, nr_of_masked hm]
    exact commandWord_fields c ((extract_of_masked hm hmask).trans hzero)
  have hi0 : (r.respell c).imm0 = c.imm0 := by
    rcases h0 with h | h <;> simp [Row.respell, h]
  have hi1 : (r.respell c).imm1 = c.imm1 := by
    rcases h1 with h | h <;> simp [Row.respell, h]
  calc r.respell c = ⟨(r.respell c).cw, (r.respell c).imm0, (r.respell c).imm1⟩ := rfl
    _ = c := by rw [hw, hi0, hi1]

/-- The encoder writes exactly the fields a row gives, row by row. -/
theorem encode_build {r : Row} (hr : r ∈ opcodeRows) (c : Command) :
    encode (r.build c) = r.respell c := by
  fin_cases hr <;> rfl

/-- Settles O2: the row that decodes the command puts it together again. -/
theorem decodedCommandEncodesBack : Obligations.DecodedCommandEncodesBack := by
  intro c i h
  obtain ⟨r, hr, ho⟩ := exists_row_of_decode_ok h
  obtain ⟨hm, rfl⟩ := (decode_ok_iff_of_row hr ho i).1 h
  rw [encode_build hr, respell_of_matches hr hm]

/-! ## An encoded instruction decodes back (R45) -/

/-- The row found for an instruction's command builds that instruction. -/
theorem build_encode {i : Instr} {r : Row}
    (h : opcodeRows.find? (fun r => r.opcode == (encode i).opcode) = some r) :
    r.build (encode i) = i := by
  cases i <;> simp only [encode, commandWord_opcode] at h <;> cases h <;>
    simp only [encode, commandWord_rd, commandWord_ra, commandWord_rb, commandWord_nr,
      commandWord_imm8]

/-- The command that spells an instruction has the form of its row. -/
theorem encode_matches : ∀ i : Instr, Laws.Encoding.Statement i
  | .load rd nr v m => Laws.Encoding.load rd nr v m
  | .setval rd v => Laws.Encoding.setval rd v
  | .red rd => Laws.Encoding.red rd
  | .getval ra => Laws.Encoding.getval ra
  | .getmod ra => Laws.Encoding.getmod ra
  | .getdeg ra => Laws.Encoding.getdeg ra
  | .getord ra => Laws.Encoding.getord ra
  | .poldeg ra startPos => Laws.Encoding.poldeg ra startPos
  | .mdeg m => Laws.Encoding.mdeg m
  | .getstat => Laws.Encoding.getstat
  | .clrstat => Laws.Encoding.clrstat
  | .add rd ra rb => Laws.Encoding.add rd ra rb
  | .mul rd ra rb => Laws.Encoding.mul rd ra rb
  | .div rd ra rb => Laws.Encoding.div rd ra rb
  | .inv rd ra => Laws.Encoding.inv rd ra
  | .pow rd ra n => Laws.Encoding.pow rd ra n
  | .cmpeq ra rb => Laws.Encoding.cmpeq ra rb
  | .cmpne ra rb => Laws.Encoding.cmpne ra rb
  | .cmplt ra rb => Laws.Encoding.cmplt ra rb
  | .cmple ra rb => Laws.Encoding.cmple ra rb
  | .cmpgt ra rb => Laws.Encoding.cmpgt ra rb
  | .cmpge ra rb => Laws.Encoding.cmpge ra rb
  | .ltbuild m => Laws.Encoding.ltbuild m
  | .ltinv => Laws.Encoding.ltinv
  | .lmul rd ra rb => Laws.Encoding.lmul rd ra rb
  | .ldiv rd ra rb => Laws.Encoding.ldiv rd ra rb
  | .lpow rd ra n => Laws.Encoding.lpow rd ra n
  | .ltrdi index => Laws.Encoding.ltrdi index
  | .ltrdp v => Laws.Encoding.ltrdp v
  | .ftbuildm m => Laws.Encoding.ftbuildm m
  | .ftbuildd m => Laws.Encoding.ftbuildd m
  | .ftinv => Laws.Encoding.ftinv
  | .fmul rd ra rb => Laws.Encoding.fmul rd ra rb
  | .fdiv rd ra rb => Laws.Encoding.fdiv rd ra rb

/-- Settles O1: the row of the instruction's opcode matches its command and builds it. -/
theorem encodedInstructionDecodesBack : Obligations.EncodedInstructionDecodesBack := by
  intro i
  obtain ⟨r, hf, hm, h0, h1⟩ := encode_matches i
  rw [decode_of_row hf hm h0 h1, build_encode hf]

/-- Settles O7: fixed commands, decoded by computation. -/
theorem wordsOfTheSpecDecode : Obligations.WordsOfTheSpecDecode :=
  ⟨rfl, rfl, rfl, rfl, rfl, rfl, rfl, rfl, rfl, rfl, rfl, rfl, rfl, rfl⟩

end Sys2Proof
end

section
/-! PROOFS, part 4. The byte images of commands and responses (`30_encoding.md` R47). -/

namespace Sys2Proof

theorem leBytes_length (n w : Nat) : (leBytes n w).length = n := by
  simp [leBytes]

/-- Byte `k` of a word's image is the field of its bits from `8 * k` on. -/
theorem leBytes_getElem? {m n k : Nat} (x : BitVec m) (h : k < n) :
    (leBytes n x.toNat)[k]? = some (x.extractLsb' (8 * k) 8) := by
  simp [leBytes, h, BitVec.extractLsb']

/-- The image is the low byte, then the image of the rest. -/
theorem leBytes_succ (n w : Nat) :
    leBytes (n + 1) w = BitVec.ofNat 8 w :: leBytes n (w >>> 8) := by
  simp [leBytes, List.range_succ_eq_map, Nat.mul_add, Nat.shiftRight_add, Nat.add_comm _ 8]

theorem leNat_leBytes (n w : Nat) : leNat (leBytes n w) = w % 2 ^ (8 * n) := by
  induction n generalizing w with
  | zero => simp [leBytes, leNat, Nat.mod_one]
  | succ n ih =>
    rw [leBytes_succ, leNat, ih, BitVec.toNat_ofNat, Nat.shiftRight_eq_div_pow,
      show 2 ^ (8 * (n + 1)) = 2 ^ 8 * 2 ^ (8 * n) by ring, Nat.mod_mul]
    rfl

/-- Reading the image of a word of whole bytes gives the word. -/
theorem ofNat_leNat_leBytes (n : Nat) (x : BitVec (8 * n)) :
    BitVec.ofNat (8 * n) (leNat (leBytes n x.toNat)) = x := by
  rw [leNat_leBytes, Nat.mod_eq_of_lt x.isLt, BitVec.ofNat_toNat, BitVec.setWidth_eq]

theorem image_length (c : Command) : c.image.length = 20 := by
  simp [Command.image, leBytes_length]

/-- Reading the image of a command gives the command. -/
theorem ofImage_image (c : Command) : Command.ofImage c.image = .ok c := by
  have htake : c.image.take 4 = leBytes 4 c.cw.toNat := by
    simp [Command.image, leBytes_length]
  have hmid : (c.image.drop 4).take 8 = leBytes 8 c.imm0.toNat := by
    simp [Command.image, leBytes_length]
  have hdrop : c.image.drop 12 = leBytes 8 c.imm1.toNat := by
    simp [Command.image, List.drop_append, leBytes_length]
  rw [Command.ofImage, if_pos (image_length c), htake, hmid, hdrop,
    ofNat_leNat_leBytes 4 c.cw, ofNat_leNat_leBytes 8 c.imm0, ofNat_leNat_leBytes 8 c.imm1]

/-- Past a first part of `n` bytes stands the second. -/
theorem getElem?_append_add {l l' : List Byte} {n : Nat} (h : l.length = n) (k : Nat) :
    (l ++ l')[n + k]? = l'[k]? := by
  rw [List.getElem?_append_right (by omega), h, Nat.add_sub_cancel_left]

/-- Settles O3: an image is the parts' images one after another. -/
theorem canonicalImagesAreLittleEndian : Obligations.CanonicalImagesAreLittleEndian := by
  refine ⟨fun c => ⟨image_length c, ofImage_image c, fun k hk => ?_, fun k hk => ?_,
    fun k hk => ?_⟩, fun r => ⟨rfl, ?_, fun k hk => ?_⟩⟩
  · rw [← leBytes_getElem? c.cw hk, Command.image, List.append_assoc,
      List.getElem?_append_left (by rwa [leBytes_length])]
  · rw [← leBytes_getElem? c.imm0 hk, Command.image, List.append_assoc,
      getElem?_append_add (leBytes_length 4 _),
      List.getElem?_append_left (by rwa [leBytes_length])]
  · rw [← leBytes_getElem? c.imm1 hk, Command.image,
      getElem?_append_add (by simp [leBytes_length])]
  · exact congrArg some (BitVec.ofNat_toNat 8 r.err)
  · rw [← leBytes_getElem? r.res hk, Machine.responseImage,
      getElem?_append_add (leBytes_length 1 _)]

end Sys2Proof
end

section
/-! PROOFS, part 5. Illegal commands (`30_encoding.md` R44, `60_exceptions.md` R146). -/

namespace Sys2Proof

/-! ## The conditions of R44, row by row -/

/-- The part of R44 that a row's form leaves open: the option (b), the unused `IMM1` of
`FIXED(M)` mode and the width of an operand (d), `startPos` (e). -/
def Command.OperandIllegal (p : Params) (c : Command) : Prop :=
  let op := c.opcode.toNat
  let takesModulus := op = 0x01 ∨ op = 0x30 ∨ op = 0x40 ∨ op = 0x41
  (0x40 ≤ op ∧ op ≤ 0x44 ∧ p.hasFt = false) ∨
  (takesModulus ∧ p.fieldMode ≠ .runtime ∧ c.imm1 ≠ 0) ∨
  ((op = 0x01 ∨ op = 0x02) ∧ p.fits c.imm0 = false) ∨
  ((op = 0x09 ∨ (takesModulus ∧ p.fieldMode = .runtime)) ∧ p.fits c.imm1 = false) ∨
  (op = 0x08 ∧ c.imm8 = 0)

/-- Which rows use `IMM0` and `IMM1` (R42), by opcode. -/
theorem row_usesImm : ∀ r ∈ opcodeRows,
    (r.usesImm0 = true ↔ r.opcode.toNat ∈ [0x01, 0x02, 0x14, 0x34, 0x35, 0x36]) ∧
    (r.usesImm1 = true ↔ r.opcode.toNat ∈ [0x01, 0x09, 0x30, 0x40, 0x41]) := by decide

theorem illegal_iff_of_row {r : Row} {c : Command} (hr : r ∈ opcodeRows)
    (ho : r.opcode = c.opcode) (p : Params) :
    c.Illegal p ↔ ¬ r.Matches c ∨ c.OperandIllegal p := by
  have ha : ¬ ∀ r ∈ opcodeRows, r.opcode ≠ c.opcode := fun h => h r hr ho
  have hc : (∃ r ∈ opcodeRows, r.opcode = c.opcode ∧ c.cw &&& r.mask ≠ r.pattern) ↔
      c.cw &&& r.mask ≠ r.pattern :=
    ⟨fun ⟨r', hr', ho', h⟩ => row_eq_of_opcode hr' hr (ho'.trans ho.symm) ▸ h,
      fun h => ⟨r, hr, ho, h⟩⟩
  obtain ⟨h0, h1⟩ := row_usesImm r hr
  rw [ho] at h0 h1
  simp only [Command.Illegal, ha, hc, ← h0, ← h1, Row.Matches, Command.OperandIllegal, not_and_or,
    not_or, false_or, or_assoc, or_left_comm, ne_eq]

/-- A modulus operand is `W` bits wide in `RUNTIME` mode and zero in `FIXED(M)` mode (R15,
R42). -/
theorem checkModulus_eq_none_iff (p : Params) (m : Word) : p.checkModulus m = none ↔
    (p.fieldMode ≠ .runtime → m = 0) ∧ (p.fieldMode = .runtime → p.fits m = true) := by
  unfold Params.checkModulus
  cases p.fieldMode <;> simp

theorem checkFt_eq_none_iff (p : Params) : p.checkFt = none ↔ p.hasFt = true := by
  simp [Params.checkFt]

theorem wellFormed_load_iff (p : Params) (rd : Reg) (nr : Bool) (v m : Word) :
    (Instr.load rd nr v m).wellFormed p = true ↔
      p.fits v = true ∧ p.checkModulus m = none := by
  cases hv : p.fits v <;> simp [Instr.wellFormed, Instr.illFormed, hv]

/-- The instruction a row builds is legal exactly when its operands are. -/
theorem wellFormed_build_iff {r : Row} {c : Command} (hr : r ∈ opcodeRows)
    (ho : r.opcode = c.opcode) (p : Params) :
    (r.build c).wellFormed p = true ↔ ¬ c.OperandIllegal p := by
  unfold Command.OperandIllegal
  rw [← ho]
  fin_cases hr
  · -- `LOAD`, the one row with two operands to refuse
    simp [Row.opcode, wellFormed_load_iff, checkModulus_eq_none_iff, and_comm, and_assoc]
  all_goals
    simp [Row.opcode, Instr.wellFormed, Instr.illFormed, checkModulus_eq_none_iff,
      checkFt_eq_none_iff]

/-- Settles O5: with the opcode of a row, row by row; with no such opcode a command meets (a)
and does not decode. -/
theorem illegalExactlyByTheFiveConditions : Obligations.IllegalExactlyByTheFiveConditions := by
  intro p c
  by_cases h : ∃ r ∈ opcodeRows, r.opcode = c.opcode
  · obtain ⟨r, hr, ho⟩ := h
    have hlegal : (∃ i, decode c = .ok i ∧ i.wellFormed p = true) ↔
        r.Matches c ∧ ¬ c.OperandIllegal p :=
      calc (∃ i, decode c = .ok i ∧ i.wellFormed p = true)
          ↔ r.Matches c ∧ (r.build c).wellFormed p = true := by
            simp only [decode_ok_iff_of_row hr ho, and_assoc, exists_and_left, exists_eq_left']
        _ ↔ r.Matches c ∧ ¬ c.OperandIllegal p := by rw [wellFormed_build_iff hr ho]
    rw [illegal_iff_of_row hr ho, hlegal, not_and_or, not_not]
  · constructor
    · rintro - ⟨i, hi, -⟩
      exact h (exists_row_of_decode_ok hi)
    · exact fun _ => .inl fun r hr ho => h ⟨r, hr, ho⟩

end Sys2Proof

namespace Sys2Proof.Machine

/-! ## The effect of an illegal command (R50 step 1, R146) -/

/-- Every instruction runs the template of `command`. -/
theorem exec_eq_command (i : Instr) (s : State) : ∃ rest, exec i s = command i s rest := by
  cases i <;> exact ⟨_, rfl⟩

/-- An illegal command has the one effect of `IllegalCommand`, whichever half of the legality
test refuses it. -/
theorem runCommand_illegal {c : Command} {s : State} (h : c.Illegal s.params) :
    runCommand c s = .next (raise s .illegalCommand) := by
  have hlegal := (illegalExactlyByTheFiveConditions s.params c).1 h
  unfold runCommand
  cases hd : decode c with
  | error e => rfl
  | ok i =>
    obtain ⟨rest, hrest⟩ := exec_eq_command i s
    have hw : i.wellFormed s.params = false := by
      simpa using fun hw => hlegal ⟨i, hd, hw⟩
    exact hrest.trans (command_illegal rest hw)

/-- Settles O6. -/
theorem illegalCommandWritesOnlyItsFlag : Obligations.IllegalCommandWritesOnlyItsFlag := by
  intro s c hn hc
  have hstep : step s = runCommand c (advance s) := by simp only [step, hn]
  exact ⟨hstep.trans (runCommand_illegal (s := advance s) hc), rfl, rfl, rfl, rfl⟩

end Sys2Proof.Machine
end

section
/-! PROOFS, part 6. The frame of the registers (`30_encoding.md` R43) and the signal level of the
ports (R51). -/

namespace Sys2Proof.Machine

/-- Settles O38: an instruction writes no register, or its destination alone. -/
theorem onlyTheDestinationRegisterChanges : Obligations.OnlyTheDestinationRegisterChanges := by
  intro i s t h
  refine ⟨fun r hr => ?_, exec_params h, exec_inputs h, exec_pos h⟩
  cases exec_ends h with
  | writesReg rd e v hd =>
    have hne : r ≠ rd := fun hrd => hr (hrd ▸ hd)
    exact elem_setReg_of_ne s (some e) hne
  | _ => rfl

/-! ## One transaction at the signal level -/

/-- The edge that ends a command presents the response and keeps the rest of its effect. -/
theorem completeCommand_eq {p : PortState} {c : Command} {t : State} {r : Response}
    (ht : runCommand c p.machine = .next t) (hr : t.responses = p.machine.responses ++ [r]) :
    completeCommand p c =
      { p with machine := { t with responses := p.machine.responses }, phase := .answering r } := by
  simp only [completeCommand, ht, hr, List.getLast?_concat]

/-- A command answers with a next state and one response more. -/
theorem runCommand_answers (c : Command) (s : State) :
    ∃ t r, runCommand c s = .next t ∧ t.responses = s.responses ++ [r] := by
  obtain ⟨i, hi⟩ := runCommand_eq_exec c s
  obtain ⟨t, ht⟩ := exec_next i s
  obtain ⟨r, hr, -⟩ := exec_answers ht
  exact ⟨t, r, hi.trans ht, hr⟩

theorem clockEdges_cons (p : PortState) (j : PortIn) (is : List PortIn) :
    clockEdges p (j :: is) = clockEdges (clockEdge p j) is := rfl

theorem clockEdges_concat (p : PortState) (is : List PortIn) (j : PortIn) :
    clockEdges p (is ++ [j]) = clockEdge (clockEdges p is) j := List.foldl_concat ..

/-- While a command is in progress, each edge without `rst` takes one cycle off. -/
theorem clockEdges_executing (p : PortState) (c : Command) {is : List PortIn} {left : Nat}
    (hrst : ∀ j ∈ is, j.rst = false) (hlen : is.length ≤ left) :
    clockEdges { p with phase := .executing c left } is =
      { p with phase := .executing c (left - is.length) } := by
  induction is generalizing left with
  | nil => rfl
  | cons j is ih =>
    obtain ⟨hj, his⟩ := List.forall_mem_cons.1 hrst
    rw [List.length_cons] at hlen ⊢
    obtain ⟨left, rfl⟩ : ∃ n, left = n + 1 := ⟨left - 1, by omega⟩
    have hedge : clockEdge { p with phase := .executing c (left + 1) } j =
        { p with phase := .executing c left } := by simp [clockEdge, hj]
    rw [clockEdges_cons, hedge, ih his (by omega), Nat.add_sub_add_right]

section
variable {p : PortState} {c : Command} {is : List PortIn}

/-- For as many edges as the latency has cycles, less one, an accepted command is in progress. -/
theorem clockEdges_accept_waits (hrst : ∀ j ∈ is, j.rst = false)
    (hlen : is.length < Config.latency p.accepted) :
    clockEdges (acceptCommand p c) is =
      { p with
        phase := .executing c (Config.latency p.accepted - 1 - is.length)
        accepted := p.accepted + 1 } := by
  obtain ⟨n, hn⟩ : ∃ n, Config.latency p.accepted = n + 1 := ⟨_, (Nat.succ_pred (by omega)).symm⟩
  simp only [acceptCommand, hn]
  exact clockEdges_executing { p with accepted := p.accepted + 1 } c hrst (by omega)

/-- After as many edges as the latency has cycles, an accepted command is answered. -/
theorem clockEdges_accept_answers {t : State} {r : Response} (hrst : ∀ j ∈ is, j.rst = false)
    (hlen : is.length = Config.latency p.accepted) (ht : runCommand c p.machine = .next t)
    (hr : t.responses = p.machine.responses ++ [r]) :
    clockEdges (acceptCommand p c) is =
      { machine := { t with responses := p.machine.responses }
        phase := .answering r
        accepted := p.accepted + 1 } := by
  rcases List.eq_nil_or_concat is with rfl | ⟨is, j, rfl⟩
  · have h0 : Config.latency p.accepted = 0 := hlen.symm
    simp only [acceptCommand, h0]
    exact completeCommand_eq (p := { p with accepted := p.accepted + 1 }) ht hr
  · rw [List.concat_eq_append] at hrst hlen ⊢
    rw [List.length_append, List.length_singleton] at hlen
    obtain ⟨his, hj⟩ := List.forall_mem_append.1 hrst
    have hleft : Config.latency p.accepted - 1 - is.length = 0 := by omega
    rw [clockEdges_concat, clockEdges_accept_waits his (by omega), hleft]
    simp only [clockEdge, hj j (List.mem_singleton_self j)]
    exact completeCommand_eq ht hr

end

/-- Settles O13. -/
theorem portsCarryOneTransaction : Obligations.PortsCarryOneTransaction := by
  refine ⟨fun p i hi => ?_, fun p i hp hi => ?_, fun p i is hp hi hv hrst hlen => ?_⟩
  · simp [PortState.outputs, clockEdge, hi]
  · simp +contextual [PortState.outputs, clockEdge, hi, hp]
  · obtain ⟨t, r, ht, hr⟩ := runCommand_answers i.cmd p.machine
    have haccept : clockEdge p i = acceptCommand p i.cmd := by simp [clockEdge, hi, hp, hv]
    rw [haccept]
    have hanswer := clockEdges_accept_answers hrst hlen ht hr
    refine ⟨t, r, ht, hr, fun n hn => ?_, ?_, fun j hj hrdy => ?_, fun j hj hrdy => ?_⟩
    · rw [clockEdges_accept_waits (fun j hj => hrst j (List.mem_of_mem_take hj))
        (by rw [List.length_take]; omega)]
      rfl
    · rw [hanswer]
      rfl
    · simp [hanswer, clockEdge, hj, hrdy]
    · simp [hanswer, clockEdge, hj, hrdy, respond, ← hr]

end Sys2Proof.Machine
end

section
/-! PROOFS, part 7. Bit scans and reduction as a remainder (`40_utilities_reduction.md` R60 to
R64). -/

namespace Sys2Proof.Machine

/-! ## Bit scans (R60, R61) -/

/-- The scan finds the highest set bit below its start. -/
theorem scanDown_of_leading {m : Word} {n p : Nat} (hp : p < n) (hbit : m.getLsbD p = true)
    (hclear : ∀ q, p < q → q < n → m.getLsbD q = false) : scanDown m n = p := by
  induction n with
  | zero => omega
  | succ n ih =>
    rw [scanDown]
    rcases Nat.eq_or_lt_of_le (Nat.le_of_lt_succ hp) with rfl | hpn
    · rw [if_pos hbit]
    · rw [hclear n hpn n.lt_succ_self, if_neg nofun]
      exact ih hpn fun q hpq hqn => hclear q hpq (hqn.trans n.lt_succ_self)

/-- The scan of bits that are all clear ends at 0. -/
theorem scanDown_of_clear {m : Word} {n : Nat} (hclear : ∀ q, q < n → m.getLsbD q = false) :
    scanDown m n = 0 := by
  induction n with
  | zero => rfl
  | succ n ih =>
    rw [scanDown, hclear n n.lt_succ_self, if_neg nofun]
    exact ih fun q hq => hclear q (hq.trans n.lt_succ_self)

/-- R61's passes from `i` on test the bits `width - i` down to 0. -/
theorem leadingScan_eq_scanDown (v : Word) (width : Nat) {n i : Nat} (hn : n = width + 1 - i) :
    leadingScan v width n i = scanDown v n := by
  induction n generalizing i with
  | zero => rfl
  | succ n ih =>
    have hbit : width - i = n := by omega
    rw [leadingScan, scanDown, hbit, ih (by omega)]

/-- R61 scans the positions that are at most `width - startPos`, none when `startPos` is larger
than `width`. -/
theorem leadingBitPosition_eq_scanDown (v : Word) (startPos width : Nat) :
    leadingBitPosition v startPos width = scanDown v (width + 1 - startPos) :=
  leadingScan_eq_scanDown v width rfl

/-- Settles O51: both functions are one scan down, from their own starts. -/
theorem bitScansFindTheLeadingBit : Obligations.BitScansFindTheLeadingBit := by
  refine ⟨fun w m p => scanDown_of_leading, fun w m => scanDown_of_clear, ?_, ?_, fun w m => ?_⟩
  · intro width startPos p v _ hp hbit hclear
    rw [leadingBitPosition_eq_scanDown]
    exact scanDown_of_leading (by omega) hbit fun q hpq hq => hclear q hpq (by omega)
  · intro width startPos v _ hclear
    rw [leadingBitPosition_eq_scanDown]
    exact scanDown_of_clear fun q hq => hclear q (by omega)
  · exact (leadingBitPosition_eq_scanDown m 1 w.bits).symm

/-! ## Multiples of a polynomial

The carry-less multiples of `m` are closed under exclusive or and contain every shift of `m`, so
congruence modulo `m` is an equivalence that exclusive or respects. -/

theorem clmulBelow_xor_left (a a' b n : Nat) :
    clmulBelow (a ^^^ a') b n = clmulBelow a b n ^^^ clmulBelow a' b n := by
  induction n with
  | zero => simp [clmulBelow]
  | succ n ih =>
    rw [clmulBelow, clmulBelow, clmulBelow, ih, Nat.shiftLeft_xor_distrib]
    split
    · ac_rfl
    · rfl

theorem clmul_xor_left (a a' b : Nat) : clmul (a ^^^ a') b = clmul a b ^^^ clmul a' b :=
  clmulBelow_xor_left ..

/-- One bit more of a number. -/
theorem mod_two_pow_succ_xor (b n : Nat) :
    b % 2 ^ (n + 1) = b % 2 ^ n ^^^ (if b.testBit n then 2 ^ n else 0) := by
  apply Nat.eq_of_testBit_eq
  intro i
  rw [Nat.testBit_xor, Nat.testBit_mod_two_pow, Nat.testBit_mod_two_pow]
  by_cases hi : i = n
  · subst hi
    cases b.testBit i <;> simp
  · have hlt : i < n + 1 ↔ i < n := by omega
    cases b.testBit n <;> simp [hlt, Ne.symm hi]

/-- Below bit `n`, multiplying by `x^k` shifts. -/
theorem clmulBelow_two_pow (k b n : Nat) : clmulBelow (2 ^ k) b n = (b % 2 ^ n) <<< k := by
  induction n with
  | zero => simp [clmulBelow, Nat.mod_one]
  | succ n ih =>
    rw [clmulBelow, ih, mod_two_pow_succ_xor, Nat.shiftLeft_xor_distrib]
    split
    · rw [Nat.shiftLeft_eq (2 ^ k), Nat.shiftLeft_eq (2 ^ n), Nat.mul_comm]
    · simp

theorem clmul_two_pow (k b : Nat) : clmul (2 ^ k) b = b <<< k := by
  rw [clmul, clmulBelow_two_pow, Nat.mod_eq_of_lt Nat.lt_log2_self]

section
variable {m a b c : Nat}

theorem PolyCongr.refl (m a : Nat) : PolyCongr m a a := ⟨0, by simp⟩

theorem PolyCongr.symm (h : PolyCongr m a b) : PolyCongr m b a := by
  rwa [PolyCongr, Nat.xor_comm]

theorem PolyCongr.xor {a' b' : Nat} (h : PolyCongr m a b) (h' : PolyCongr m a' b') :
    PolyCongr m (a ^^^ a') (b ^^^ b') := by
  obtain ⟨q, hq⟩ := h
  obtain ⟨q', hq'⟩ := h'
  refine ⟨q ^^^ q', ?_⟩
  rw [clmul_xor_left, ← hq, ← hq']
  ac_rfl

theorem PolyCongr.trans (h : PolyCongr m a b) (h' : PolyCongr m b c) : PolyCongr m a c := by
  simpa [Nat.xor_comm b c, Nat.xor_assoc] using (h.xor h').xor (.refl m b)

/-- Adding a shift of the modulus stays in the class. -/
theorem polyCongr_xor_shiftLeft (m a k : Nat) : PolyCongr m (a ^^^ m <<< k) a :=
  ⟨2 ^ k, by rw [clmul_two_pow, Nat.xor_comm a, Nat.xor_assoc, Nat.xor_self, Nat.xor_zero]⟩

/-- A class has at most one member below the leading bit of the modulus. -/
theorem PolyCongr.eq_of_lt {d : Nat} (h : PolyCongr m a b) (hm : 2 ^ d ≤ m) (ha : a < 2 ^ d)
    (hb : b < 2 ^ d) : a = b := by
  obtain ⟨q, hq⟩ := h
  have hm0 : m ≠ 0 := by have := Nat.two_pow_pos d; omega
  have hd : d ≤ m.log2 := (Nat.le_log2 hm0).2 hm
  have hq0 : q = 0 := by
    by_contra hq0
    have hlow := (clmul_bounds hq0 hm0).1
    have hpow : 2 ^ d ≤ 2 ^ (q.log2 + m.log2) := Nat.pow_le_pow_right (by omega) (by omega)
    have hlt : a ^^^ b < 2 ^ d := Nat.xor_lt_two_pow ha hb
    omega
  rwa [hq0, clmul_zero_left, Nat.xor_eq_zero_iff] at hq

end

/-! ## Reduction as a remainder (R64) -/

/-- Every pass of the reduction stays in the class of the value. -/
theorem reduceFrom_congr {m : Word} {d : Nat} (hm : m.toNat < 2 ^ (d + 1)) {n : Nat} (hn : n ≤ 64)
    (v : Word) : PolyCongr m.toNat (reduceFrom m d n v).toNat v.toNat := by
  induction n generalizing v with
  | zero => exact .refl ..
  | succ k ih =>
    rw [reduceFrom]
    split
    case isTrue => exact .refl ..
    case isFalse hkd =>
      refine (ih (by omega) _).trans ?_
      split
      · have hlt : m.toNat <<< (k - d) < 2 ^ 64 := by
          rw [Nat.shiftLeft_eq]
          calc m.toNat * 2 ^ (k - d) < 2 ^ (d + 1) * 2 ^ (k - d) :=
                Nat.mul_lt_mul_of_pos_right hm (Nat.two_pow_pos _)
            _ = 2 ^ (k + 1) := by rw [← Nat.pow_add]; congr 1; omega
            _ ≤ 2 ^ 64 := Nat.pow_le_pow_right (by omega) hn
        rw [BitVec.toNat_xor, BitVec.toNat_shiftLeft, Nat.mod_eq_of_lt hlt]
        exact polyCongr_xor_shiftLeft ..
      · exact .refl ..

section
variable {w : Width} {m v : Word}

theorem reduce_congr (hm : m.toNat < 2 ^ w.bits) (h1 : 1 ≤ m.toNat) (v : Word) :
    PolyCongr m.toNat (reduce w.bits v m).toNat v.toNat :=
  reduceFrom_congr (modulusDegree_bounds hm h1).2 (bits_bounds w).2 v

theorem reduce_lt_order (hm : m.toNat < 2 ^ w.bits) (h1 : 1 ≤ m.toNat)
    (hv : v.toNat < 2 ^ w.bits) : (reduce w.bits v m).toNat < modulusOrder w.bits m :=
  reduceFrom_lt (modulusDegree_bounds hm h1).1 (modulusDegree_bounds hm h1).2 (bits_bounds w).2 hv

/-- The reduced value is the only member of its class below the order. -/
theorem reduce_unique (hm : m.toNat < 2 ^ w.bits) (h1 : 1 ≤ m.toNat)
    (hv : v.toNat < 2 ^ w.bits) {r : Nat} (hr : r < modulusOrder w.bits m)
    (hc : PolyCongr m.toNat r v.toNat) : r = (reduce w.bits v m).toNat :=
  (hc.trans (reduce_congr hm h1 v).symm).eq_of_lt (modulusDegree_bounds hm h1).1 hr
    (reduce_lt_order hm h1 hv)

/-- Reduction is additive: the sum of the remainders is the reduced member of the sum's class. -/
theorem reduce_xor (hm : m.toNat < 2 ^ w.bits) (h1 : 1 ≤ m.toNat) (hv : v.toNat < 2 ^ w.bits)
    {v' : Word} (hv' : v'.toNat < 2 ^ w.bits) :
    reduce w.bits (v ^^^ v') m = reduce w.bits v m ^^^ reduce w.bits v' m := by
  have hsum : (v ^^^ v').toNat < 2 ^ w.bits := by
    rw [BitVec.toNat_xor]
    exact Nat.xor_lt_two_pow hv hv'
  have hlt := below_xor (reduce_lt_order hm h1 hv) (reduce_lt_order hm h1 hv')
  have hc : PolyCongr m.toNat (reduce w.bits v m ^^^ reduce w.bits v' m).toNat
      (v ^^^ v').toNat := by
    rw [BitVec.toNat_xor, BitVec.toNat_xor]
    exact (reduce_congr hm h1 v).xor (reduce_congr hm h1 v')
  exact (BitVec.eq_of_toNat_eq (reduce_unique hm h1 hsum hlt hc)).symm

end

/-- Settles O52; the source's five examples are computed. -/
theorem reduceIsTheRemainder : Obligations.ReduceIsTheRemainder := by
  refine ⟨fun w v m hv hm h1 => ?_, by decide, by decide, by decide, by decide, by decide⟩
  exact ⟨reduce_congr hm h1 v, reduce_lt_order hm h1 hv, fun r => reduce_unique hm h1 hv,
    fun v' => reduce_xor hm h1 hv⟩

end Sys2Proof.Machine
end

section
/-! PROOFS, part 8. The utilities, construction, mutation and queries
(`40_utilities_reduction.md` R65 to R73). -/

namespace Sys2Proof.Machine

/-! ## Words of the instruction rules (R41) -/

/-- The command that spells an instruction decodes to it. -/
theorem decode_of_encode {c : Command} {i : Instr} (h : encode i = c) : decode c = .ok i :=
  h ▸ encodedInstructionDecodesBack i

/-- An assembled word, its fields written as the instruction rules write them. -/
theorem commandWord_eq (op : BitVec 8) (rd ra rb : Reg) (nr : Bool) (imm8 : BitVec 8) :
    commandWord op rd ra rb nr imm8 =
      op.setWidth 32 <<< 24 ||| atRd rd ||| atRa ra ||| atRb rb |||
        (if nr then 0x100#32 else 0) ||| imm8.setWidth 32 := by
  cases nr <;> rfl

@[simp] theorem atRd_zero : atRd 0#4 = 0#32 := rfl
@[simp] theorem atRa_zero : atRa 0#4 = 0#32 := rfl
@[simp] theorem atRb_zero : atRb 0#4 = 0#32 := rfl

/-! ## Which operands are legal (R44) -/

@[simp] theorem wellFormed_setval_eq (p : Params) (rd : Reg) (v : Word) :
    (Instr.setval rd v).wellFormed p = p.fits v := by
  cases hv : p.fits v <;> simp [Instr.wellFormed, Instr.illFormed, hv]

@[simp] theorem wellFormed_mdeg_eq (p : Params) (m : Word) :
    (Instr.mdeg m).wellFormed p = p.fits m := by
  cases hm : p.fits m <;> simp [Instr.wellFormed, Instr.illFormed, hm]

@[simp] theorem wellFormed_poldeg_eq (p : Params) (ra : Reg) (k : BitVec 8) :
    (Instr.poldeg ra k).wellFormed p = decide (k ≠ 0) := by
  by_cases hk : k = 0#8 <;> simp [Instr.wellFormed, Instr.illFormed, hk]

/-! ## Templates whose check passes (R50) -/

section
variable {i : Instr} {s : State}

/-- A legal command whose first check passes goes on with what the check gives. -/
theorem command_first_check_passes {α : Type} {c : Except Failure α} {a : α}
    (f : α → Except Failure (State × Word)) (hw : i.wellFormed s.params = true) (hc : c = .ok a) :
    command i s (finish s (c >>= f)) = .next (finish s (f a)) := by
  rw [command_legal _ hw, hc]
  rfl

/-- A legal query of a register that holds an element answers and writes nothing. -/
theorem command_query {ra : Reg} {e : Elem} (f : Elem → Word)
    (hw : i.wellFormed s.params = true) (he : s.elem ra = some e) :
    command i s (query s ra f) = .next (done s (f e)) :=
  command_first_check_passes _ hw (needReg_of_some he)

end

theorem elem_writeVal_self {s : State} {r : Reg} {e : Elem} (v : Word) (h : s.elem r = some e) :
    (writeVal s r v).elem r = some { e with val := v } := by
  rw [elem_writeVal, if_pos rfl, h, Option.map_some]

theorem elem_writeVal_of_ne (s : State) {r q : Reg} (v : Word) (h : q ≠ r) :
    (writeVal s r v).elem q = s.elem q := by
  rw [elem_writeVal, if_neg h]

/-! ## The instructions -/

/-- Settles O16: the one check after the legality test is that of the modulus operand. -/
theorem loadConstructsAnElement : Obligations.LoadConstructsAnElement := by
  rintro rd nr v imm1 _ _ s rfl rfl
  refine ⟨decode_of_encode (by simp [encode, commandWord_eq]), command_illegal _, fun hw hm => ?_,
    fun hw hm => ?_⟩
  · exact command_first_check_fails _ hw (needModulus_of_lt hm)
  · exact command_first_check_passes _ hw (needModulus_of_ge hm)

/-- Settles O17: the value is written and the field state read back (`elem_writeVal`). -/
theorem setvalWritesTheRawValue : Obligations.SetvalWritesTheRawValue := by
  intro rd v s
  have hlegal := wellFormed_setval_eq s.params rd v
  refine ⟨decode_of_encode (by simp [encode, commandWord_eq]), fun hv => ?_, fun hv he => ?_,
    fun e hv he => ⟨writeVal s rd v, ?_, elem_writeVal_self v he,
      fun r hr => elem_writeVal_of_ne s v hr, rfl, rfl, rfl⟩⟩
  · exact command_illegal _ (hlegal.trans hv)
  · exact emptySourceFails _ rd s (hlegal.trans hv) (List.mem_singleton_self rd) he
  · exact command_first_check_passes _ (hlegal.trans hv) (needReg_of_some he)

/-- Settles O18: as `SETVAL`, with the reduced value. -/
theorem redReducesInPlace : Obligations.RedReducesInPlace := by
  intro rd s
  refine ⟨decode_of_encode (by simp [encode, commandWord_eq, plain]), fun he => ?_, ?_⟩
  · exact emptySourceFails _ rd s rfl (List.mem_singleton_self rd) he
  · rintro e _ he rfl
    exact ⟨_, command_first_check_passes _ rfl (needReg_of_some he), elem_writeVal_self _ he,
      fun r hr => elem_writeVal_of_ne s _ hr, rfl, rfl, rfl⟩

/-- Settles O14: `MDEG` tests the width of its argument and nothing else. -/
theorem mdegMeasuresTheModulus : Obligations.MdegMeasuresTheModulus := by
  intro m s
  have hlegal := wellFormed_mdeg_eq s.params m
  exact ⟨decode_of_encode (by simp [encode, commandWord_eq]),
    fun hm => command_legal _ (hlegal.trans hm), fun hm => command_illegal _ (hlegal.trans hm)⟩

/-- Settles O15: a query, legal unless `startPos` is 0. -/
theorem poldegScansTheValue : Obligations.PoldegScansTheValue := by
  intro ra k s
  have hlegal := wellFormed_poldeg_eq s.params ra k
  refine ⟨decode_of_encode (by simp [encode, commandWord_eq, plain]), fun hk => ?_,
    fun hk he => ?_, fun e hk he => ?_⟩
  · exact command_illegal _ (hlegal.trans (decide_eq_false (not_not.2 hk)))
  · exact emptySourceFails _ ra s (hlegal.trans (decide_eq_true hk)) (List.mem_singleton_self ra) he
  · exact command_query _ (hlegal.trans (decide_eq_true hk)) he

/-- Settles O19: four queries that are always legal. -/
theorem queriesAnswerTheirField : Obligations.QueriesAnswerTheirField := by
  intro ra s
  have hmem := List.mem_singleton_self ra
  refine ⟨?_, ?_, ?_, ?_, fun he => ?_, fun e he => ?_⟩
  iterate 4 exact decode_of_encode (by simp [encode, commandWord_eq, plain])
  · exact ⟨emptySourceFails (.getval ra) ra s rfl hmem he,
      emptySourceFails (.getmod ra) ra s rfl hmem he,
      emptySourceFails (.getdeg ra) ra s rfl hmem he,
      emptySourceFails (.getord ra) ra s rfl hmem he⟩
  · exact ⟨command_query Elem.val rfl he, command_query Elem.mod rfl he,
      command_query (fun e => e.deg.setWidth 64) rfl he, command_query Elem.ord rfl he⟩

end Sys2Proof.Machine
end

section
/-! PROOFS, part 9. The product as a remainder, the ring laws and the power
(`41_direct_polynomial.md` R80 to R83, R95). -/

namespace Sys2Proof.Machine

/-! ## The carry-less product from its low bits

The loop of R80 reads its second operand from the low bit up; so does this form of `clmulBelow`. -/

theorem clmulBelow_shiftLeft_left (a b k n : Nat) :
    clmulBelow (a <<< k) b n = clmulBelow a b n <<< k := by
  induction n with
  | zero => simp [clmulBelow]
  | succ n ih =>
    rw [clmulBelow, clmulBelow, ih]
    split
    · rw [Nat.shiftLeft_xor_distrib, ← Nat.shiftLeft_add, ← Nat.shiftLeft_add, Nat.add_comm k]
    · rfl

theorem clmul_shiftLeft_left (a b k : Nat) : clmul (a <<< k) b = clmul a b <<< k :=
  clmulBelow_shiftLeft_left ..

/-- The low bit of `b` selects `a`, the rest multiplies `x * a`. -/
theorem clmulBelow_low_bit (a b n : Nat) :
    clmulBelow a b (n + 1) =
      (if b.testBit 0 then a else 0) ^^^ clmulBelow (a <<< 1) (b >>> 1) n := by
  induction n with
  | zero => simp [clmulBelow]
  | succ n ih =>
    conv_rhs => rw [clmulBelow, Nat.testBit_shiftRight, ← Nat.shiftLeft_add, Nat.add_comm 1 n]
    rw [clmulBelow, ih]
    split
    · rw [Nat.xor_assoc]
    · rfl

/-- Bits above the leading one add nothing. -/
theorem clmulBelow_eq_clmul (a : Nat) {b n : Nat} (hb : b < 2 ^ n) (hn : b.log2 + 1 ≤ n) :
    clmulBelow a b n = clmul a b := by
  induction n, hn using Nat.le_induction with
  | base => rfl
  | succ n hn ih =>
    have hlt : b < 2 ^ n := Nat.lt_log2_self.trans_le (Nat.pow_le_pow_right (by omega) hn)
    rw [clmulBelow, Nat.testBit_lt_two_pow hlt, if_neg nofun, ih hlt]

/-- A congruence may be multiplied by `x`. -/
theorem PolyCongr.shiftLeft {m a b : Nat} (h : PolyCongr m a b) (k : Nat) :
    PolyCongr m (a <<< k) (b <<< k) := by
  obtain ⟨q, hq⟩ := h
  exact ⟨q <<< k, by rw [clmul_shiftLeft_left, ← hq, Nat.shiftLeft_xor_distrib]⟩

/-! ## The product modulo the modulus (R80) -/

/-- Multiplication by `x` loses no bit of a reduced value and stays in the class. -/
theorem mulX_congr (m : Word) {a : Word} {d : Nat} (hd : d < 64) (ha : a.toNat < 2 ^ d) :
    PolyCongr m.toNat (mulX m d a).toNat (a.toNat <<< 1) := by
  have hshift : (a <<< 1).toNat = a.toNat <<< 1 := by
    have hpow : 2 ^ d ≤ 2 ^ 63 := Nat.pow_le_pow_right (by omega) (by omega)
    rw [BitVec.toNat_shiftLeft, Nat.mod_eq_of_lt (by rw [Nat.shiftLeft_eq]; omega)]
  unfold mulX
  split
  · rw [BitVec.toNat_xor, hshift]
    exact polyCongr_xor_shiftLeft m.toNat (a.toNat <<< 1) 0
  · rw [hshift]
    exact .refl ..

/-- The loop multiplies: each pass keeps the multiplicand in the class of `x^i * a`. -/
theorem mulLoop_congr {m : Word} {d : Nat} (hd : d < 64) (hm : 2 ^ d ≤ m.toNat)
    (hm' : m.toNat < 2 ^ (d + 1)) (n : Nat) {a : Word} (ha : a.toNat < 2 ^ d) {a' : Nat}
    (h : PolyCongr m.toNat a.toNat a') (b : Word) :
    PolyCongr m.toNat (mulLoop m d n a b 0).toNat (clmulBelow a' b.toNat n) := by
  induction n generalizing a a' b with
  | zero => exact .refl ..
  | succ n ih =>
    have hx : PolyCongr m.toNat (mulX m d a).toNat (a' <<< 1) :=
      (mulX_congr m hd ha).trans (h.shiftLeft 1)
    have hrest := ih (mulX_below hd hm hm' ha) hx (b >>> 1)
    rw [BitVec.toNat_ushiftRight] at hrest
    rw [mulLoop_step, clmulBelow_low_bit, BitVec.toNat_xor]
    refine PolyCongr.xor ?_ hrest
    rw [BitVec.getLsbD]
    split
    · exact h
    · exact .refl ..

section
variable {w : Width} {m : Word}

theorem mulReduce_congr (hm : GoodModulus w m) {a : Word} (ha : Below w.bits m a) (b : Word) :
    PolyCongr m.toNat (mulReduce w.bits a b m).toNat (clmul a.toNat b.toNat) := by
  have hb : b.toNat.log2 + 1 ≤ 64 := by
    rcases Nat.eq_zero_or_pos b.toNat with h | h
    · simp [h]
    · exact (Nat.log2_lt h.ne').2 b.isLt
  rw [← clmulBelow_eq_clmul a.toNat b.isLt hb]
  exact mulLoop_congr (degree_lt_64 w m) hm.bounds.1 hm.bounds.2 64 ha (.refl ..) b

theorem mulReduce_zero_right (w : Nat) (a m : Word) : mulReduce w a 0 m = 0 :=
  mulLoop_zero_right ..

theorem mulReduce_xor_right (w : Nat) (a b c m : Word) :
    mulReduce w a (b ^^^ c) m = mulReduce w a b m ^^^ mulReduce w a c m :=
  mulLoop_xor_right ..

/-! ## Powers of 0 and of 1 (R82) -/

theorem polyPow_zero_base (hm : GoodModulus w m) {n : Nat} (hn : n ≠ 0) :
    pow w.bits 0 n m = 0 := by
  obtain ⟨n, rfl⟩ := Nat.exists_eq_succ_of_ne_zero hn
  rw [polyPow_succ hm (below_zero _ _), mulReduce_zero_right]

theorem polyPow_one_base (hm : GoodModulus w m) (n : Nat) : pow w.bits 1 n m = 1 := by
  induction n with
  | zero => exact polyPow_zero ..
  | succ n ih =>
    rw [polyPow_succ hm (below_one hm), ih, mulReduce_one_left (below_one hm)]

end

/-- Settles O53. -/
theorem mulReduceIsTheProductModulo : Obligations.MulReduceIsTheProductModulo := by
  intro w m a b h2 hfits ha hb
  have hm : GoodModulus w m := ⟨h2, hfits⟩
  exact ⟨mulReduce_below hm b ha, mulReduce_congr hm ha b, mulReduce_comm ha hb,
    mulReduce_zero_right .., mulReduce_zero_left .., mulReduce_one_right hm ha⟩

/-- Settles O54: irreducibility is used nowhere. -/
theorem arithmeticIsACommutativeRing : Obligations.ArithmeticIsACommutativeRing := by
  intro w m a b c h2 hfits ha hb hc
  have hm : GoodModulus w m := ⟨h2, hfits⟩
  exact ⟨below_xor ha hb, mulReduce_below hm b ha, BitVec.xor_zero, BitVec.xor_self,
    BitVec.xor_comm a b, mulReduce_comm ha hb, BitVec.xor_assoc a b c, mulReduce_assoc hm ha hb c,
    mulReduce_one_right hm ha, mulReduce_zero_right .., mulReduce_xor_right ..⟩

/-- Settles O55: the exponent `2^d - 2` is 0 for degree 1 and positive above. -/
theorem powIsTheIteratedProduct : Obligations.PowIsTheIteratedProduct := by
  intro w m a h2 hfits ha
  have hm : GoodModulus w m := ⟨h2, hfits⟩
  refine ⟨polyPow_zero .., fun n => ⟨polyPow_below hm ha n, polyPow_succ hm ha n⟩, rfl,
    fun hd => ?_, fun hd => ?_, polyPow_one_base hm _⟩
  · have := four_le_order hd
    exact polyPow_zero_base hm (by omega)
  · rw [inverse, modulusOrder_eq, hd]
    exact polyPow_zero ..

end Sys2Proof.Machine
end

section
/-! PROOFS, part 10. The field of an irreducible modulus (`41_direct_polynomial.md` R96). -/

namespace Sys2Proof.Machine

/-! ## Inverses exist

Dividing the modulus by `b` leaves a remainder below `b` that is a multiple of `b` modulo the
modulus; irreducibility keeps it from 0. So the inverse of the remainder gives that of `b`. -/

theorem clmul_one_left (b : Nat) : clmul 1 b = b := clmul_two_pow 0 b

/-- A factor of a product of degree at most `d` is of lower degree if the other is no constant. -/
theorem lt_two_pow_of_clmul_lt {q b d : Nat} (hb : 2 ≤ b) (h : clmul q b < 2 ^ (d + 1)) :
    q < 2 ^ d := by
  rcases Nat.eq_zero_or_pos q with rfl | hq
  · exact Nat.two_pow_pos d
  · have hlow := (clmul_bounds hq.ne' (by omega : b ≠ 0)).1
    have hdeg : q.log2 + b.log2 < d + 1 :=
      (Nat.pow_lt_pow_iff_right (by omega)).1 (hlow.trans_lt h)
    have hblog : 1 ≤ b.log2 := (Nat.le_log2 (by omega)).2 hb
    exact Nat.lt_log2_self.trans_le (Nat.pow_le_pow_right (by omega) (by omega))

section
variable {w : Width} {m : Word}

/-- A product that differs from a reduced value by the modulus reduces to that value. -/
theorem mulReduce_eq_of_clmul (hm : GoodModulus w m) {q b r : Word} (hq : Below w.bits m q)
    (hr : Below w.bits m r) (h : r.toNat ^^^ m.toNat = clmul q.toNat b.toNat) :
    mulReduce w.bits q b m = r := by
  have hmod : PolyCongr m.toNat (r.toNat ^^^ m.toNat) r.toNat :=
    polyCongr_xor_shiftLeft m.toNat r.toNat 0
  have hcongr := (mulReduce_congr hm hq b).trans (h ▸ hmod)
  exact BitVec.eq_of_toNat_eq
    (hcongr.eq_of_lt hm.bounds.1 (mulReduce_below hm b hq) hr)

/-- The remainder of the modulus on division by `b` is a multiple of `b` modulo the modulus. -/
theorem exists_mulReduce_eq_smaller (hm : GoodModulus w m) (hirr : PolyIrreducible m.toNat)
    {b : Word} (hb : Below w.bits m b) (h0 : b ≠ 0) (h1 : b ≠ 1) :
    ∃ q r, Below w.bits m q ∧ mulReduce w.bits q b m = r ∧ r ≠ 0 ∧ r.toNat < b.toNat := by
  have hb2 : 2 ≤ b.toNat := by
    have : b.toNat ≠ 0 := fun h => h0 (BitVec.eq_of_toNat_eq h)
    have : b.toNat ≠ 1 := fun h => h1 (BitVec.eq_of_toNat_eq h)
    omega
  have hbm : b.toNat < m.toNat := hb.trans_le hm.bounds.1
  have hgb : GoodModulus w b := ⟨hb2, hbm.trans hm.fits⟩
  obtain ⟨q, hq⟩ := reduce_congr hgb.fits (by omega) m
  set r := reduce w.bits m b
  have hrb : r.toNat < b.toNat := (reduce_below hgb hm.fits).trans_le hgb.bounds.1
  have hr : Below w.bits m r := hrb.trans hb
  have hqm : q < modulusOrder w.bits m := by
    refine lt_two_pow_of_clmul_lt hb2 (hq ▸ Nat.xor_lt_two_pow ?_ hm.bounds.2)
    exact (hrb.trans hbm).trans hm.bounds.2
  refine ⟨BitVec.ofNat 64 q, r, below_ofNat hqm, ?_, ?_, hrb⟩
  · exact mulReduce_eq_of_clmul hm (below_ofNat hqm) hr (by rw [hq, toNat_ofNat_of_lt_order hqm])
  · intro h
    have hfactor : clmul q b.toNat = m.toNat := by rw [← hq, h]; simp
    rcases hirr.2 q b.toNat hfactor with rfl | h
    · rw [clmul_one_left] at hfactor
      omega
    · omega

/-- Every nonzero reduced value has an inverse. -/
theorem exists_inverse (hm : GoodModulus w m) (hirr : PolyIrreducible m.toNat) {b : Word}
    (hb : Below w.bits m b) (h0 : b ≠ 0) :
    ∃ c, Below w.bits m c ∧ mulReduce w.bits c b m = 1 := by
  induction hn : b.toNat using Nat.strong_induction_on generalizing b with
  | _ n ih =>
    subst hn
    by_cases h1 : b = 1
    · exact ⟨1, below_one hm, by rw [mulReduce_one_left hb, h1]⟩
    · obtain ⟨q, r, hq, rfl, hr0, hrb⟩ := exists_mulReduce_eq_smaller hm hirr hb h0 h1
      obtain ⟨c, hc, hcr⟩ := ih _ hrb (mulReduce_below hm b hq) hr0 rfl
      exact ⟨mulReduce w.bits c q m, mulReduce_below hm q hc, by
        rw [mulReduce_assoc hm hc hq, hcr]⟩

/-- A product of nonzero values is nonzero: the inverse of the first recovers the second. -/
theorem mulReduce_ne_zero (hm : GoodModulus w m) (hirr : PolyIrreducible m.toNat) {a b : Word}
    (ha : Below w.bits m a) (hb : Below w.bits m b) (ha0 : a ≠ 0) (hb0 : b ≠ 0) :
    mulReduce w.bits a b m ≠ 0 := by
  intro h
  obtain ⟨c, hc, hca⟩ := exists_inverse hm hirr ha ha0
  apply hb0
  calc b = mulReduce w.bits (mulReduce w.bits c a m) b m := by rw [hca, mulReduce_one_left hb]
    _ = mulReduce w.bits c (mulReduce w.bits a b m) m := mulReduce_assoc hm hc ha b
    _ = 0 := by rw [h, mulReduce_zero_right]

end

/-! ## The group of the nonzero values -/

/-- The nonzero reduced values. -/
def Nonzero (w : Nat) (m : Word) : Type := { v : Word // Below w m v ∧ v ≠ 0 }

/-- As many as the numbers from 1 to `order - 1`. -/
theorem nat_card_nonzero (w : Width) (m : Word) :
    Nat.card (Nonzero w.bits m) = modulusOrder w.bits m - 1 := by
  have hinj : Set.InjOn (BitVec.ofNat 64) (Finset.Ico 1 (modulusOrder w.bits m)) := by
    intro i hi j hj h
    simpa only [toNat_ofNat_of_lt_order (Finset.mem_Ico.1 hi).2,
      toNat_ofNat_of_lt_order (Finset.mem_Ico.1 hj).2] using congrArg BitVec.toNat h
  rw [Nonzero, Nat.subtype_card ((Finset.Ico 1 (modulusOrder w.bits m)).image (BitVec.ofNat 64)),
    Finset.card_image_of_injOn hinj, Nat.card_Ico]
  intro v
  simp only [Finset.mem_image, Finset.mem_Ico]
  constructor
  · rintro ⟨k, ⟨h1, hk⟩, rfl⟩
    refine ⟨below_ofNat hk, fun h => ?_⟩
    have hk0 : k = 0 := (toNat_ofNat_of_lt_order hk).symm.trans (congrArg BitVec.toNat h)
    omega
  · rintro ⟨hv, h0⟩
    have : v.toNat ≠ 0 := fun h => h0 (BitVec.eq_of_toNat_eq h)
    exact ⟨v.toNat, ⟨by omega, hv⟩, by simp⟩

section
variable {w : Width} {m : Word} (hm : GoodModulus w m) (hirr : PolyIrreducible m.toNat)
include hm hirr

theorem exists_nonzero_inverse (a : Nonzero w.bits m) :
    ∃ c : Nonzero w.bits m, mulReduce w.bits c.1 a.1 m = 1 := by
  obtain ⟨c, hc, hca⟩ := exists_inverse hm hirr a.2.1 a.2.2
  refine ⟨⟨c, hc, ?_⟩, hca⟩
  rintro rfl
  rw [mulReduce_zero_left] at hca
  exact absurd hca (by decide)

/-- With an irreducible modulus they form a group under `mulReduce`. -/
noncomputable abbrev nonzeroGroup : Group (Nonzero w.bits m) :=
  letI : Mul (Nonzero w.bits m) := ⟨fun a b => ⟨mulReduce w.bits a.1 b.1 m,
    mulReduce_below hm b.1 a.2.1, mulReduce_ne_zero hm hirr a.2.1 b.2.1 a.2.2 b.2.2⟩⟩
  letI : One (Nonzero w.bits m) := ⟨⟨1, below_one hm, by decide⟩⟩
  letI : Inv (Nonzero w.bits m) := ⟨fun a => (exists_nonzero_inverse hm hirr a).choose⟩
  Group.ofLeftAxioms
    (fun a b c => Subtype.ext (mulReduce_assoc hm a.2.1 b.2.1 c.1))
    (fun a => Subtype.ext (mulReduce_one_left a.2.1))
    (fun a => Subtype.ext (exists_nonzero_inverse hm hirr a).choose_spec)

/-- The powers of the group are those of R81. -/
theorem nonzeroGroup_pow (a : Nonzero w.bits m) (n : Nat) :
    letI := nonzeroGroup hm hirr
    (a ^ n).1 = pow w.bits a.1 n m := by
  let := nonzeroGroup hm hirr
  induction n with
  | zero =>
    rw [pow_zero, polyPow_zero]
    rfl
  | succ n ih =>
    rw [pow_succ, polyPow_succ hm a.2.1, ← ih]
    rfl

/-- Lagrange's theorem: exponents count modulo `order - 1`. -/
theorem polyPow_mod_order {b : Word} (hb : Below w.bits m b) (h0 : b ≠ 0) (n : Nat) :
    pow w.bits b (n % (modulusOrder w.bits m - 1)) m = pow w.bits b n m := by
  let := nonzeroGroup hm hirr
  let a : Nonzero w.bits m := ⟨b, hb, h0⟩
  calc pow w.bits b (n % (modulusOrder w.bits m - 1)) m
      = (a ^ (n % Nat.card (Nonzero w.bits m))).1 := by
        rw [nat_card_nonzero, nonzeroGroup_pow hm hirr]
    _ = (a ^ n).1 := by rw [pow_mod_natCard]
    _ = pow w.bits b n m := nonzeroGroup_pow hm hirr a n

/-- Fermat's theorem. -/
theorem polyPow_order_sub_one {b : Word} (hb : Below w.bits m b) (h0 : b ≠ 0) :
    pow w.bits b (modulusOrder w.bits m - 1) m = 1 := by
  rw [← polyPow_mod_order hm hirr hb h0, Nat.mod_self, polyPow_zero]

/-- So `2^d - 2` is the exponent of the inverse (R82). -/
theorem mulReduce_inverse_left {b : Word} (hb : Below w.bits m b) (h0 : b ≠ 0) :
    mulReduce w.bits (inverse w.bits b m) b m = 1 := by
  have hexp : modulusOrder w.bits m - 2 + 1 = modulusOrder w.bits m - 1 := by
    have := hm.two_le_order
    omega
  rw [inverse, ← polyPow_succ hm hb, hexp, polyPow_order_sub_one hm hirr hb h0]

end

/-- Settles O56: the laws of the group of the nonzero values. -/
theorem irreducibleModulusGivesAField : Obligations.IrreducibleModulusGivesAField := by
  intro w m a b hfits hirr ha hb h0
  have hm : GoodModulus w m := ⟨hirr.1, hfits⟩
  have hinv := mulReduce_inverse_left hm hirr hb h0
  refine ⟨?_, rfl, polyPow_order_sub_one hm hirr hb h0, fun k n => ?_, ?_⟩
  · rw [mulReduce_comm hb (inverse_below hm hb), hinv]
  · rw [polyPow_mod_order hm hirr hb h0, polyPow_add hm hb]
  · rw [divide, mulReduce_assoc hm ha (inverse_below hm hb), hinv, mulReduce_one_right hm ha]

end Sys2Proof.Machine
end

section
/-! PROOFS, part 11. Direct arithmetic and comparisons (`41_direct_polynomial.md` R84 to R94). -/

namespace Sys2Proof.Machine

/-! ## The templates -/

section
variable {i : Instr} {s : State} {ra rb : Reg}

section
variable {α β : Type} {c : Except Failure α} {c' : Except Failure β} {a : α}
  {f : α → Except Failure (State × Word)} {g : β → Except Failure (State × Word)}

/-- A legal command whose second check fails. -/
theorem command_second_check_fails {k : Failure} (hw : i.wellFormed s.params = true)
    (hc : c = .ok a) (hf : f a = c' >>= g) (hc' : c' = .error k) :
    command i s (finish s (c >>= f)) = .next (raise s k) := by
  rw [command_first_check_passes f hw hc, hf, hc']
  rfl

/-- A legal command whose two checks pass answers with what follows them. -/
theorem command_two_checks_pass {b : β} {t : State} {v : Word}
    (hw : i.wellFormed s.params = true) (hc : c = .ok a) (hf : f a = c' >>= g) (hc' : c' = .ok b)
    (hg : g b = .ok (t, v)) : command i s (finish s (c >>= f)) = .next (done t v) := by
  have hrest : f a = .ok (t, v) := by rw [hf, hc', ← hg]; rfl
  rw [command_first_check_passes f hw hc, hrest, finish_ok]

end

/-- A comparison whose sources fail. -/
theorem command_compare_fails {k : Failure} (rel : Nat → Nat → Bool)
    (hw : i.wellFormed s.params = true) (h : Fails2 s ra rb k) :
    command i s (compareWith s ra rb rel) = .next (raise s k) :=
  command_first_check_fails _ hw (twoSources_fails h)

/-- A comparison of two reduced elements of one field answers the relation of their values. -/
theorem command_compare_ready {a b : Elem} (p : Nat → Nat → Prop) [DecidableRel p]
    (hw : i.wellFormed s.params = true) (h : Ready2 s ra rb a b) :
    command i s (compareWith s ra rb fun x y => decide (p x y)) =
      .next (done s (if p a.val.toNat b.val.toNat then 1 else 0)) := by
  refine (command_first_check_passes _ hw (twoSources_ready h)).trans ?_
  simp [verdict, pure, Except.pure]

end

/-! ## The instructions -/

/-- Settles O20: the sources are the only check. -/
theorem addIsExclusiveOr : Obligations.AddIsExclusiveOr := by
  intro rd ra rb s
  exact ⟨decode_of_encode (by simp [encode, commandWord_eq, plain]),
    fun k h => command_first_check_fails _ rfl (twoSources_fails h),
    fun a b h => command_first_check_passes _ rfl (twoSources_ready h)⟩

/-- Settles O21: the sources are the only check. -/
theorem mulIsMulReduce : Obligations.MulIsMulReduce := by
  intro rd ra rb s
  refine ⟨decode_of_encode (by simp [encode, commandWord_eq, plain]),
    fun k h => command_first_check_fails _ rfl (twoSources_fails h), ?_⟩
  rintro a b _ h rfl
  exact command_first_check_passes _ rfl (twoSources_ready h)

/-- Settles O22: after the sources, the divisor is tested. -/
theorem divIsProductByInverse : Obligations.DivIsProductByInverse := by
  intro rd ra rb s
  refine ⟨decode_of_encode (by simp [encode, commandWord_eq, plain]),
    fun k h => command_first_check_fails _ rfl (twoSources_fails h), fun a b h h0 => ?_, ?_⟩
  · exact command_second_check_fails rfl (twoSources_ready h) rfl (needNonzero_of_eq h0)
  · rintro a b _ h h0 rfl
    exact command_two_checks_pass rfl (twoSources_ready h) rfl (needNonzero_of_ne h0) rfl

/-- Settles O23: after the source, its value is tested. -/
theorem invIsThePowerOrderMinusTwo : Obligations.InvIsThePowerOrderMinusTwo := by
  intro rd ra s
  refine ⟨decode_of_encode (by simp [encode, commandWord_eq, plain]),
    fun k h => command_first_check_fails _ rfl (oneSource_fails h), fun a h h0 => ?_, ?_⟩
  · exact command_second_check_fails rfl (oneSource_ready h) rfl (needNonzero_of_eq h0)
  · rintro a _ h h0 rfl
    exact command_two_checks_pass rfl (oneSource_ready h) rfl (needNonzero_of_ne h0) rfl

/-- Settles O24: the source is the only check. -/
theorem powTakesA64BitExponent : Obligations.PowTakesA64BitExponent := by
  intro rd ra n s
  refine ⟨decode_of_encode (by simp [encode, commandWord_eq]),
    fun k h => command_first_check_fails _ rfl (oneSource_fails h), ?_⟩
  rintro a _ h rfl
  exact command_first_check_passes _ rfl (oneSource_ready h)

/-- Settles O25: one template, six relations; equality of values is that of their numbers. -/
theorem comparisonsAnswerTheVerdict : Obligations.ComparisonsAnswerTheVerdict := by
  intro ra rb s
  refine ⟨?_, ?_, ?_, ?_, ?_, ?_, fun k h => ?_, fun a b h => ?_⟩
  iterate 6 exact decode_of_encode (by simp [encode, commandWord_eq, plain])
  · refine ⟨?_, ?_, ?_, ?_, ?_, ?_⟩
    iterate 6 exact command_compare_fails _ rfl h
  · rw [← ite_not (a.val = b.val) 1]
    simp only [← BitVec.toNat_inj]
    exact ⟨command_compare_ready (· = ·) rfl h, command_compare_ready (· ≠ ·) rfl h,
      command_compare_ready (· < ·) rfl h, command_compare_ready (· ≤ ·) rfl h,
      command_compare_ready (· > ·) rfl h, command_compare_ready (· ≥ ·) rfl h⟩

end Sys2Proof.Machine
end

section
/-! PROOFS, part 12. The log table: its commands (`42_log_table.md` R101 to R108), the verdict of
its builder (R100), and its agreement with the direct arithmetic (R109). -/

namespace Sys2Proof.Machine

/-! ## Which operands are legal (R44) -/

section
variable (p : Params) (imm1 : Word)

theorem wellFormed_ltbuild_iff :
    (Instr.ltbuild imm1).wellFormed p = true ↔ p.checkModulus imm1 = none := by
  simp [Instr.wellFormed, Instr.illFormed]

theorem wellFormed_ftbuildm_iff :
    (Instr.ftbuildm imm1).wellFormed p = true ↔ p.hasFt = true ∧ p.checkModulus imm1 = none := by
  simp [Instr.wellFormed, Instr.illFormed, checkFt_eq_none_iff]

theorem wellFormed_ftbuildd_iff :
    (Instr.ftbuildd imm1).wellFormed p = true ↔ p.hasFt = true ∧ p.checkModulus imm1 = none := by
  simp [Instr.wellFormed, Instr.illFormed, checkFt_eq_none_iff]

@[simp] theorem wellFormed_ftinv_eq : Instr.ftinv.wellFormed p = p.hasFt := by
  cases hft : p.hasFt <;> simp [Instr.wellFormed, Instr.illFormed, Params.checkFt, hft]

end

/-! ## The checks of `LTBUILD` (R101) -/

section
variable {p : Params} {imm1 : Word}

theorem needLogDegree_of_malformed (h : (modulusOperand p imm1).toNat < 2) :
    needLogDegree p imm1 = .error .malformedModulus := by
  rw [needLogDegree, needModulus_of_lt h]
  rfl

theorem needLogDegree_of_misfit (h2 : 2 ≤ (modulusOperand p imm1).toNat)
    (hd : modulusDegree p.bits (modulusOperand p imm1) < 2 ∨
      p.logDegMax < modulusDegree p.bits (modulusOperand p imm1)) :
    needLogDegree p imm1 = .error .tableBuildFail := by
  rw [needLogDegree, needModulus_of_ge h2]
  exact if_pos hd

theorem needLogDegree_of_fit (h2 : 2 ≤ (modulusOperand p imm1).toNat)
    (hd : 2 ≤ modulusDegree p.bits (modulusOperand p imm1))
    (hmax : modulusDegree p.bits (modulusOperand p imm1) ≤ p.logDegMax) :
    needLogDegree p imm1 = .ok (modulusOperand p imm1) := by
  rw [needLogDegree, needModulus_of_ge h2]
  exact if_neg (by omega)

end

section
variable {s : State} {imm1 m : Word} (hw : (Instr.ltbuild imm1).wellFormed s.params = true)
include hw

theorem exec_ltbuild_fails {k : Failure} (h : needLogDegree s.params imm1 = .error k) :
    exec (.ltbuild imm1) s = .next (raise s k) := by
  rw [exec, execLtbuild, command_legal _ hw, h]

theorem exec_ltbuild_builds (h : needLogDegree s.params imm1 = .ok m) :
    exec (.ltbuild imm1) s = .next (buildLt s m) := by
  rw [exec, execLtbuild, command_legal _ hw, h]

end

theorem buildLt_of_none {s : State} {m : Word} (h : buildLogTable s.params.bits m = none) :
    buildLt s m = raise (setLt s none) .tableBuildFail := by
  rw [buildLt, h]

theorem buildLt_of_some {s : State} {m : Word} {b : LogBank}
    (h : buildLogTable s.params.bits m = some b) : buildLt s m = done (setLt s (some b)) 0 := by
  rw [buildLt, h]

/-! ## The commands of the log table (R101 to R108) -/

/-- Settles O26: the checks of the modulus and of its degree come before the build. -/
theorem ltbuildBuildsOrInvalidates : Obligations.LtbuildBuildsOrInvalidates := by
  rintro imm1 _ s rfl
  refine ⟨decode_of_encode (by simp [encode, commandWord_eq]), command_illegal _, fun hw hm => ?_,
    fun hw hm hd => ?_, fun hw hm hd hmax => ?_⟩
  · exact exec_ltbuild_fails hw (needLogDegree_of_malformed hm)
  · exact exec_ltbuild_fails hw (needLogDegree_of_misfit hm hd)
  · rw [exec_ltbuild_builds hw (needLogDegree_of_fit hm hd hmax)]
    exact ⟨fun hb => congrArg _ (buildLt_of_none hb),
      fun b hb => ⟨(buildLogTable_length hb).1, congrArg _ (buildLt_of_some hb)⟩⟩

/-- Settles O27: `LTINV` is always legal, `FTINV` exactly with option `FT`. -/
theorem invalidationEndsTheTable : Obligations.InvalidationEndsTheTable := by
  intro s
  refine ⟨rfl, rfl, command_legal _ rfl, fun h => ?_, fun h => ?_⟩
  · exact command_illegal _ ((wellFormed_ftinv_eq _).trans h)
  · exact command_legal _ ((wellFormed_ftinv_eq _).trans h)

/-- Settles O28: the checks are those of the sources and of the table's tag. -/
theorem lmulAddsLogs : Obligations.LmulAddsLogs := by
  intro rd ra rb s
  refine ⟨decode_of_encode (by simp [encode, commandWord_eq, plain]),
    fun k h => command_first_check_fails _ rfl (twoSources_fails h), fun a b h hl => ?_, ?_⟩
  · exact command_second_check_fails rfl (twoSources_ready h) rfl (needLt_of_mismatch hl)
  · rintro a b t _ h hl hm rfl
    exact command_two_checks_pass rfl (twoSources_ready h) rfl (needLt_of_tag hl hm) rfl

theorem expOf_logDifference (t : LogBank) (ord u v : Nat) :
    expOf t (logDifference ord u v) =
      if u < v then expOf t (u + (ord - 1) - v) else expOf t (u - v) := by
  rw [logDifference]
  split <;> rfl

/-- A legal command whose first two checks pass goes on with what they give. -/
theorem command_two_checks_lead {α β : Type} {i : Instr} {s : State} {c : Except Failure α}
    {c' : Except Failure β} {a : α} {b : β} {f : α → Except Failure (State × Word)}
    {g : β → Except Failure (State × Word)} (hw : i.wellFormed s.params = true) (hc : c = .ok a)
    (hf : f a = c' >>= g) (hc' : c' = .ok b) :
    command i s (finish s (c >>= f)) = .next (finish s (g b)) := by
  rw [command_first_check_passes f hw hc, hf, hc']
  rfl

/-- Settles O29: the divisor is tested after the sources and the table's tag. -/
theorem ldivSubtractsLogs : Obligations.LdivSubtractsLogs := by
  intro rd ra rb s
  refine ⟨decode_of_encode (by simp [encode, commandWord_eq, plain]),
    fun k h => command_first_check_fails _ rfl (twoSources_fails h), fun a b h hl => ?_,
    fun a b t h hl hm => ⟨fun hb => ?_, fun hb ha => ?_, fun u v r hb ha hu hv hr => ?_⟩⟩
  · exact command_second_check_fails rfl (twoSources_ready h) rfl (needLt_of_mismatch hl)
  all_goals
    refine (command_two_checks_lead rfl (twoSources_ready h) rfl (needLt_of_tag hl hm)).trans ?_
  · rw [needNonzero_of_eq hb]
    rfl
  · rw [needNonzero_of_ne hb, if_pos ha]
    rfl
  · rw [needNonzero_of_ne hb, if_neg ha, expOf_logDifference, ← hu, ← hv, ← hr]
    rfl

/-- Settles O30: the checks are those of the source and of the table's tag. -/
theorem lpowMultipliesTheLog : Obligations.LpowMultipliesTheLog := by
  intro rd ra n s
  refine ⟨decode_of_encode (by simp [encode, commandWord_eq]),
    fun k h => command_first_check_fails _ rfl (oneSource_fails h), fun a h hl => ?_, ?_⟩
  · exact command_second_check_fails rfl (oneSource_ready h) rfl (needLt_of_mismatch hl)
  · rintro a t _ h hl hm rfl
    exact command_two_checks_pass rfl (oneSource_ready h) rfl (needLt_of_tag hl hm) rfl

theorem needLtValid_of_none {s : State} (h : s.lt = none) :
    needLtValid s = .error .tableMismatch := by
  rw [needLtValid, h]

theorem needLtValid_of_some {s : State} {t : LogBank} (h : s.lt = some t) :
    needLtValid s = .ok t := by
  rw [needLtValid, h]

/-- Settles O31: after the table, the index is tested. -/
theorem ltrdiReadsIndToPol : Obligations.LtrdiReadsIndToPol := by
  intro i s
  refine ⟨decode_of_encode (by simp [encode, commandWord_eq]),
    fun hl => command_first_check_fails _ rfl (needLtValid_of_none hl), fun t hl hi => ?_,
    fun t hl hi => ?_⟩
  all_goals refine (command_first_check_passes _ rfl (needLtValid_of_some hl)).trans ?_
  · rw [modulusOrder_eq, if_pos hi, finish_error]
  · rw [modulusOrder_eq, if_neg (Nat.not_le.2 hi)]
    rfl

/-- Settles O32: after the table, the index is tested. -/
theorem ltrdpReadsPolToInd : Obligations.LtrdpReadsPolToInd := by
  intro v s
  refine ⟨decode_of_encode (by simp [encode, commandWord_eq]),
    fun hl => command_first_check_fails _ rfl (needLtValid_of_none hl), fun t hl hv => ?_,
    fun t hl h0 hv => ?_⟩
  all_goals refine (command_first_check_passes _ rfl (needLtValid_of_some hl)).trans ?_
  · rw [modulusOrder_eq, if_pos hv, finish_error]
  · rw [modulusOrder_eq, if_neg (not_or.2 ⟨h0, Nat.not_le.2 hv⟩)]
    rfl

/-! ## The verdict of the builder (R100) -/

/-- A word of positive degree is at least 2. -/
theorem two_le_of_degree_pos {w : Nat} {m : Word} (hm : m.toNat < 2 ^ w)
    (hd : 1 ≤ modulusDegree w m) : 2 ≤ m.toNat := by
  rcases Nat.eq_zero_or_pos m.toNat with h0 | h1
  · have : modulusDegree w m = 0 := scanDown_of_clear fun q _ => by simp [BitVec.getLsbD, h0]
    omega
  · exact (Nat.pow_le_pow_right (n := 2) (by omega) hd).trans (modulusDegree_bounds hm h1).1

/-- The build succeeds when no pass has cleared the verdict and the last one is back at 1. -/
theorem buildLogTable_isSome_iff (w : Nat) (m : Word) :
    (buildLogTable w m).isSome = true ↔
      (logAt w m (modulusOrder w m - 1)).ok = true ∧
      (logAt w m (modulusOrder w m - 1)).cur = 1 := by
  simp only [buildLogTable, logAt]
  split
  case isTrue h => exact iff_of_true rfl h
  case isFalse h => exact iff_of_false nofun h

/-- Settles O57: the verdict and the last power, pass by pass (`logAt_ok`, `logAt_cur`). -/
theorem logTableVerdictIsExact : Obligations.LogTableVerdictIsExact := by
  intro w m hfits hd
  have hm : GoodModulus w m := ⟨two_le_of_degree_pos hfits (by omega), hfits⟩
  rw [buildLogTable_isSome_iff, logAt_ok hm hd, logAt_cur hm hd, and_comm]

/-! ## The powers of an element (R81) -/

section
variable {w : Width} {m a : Word} (hm : GoodModulus w m) (ha : Below w.bits m a)
include hm ha

theorem polyPow_mul (k n : Nat) :
    pow w.bits a (k * n) m = pow w.bits (pow w.bits a k m) n m := by
  induction n with
  | zero => rw [Nat.mul_zero, polyPow_zero, polyPow_zero]
  | succ n ih => rw [Nat.mul_succ, polyPow_add hm ha, ih, polyPow_succ hm (polyPow_below hm ha k)]

/-- Exponents count modulo any exponent whose power is 1. -/
theorem polyPow_mod_of_eq_one {k : Nat} (hk : pow w.bits a k m = 1) (n : Nat) :
    pow w.bits a (n % k) m = pow w.bits a n m := by
  conv_rhs => rw [← Nat.mod_add_div n k]
  rw [polyPow_add hm ha, polyPow_mul hm ha, hk, polyPow_one_base hm,
    mulReduce_one_right hm (polyPow_below hm ha _)]

end

/-! ## A table in order has a primitive generator (`10_state.md` R19) -/

theorem mulReduce_xor_left (w : Nat) (a b c m : Word) :
    mulReduce w (a ^^^ b) c m = mulReduce w a c m ^^^ mulReduce w b c m :=
  mulLoop_xor_left ..

section
variable {w : Width} {m : Word} (hm : GoodModulus w m) (hd : 2 ≤ modulusDegree w.bits m)
  (hsurj : ∀ v, Below w.bits m v → v ≠ 0 →
    ∃ k, k < modulusOrder w.bits m - 1 ∧ pow w.bits 2 k m = v)
include hm hd hsurj

/-- If the powers of `x` are all the nonzero values, one of them, `x * c`, is `x + 1`, and
`x * (c + 1)` is 1. -/
theorem exists_inverse_two : ∃ c, Below w.bits m c ∧ mulReduce w.bits 2 c m = 1 := by
  have h3 : Below w.bits m 3 := (by decide : (3 : Word).toNat < 4).trans_le (four_le_order hd)
  obtain ⟨k, -, hk⟩ := hsurj 3 h3 (by decide)
  cases k with
  | zero => exact absurd ((polyPow_zero ..).symm.trans hk) (by decide)
  | succ k =>
    have hc := below_xor (pow_two_below hm hd k) (below_one hm)
    refine ⟨_, hc, ?_⟩
    rw [mulReduce_comm (below_two hd) hc, mulReduce_xor_left, ← pow_two_succ hm hd, hk,
      mulReduce_one_left (below_two hd)]
    rfl

/-- So multiplication by `x` can be cancelled. -/
theorem mulReduce_two_cancel {a b : Word} (ha : Below w.bits m a) (hb : Below w.bits m b)
    (h : mulReduce w.bits a 2 m = mulReduce w.bits b 2 m) : a = b := by
  obtain ⟨c, -, hc⟩ := exists_inverse_two hm hd hsurj
  have undo {v : Word} (hv : Below w.bits m v) :
      mulReduce w.bits (mulReduce w.bits v 2 m) c m = v := by
    rw [mulReduce_assoc hm hv (below_two hd), hc, mulReduce_one_right hm hv]
  rw [← undo ha, h, undo hb]

theorem pow_two_ne_zero (n : Nat) : pow w.bits 2 n m ≠ 0 := by
  induction n with
  | zero =>
    rw [polyPow_zero]
    decide
  | succ n ih =>
    intro h
    refine ih (mulReduce_two_cancel hm hd hsurj (pow_two_below hm hd n) (below_zero _ _) ?_)
    rw [← pow_two_succ hm hd, h, mulReduce_zero_left]

/-- The power `order - 1` is one of the smaller powers; were it not the first, two smaller
powers would be equal. -/
theorem primitive_of_powers (hinj : ∀ i j, i < j → j < modulusOrder w.bits m - 1 →
    pow w.bits 2 i m ≠ pow w.bits 2 j m) : Primitive w.bits m where
  pow_order := by
    have hfour := four_le_order hd
    obtain ⟨k, hk, hpow⟩ := hsurj _ (pow_two_below hm hd (modulusOrder w.bits m - 1))
      (pow_two_ne_zero hm hd hsurj _)
    cases k with
    | zero => rw [← hpow, polyPow_zero]
    | succ k =>
      obtain ⟨n, hn⟩ : ∃ n, modulusOrder w.bits m - 1 = n + 1 :=
        ⟨_, (Nat.succ_pred (by omega)).symm⟩
      rw [hn, pow_two_succ hm hd, pow_two_succ hm hd] at hpow
      have heq := mulReduce_two_cancel hm hd hsurj (pow_two_below hm hd k)
        (pow_two_below hm hd n) hpow
      exact absurd heq (hinj k n (by omega) (by omega))
  pow_ne_one i h0 hi h := hinj 0 i h0 hi ((polyPow_zero ..).trans h.symm)

end

/-! ## Lookups agree with the direct arithmetic (R109) -/

section
variable {p : Params} {t : LogBank} (ht : t.Wf p)
include ht

theorem LogBank.Wf.goodModulus : GoodModulus p.width t.mod := by
  obtain ⟨hmod, -⟩ := ht
  exact goodModulus_of_modulusOk hmod

theorem LogBank.Wf.two_le_degree : 2 ≤ modulusDegree p.width.bits t.mod := by
  obtain ⟨-, hd, -⟩ := ht
  exact hd

theorem LogBank.Wf.primitive : Primitive p.width.bits t.mod := by
  obtain ⟨-, -, -, -, -, -, -, hinj, -⟩ := id ht
  exact primitive_of_powers ht.goodModulus ht.two_le_degree
    (fun v hv h0 => ⟨_, logOf_spec ht hv h0⟩) hinj

/-- Powers of 2 whose exponents agree modulo `order - 1` are equal. -/
theorem LogBank.Wf.pow_two_eq {i j : Nat} (h : i ≡ j [MOD modulusOrder p.bits t.mod - 1]) :
    pow p.bits 2 i t.mod = pow p.bits 2 j t.mod := by
  have hmod := polyPow_mod_of_eq_one ht.goodModulus (below_two ht.two_le_degree)
    ht.primitive.pow_order
  exact (hmod i).symm.trans ((congrArg (pow p.bits 2 · t.mod) h).trans (hmod j))

/-- Every entry of `indToPol` is the power of 2 of its index. -/
theorem expOf_eq_pow {i : Nat} (hi : i < 2 * (modulusOrder p.bits t.mod - 1)) :
    expOf t i = pow p.bits 2 i t.mod := by
  rcases Nat.lt_or_ge i (modulusOrder p.bits t.mod - 1) with h | h
  · exact expOf_low ht h
  · obtain ⟨j, rfl⟩ := Nat.exists_eq_add_of_le' h
    rw [expOf_high ht (by omega)]
    exact ht.pow_two_eq (by simp [Nat.ModEq])

/-- The sum of the logarithms is the logarithm of the product (R104). -/
theorem logProduct_eq_mulReduce {a b : Word} (ha : Below p.bits t.mod a)
    (hb : Below p.bits t.mod b) :
    (if a = 0 ∨ b = 0 then 0 else expOf t (logOf t a + logOf t b)) =
      mulReduce p.bits a b t.mod := by
  split
  case isTrue h0 =>
    rcases h0 with rfl | rfl
    · exact (mulReduce_zero_left ..).symm
    · exact (mulReduce_zero_right ..).symm
  case isFalse h0 =>
    push Not at h0
    obtain ⟨hla, hpa⟩ := logOf_spec ht ha h0.1
    obtain ⟨hlb, hpb⟩ := logOf_spec ht hb h0.2
    have hadd := polyPow_add ht.goodModulus (below_two ht.two_le_degree) (logOf t a) (logOf t b)
    rw [expOf_eq_pow ht (by omega)]
    exact hadd.trans (congrArg₂ (mulReduce p.bits · · t.mod) hpa hpb)

/-- The product of the logarithm with the exponent is the logarithm of the power (R106). -/
theorem logPower_eq_pow {a : Word} (ha : Below p.bits t.mod a) (n : Word) :
    (if a = 0 then (if n = 0 then 1 else 0)
      else expOf t (logOf t a * n.toNat % (modulusOrder p.bits t.mod - 1))) =
      pow p.bits a n.toNat t.mod := by
  split
  case isTrue h0 =>
    subst h0
    split
    case isTrue hn => rw [hn, show (0 : Word).toNat = 0 from rfl, polyPow_zero]
    case isFalse hn =>
      exact (polyPow_zero_base ht.goodModulus fun h => hn (BitVec.eq_of_toNat_eq h)).symm
  case isFalse h0 =>
    obtain ⟨hla, hpa⟩ := logOf_spec ht ha h0
    have hlt := Nat.mod_lt (logOf t a * n.toNat) (Nat.zero_lt_of_lt hla)
    have hmul := polyPow_mul ht.goodModulus (below_two ht.two_le_degree) (logOf t a) n.toNat
    rw [expOf_low ht hlt, ht.pow_two_eq (Nat.mod_modEq _ _)]
    exact hmul.trans (congrArg (pow p.bits · n.toNat t.mod) hpa)

end

/-- The difference of two exponents is a sum, as `order - 1 + 1` times an exponent is that
exponent modulo `order - 1`. -/
theorem logDifference_modEq {ord v : Nat} (hord : 2 ≤ ord) (u : Nat) (hv : v < ord - 1) :
    logDifference ord u v ≡ u + v * (ord - 2) [MOD ord - 1] := by
  obtain ⟨n, rfl⟩ : ∃ n, ord = n + 2 := ⟨ord - 2, by omega⟩
  apply Nat.ModEq.add_right_cancel' v
  calc logDifference (n + 2) u v + v ≡ u [MOD n + 1] := by
        unfold logDifference
        split
        · rw [Nat.sub_add_cancel (by omega)]
          exact Nat.add_modEq_right
        · rw [Nat.sub_add_cancel (by omega)]
    _ ≡ u + v * (n + 1) [MOD n + 1] := (Nat.add_mul_modulus_modEq_iff.2 rfl).symm
    _ = u + v * n + v := by ring

/-- The difference of the logarithms is the logarithm of the quotient (R105): the inverse of the
divisor is its power `order - 2`. -/
theorem logQuotient_eq_divide {p : Params} {t : LogBank} (ht : t.Wf p) {a b : Word}
    (ha : Below p.bits t.mod a) (ha0 : a ≠ 0) (hb : Below p.bits t.mod b) (hb0 : b ≠ 0) :
    expOf t (logDifference (modulusOrder p.bits t.mod) (logOf t a) (logOf t b)) =
      divide p.bits a b t.mod := by
  obtain ⟨hla, hpa⟩ := logOf_spec ht ha ha0
  obtain ⟨hlb, hpb⟩ := logOf_spec ht hb hb0
  have hm := ht.goodModulus
  have h2 := below_two ht.two_le_degree
  have hlt : logDifference (modulusOrder p.bits t.mod) (logOf t a) (logOf t b) <
      2 * (modulusOrder p.bits t.mod - 1) := by
    unfold logDifference
    split <;> omega
  calc expOf t (logDifference (modulusOrder p.bits t.mod) (logOf t a) (logOf t b))
      = pow p.bits 2 (logDifference (modulusOrder p.bits t.mod) (logOf t a) (logOf t b)) t.mod :=
        expOf_eq_pow ht hlt
    _ = pow p.bits 2 (logOf t a + logOf t b * (modulusOrder p.bits t.mod - 2)) t.mod :=
        ht.pow_two_eq (logDifference_modEq hm.two_le_order _ hlb)
    _ = mulReduce p.bits (pow p.bits 2 (logOf t a) t.mod)
          (pow p.bits 2 (logOf t b * (modulusOrder p.bits t.mod - 2)) t.mod) t.mod :=
        polyPow_add hm h2 _ _
    _ = mulReduce p.bits (pow p.bits 2 (logOf t a) t.mod)
          (pow p.bits (pow p.bits 2 (logOf t b) t.mod) (modulusOrder p.bits t.mod - 2) t.mod)
          t.mod := congrArg (mulReduce p.bits _ · t.mod) (polyPow_mul hm h2 _ _)
    _ = divide p.bits a b t.mod := by rw [hpa, hpb, divide, inverse]

/-- Settles O59: the same checks, and a lookup gives the computed value. -/
theorem logTableAgreesWithDirect : Obligations.LogTableAgreesWithDirect := by
  intro s rd ra rb n t hs hl
  have ht := hs.lt t hl
  refine ⟨fun a b h hm => ?_, fun a h hm => ?_⟩
  · obtain ⟨-, hord, ha, hb⟩ := ready2_below hs.regs h
    rw [← hm] at hord ha hb
    constructor
    · obtain ⟨-, -, -, hlmul⟩ := lmulAddsLogs rd ra rb s
      obtain ⟨-, -, hmul⟩ := mulIsMulReduce rd ra rb s
      exact (hlmul a b t _ h hl hm rfl).trans
        (hmul a b _ h (hm ▸ logProduct_eq_mulReduce ht ha hb)).symm
    · obtain ⟨-, -, -, hldiv⟩ := ldivSubtractsLogs rd ra rb s
      obtain ⟨hlzero, hldividend, hlquot⟩ := hldiv a b t h hl hm
      obtain ⟨-, -, hzero, hdiv⟩ := divIsProductByInverse rd ra rb s
      by_cases hb0 : b.val = 0
      · exact (hlzero hb0).trans (hzero a b h hb0).symm
      by_cases ha0 : a.val = 0
      · refine (hldividend hb0 ha0).trans (hdiv a b _ h hb0 ?_).symm
        rw [ha0, mulReduce_zero_left]
      · refine (hlquot _ _ _ hb0 ha0 rfl rfl rfl).trans (hdiv a b _ h hb0 ?_).symm
        rw [← expOf_logDifference, hord, logQuotient_eq_divide ht ha ha0 hb hb0, hm, divide]
  · obtain ⟨-, hord, ha⟩ := ready1_below hs.regs h
    rw [← hm] at hord ha
    obtain ⟨-, -, -, hlpow⟩ := lpowMultipliesTheLog rd ra n s
    obtain ⟨-, -, hpow⟩ := powTakesA64BitExponent rd ra n s
    refine (hlpow a t _ h hl hm rfl).trans (hpow a _ h ?_).symm
    rw [hord, logPower_eq_pow ht ha, hm]

/-! ## The worked tables of the field of modulus 11 (R110, `43_full_table.md` R129) -/

/-- `FTBUILDM` of a modulus that fits holds the products and no quotients. -/
theorem exec_ftbuildm_fits {s : State} {imm1 : Word}
    (hw : (Instr.ftbuildm imm1).wellFormed s.params = true)
    (h2 : 2 ≤ (modulusOperand s.params imm1).toNat)
    (hmax : modulusDegree s.params.bits (modulusOperand s.params imm1) ≤ s.params.ftDegMax) :
    exec (.ftbuildm imm1) s = .next (done (setFt s (some
      { mod := modulusOperand s.params imm1
        mulTable := buildMulTable s.params.bits (modulusOperand s.params imm1)
        divTable := none })) 0) := by
  refine (command_first_check_passes _ hw (needModulus_of_ge h2)).trans ?_
  rw [if_neg (Nat.not_lt.2 hmax)]
  rfl

/-- `FTBUILDD` of the modulus of the products adds the quotients. -/
theorem exec_ftbuildd_of_tag {s : State} {imm1 : Word} {f : FullBank}
    (hw : (Instr.ftbuildd imm1).wellFormed s.params = true)
    (h2 : 2 ≤ (modulusOperand s.params imm1).toNat) (hf : s.ft = some f)
    (hm : f.mod = modulusOperand s.params imm1) :
    exec (.ftbuildd imm1) s = .next (done (setFt s (some
      { f with
        divTable := some (buildDivTable s.params.bits (modulusOperand s.params imm1)) })) 0) :=
  command_two_checks_pass hw (needModulus_of_ge h2) rfl (needFtm_of_tag hf hm) rfl

/-- The tables of R110. -/
theorem buildLogTable_field11 : buildLogTable 8 11 = some
    { mod := 11
      indToPol := [1, 2, 4, 3, 6, 7, 5, 1, 2, 4, 3, 6, 7, 5].map some
      polToInd := none :: [0, 1, 3, 2, 6, 4, 5].map some } := by decide

/-- The products of R129. -/
theorem buildMulTable_field11 : buildMulTable 8 11 =
    ([0, 0, 0, 0, 0, 0, 0, 0] ++ [0, 1, 2, 3, 4, 5, 6, 7] ++ [0, 2, 4, 6, 3, 1, 7, 5] ++
      [0, 3, 6, 5, 7, 4, 1, 2] ++ [0, 4, 3, 7, 6, 2, 5, 1] ++ [0, 5, 1, 4, 2, 7, 3, 6] ++
      [0, 6, 7, 1, 5, 3, 2, 4] ++ [0, 7, 5, 2, 1, 6, 4, 3]).map some := by decide

/-- The quotients of R129. -/
theorem buildDivTable_field11 : buildDivTable 8 11 =
    (none :: [0, 0, 0, 0, 0, 0, 0].map some) ++ (none :: [1, 5, 6, 7, 2, 3, 4].map some) ++
      (none :: [2, 1, 7, 5, 4, 6, 3].map some) ++ (none :: [3, 4, 1, 2, 6, 5, 7].map some) ++
      (none :: [4, 2, 5, 1, 3, 7, 6].map some) ++ (none :: [5, 7, 3, 6, 1, 4, 2].map some) ++
      (none :: [6, 3, 2, 4, 7, 1, 5].map some) ++
      (none :: [7, 6, 4, 3, 5, 2, 1].map some) := by decide

/-- Settles O58: #11 is a legal modulus operand of degree 3, so the three builds run, and what
they build at width 8 is computed. -/
theorem workedTablesOfField11 : Obligations.WorkedTablesOfField11 := by
  intro s hwidth hmode hlog hft hftdeg
  have hbits : s.params.bits = 8 := by
    rw [Params.bits, hwidth]
    rfl
  have hop : modulusOperand s.params 11 = 11 := modulusOperand_runtime 11 hmode
  have h2 : 2 ≤ (modulusOperand s.params 11).toNat := by
    rw [hop]
    decide
  have hdeg : modulusDegree s.params.bits (modulusOperand s.params 11) = 3 := by
    rw [hop, hbits]
    rfl
  have hcheck : s.params.checkModulus 11 = none := by
    simp [checkModulus_eq_none_iff, hmode, Params.fits, hbits]
  constructor
  · obtain ⟨-, -, -, -, hbuild⟩ := ltbuildBuildsOrInvalidates 11 _ s rfl
    obtain ⟨-, hsome⟩ := hbuild ((wellFormed_ltbuild_iff ..).2 hcheck) h2 (by omega) (by omega)
    rw [hop, hbits] at hsome
    exact ⟨_, (hsome _ buildLogTable_field11).2, rfl⟩
  · have hproducts := exec_ftbuildm_fits ((wellFormed_ftbuildm_iff ..).2 ⟨hft, hcheck⟩) h2
      (hdeg.le.trans hftdeg)
    refine ⟨_, _, hproducts,
      exec_ftbuildd_of_tag ((wellFormed_ftbuildd_iff ..).2 ⟨hft, hcheck⟩) h2 rfl rfl, ?_⟩
    simp only [done_ft, setFt_ft, done_params, setFt_params, hop, hbits, buildMulTable_field11,
      buildDivTable_field11]

end Sys2Proof.Machine
end

section
/-! PROOFS, part 13. The full tables: their commands (`43_full_table.md` R123 to R127), and their
agreement with the direct arithmetic (R128). -/

namespace Sys2Proof.Machine

/-! ## Which operands are legal (R44) -/

section
variable (p : Params) (rd ra rb : Reg)

/-! The lookups, as `FTINV`, check the option `FT` and nothing else. -/

@[simp] theorem wellFormed_fmul_eq : (Instr.fmul rd ra rb).wellFormed p = p.hasFt :=
  wellFormed_ftinv_eq p

@[simp] theorem wellFormed_fdiv_eq : (Instr.fdiv rd ra rb).wellFormed p = p.hasFt :=
  wellFormed_ftinv_eq p

end

/-! ## The commands of the full tables (R123 to R127) -/

/-- Settles O33: the checks of the modulus and of its degree come before the build. -/
theorem ftbuildmBuildsTheProducts : Obligations.FtbuildmBuildsTheProducts := by
  rintro imm1 _ s rfl
  refine ⟨decode_of_encode (by simp [encode, commandWord_eq]), command_illegal _, fun hw hm => ?_,
    fun hw hm hmax => ?_, fun hw hm hmax => ?_⟩
  · exact command_first_check_fails _ hw (needModulus_of_lt hm)
  · refine (command_first_check_passes _ hw (needModulus_of_ge hm)).trans ?_
    rw [if_pos hmax, finish_error]
  · exact exec_ftbuildm_fits hw hm hmax

/-- Settles O34: after the modulus, the tag of the products is tested. -/
theorem ftbuilddBuildsTheQuotients : Obligations.FtbuilddBuildsTheQuotients := by
  rintro imm1 _ s rfl
  refine ⟨decode_of_encode (by simp [encode, commandWord_eq]), command_illegal _, fun hw hm => ?_,
    fun hw hm hft => ?_, fun f hw hm hf htag => ?_⟩
  · exact command_first_check_fails _ hw (needModulus_of_lt hm)
  · exact command_second_check_fails hw (needModulus_of_ge hm) rfl (needFtm_of_mismatch hft)
  · exact exec_ftbuildd_of_tag hw hm hf htag

/-- Settles O35: the checks are those of the option, of the sources and of the tables' tag. -/
theorem fmulLooksUpTheProduct : Obligations.FmulLooksUpTheProduct := by
  intro rd ra rb s
  simp only [← wellFormed_fmul_eq s.params rd ra rb]
  refine ⟨decode_of_encode (by simp [encode, commandWord_eq, plain]), command_illegal _,
    fun k hw h => command_first_check_fails _ hw (twoSources_fails h), fun a b hw h hft => ?_, ?_⟩
  · exact command_second_check_fails hw (twoSources_ready h) rfl (needFtm_of_mismatch hft)
  · rintro a b f _ hw h hf htag rfl
    exact command_two_checks_pass hw (twoSources_ready h) rfl (needFtm_of_tag hf htag) rfl

/-- Settles O36: the divisor is tested after the option, the sources and the tables' tag. -/
theorem fdivLooksUpTheQuotient : Obligations.FdivLooksUpTheQuotient := by
  intro rd ra rb s
  simp only [← wellFormed_fdiv_eq s.params rd ra rb]
  refine ⟨decode_of_encode (by simp [encode, commandWord_eq, plain]), command_illegal _,
    fun k hw h => command_first_check_fails _ hw (twoSources_fails h), fun a b hw h hft => ?_,
    fun a b f t hw h hf htag ht => ⟨fun hb => ?_, fun r hb hr => ?_⟩⟩
  · exact command_second_check_fails hw (twoSources_ready h) rfl (needFtd_of_mismatch hft)
  all_goals
    refine (command_two_checks_lead hw (twoSources_ready h) rfl
      (needFtd_of_tag hf htag ht)).trans ?_
  · rw [needNonzero_of_eq hb]
    rfl
  · rw [needNonzero_of_ne hb, hr]
    rfl

/-! ## Lookups agree with the direct arithmetic (R128) -/

/-- Settles O60: the same checks, and the entry of a pair is its computed value. -/
theorem fullTableAgreesWithDirect : Obligations.FullTableAgreesWithDirect := by
  intro s rd ra rb f a b hs hf h htag
  obtain ⟨hft, hwf⟩ := hs.ft f hf
  obtain ⟨-, hord, ha, hb⟩ := ready2_below hs.regs h
  rw [← htag] at hord ha hb
  refine ⟨?_, fun hquot => ?_⟩
  · obtain ⟨-, -, -, -, hfmul⟩ := fmulLooksUpTheProduct rd ra rb s
    obtain ⟨-, -, hmul⟩ := mulIsMulReduce rd ra rb s
    refine (hfmul a b f _ hft h hf htag rfl).trans (hmul a b _ h ?_).symm
    rw [hord, readEntry_mulTable hwf ha hb, htag]
  · obtain ⟨t, ht⟩ := Option.ne_none_iff_exists'.1 hquot
    obtain ⟨-, -, -, -, hfdiv⟩ := fdivLooksUpTheQuotient rd ra rb s
    obtain ⟨hfzero, hflookup⟩ := hfdiv a b f t hft h hf htag ht
    obtain ⟨-, -, hzero, hdiv⟩ := divIsProductByInverse rd ra rb s
    by_cases hb0 : b.val = 0
    · exact (hfzero hb0).trans (hzero a b h hb0).symm
    · refine (hflookup _ hb0 rfl).trans (hdiv a b _ h hb0 ?_).symm
      rw [hord, readEntry_divTable hwf ha hb ht hb0, htag, divide]

end Sys2Proof.Machine
end

section
/-! PROOFS, part 14. The commands of `STATUS` (`44_system.md` R135, R136). -/

namespace Sys2Proof.Machine

/-- R135: `GETSTAT` is always legal; its answer is all it adds. -/
theorem exec_getstat (s : State) : exec .getstat s = .next (done s (statusResult s.status)) :=
  command_legal _ rfl

/-- R136: `CLRSTAT` is always legal; clearing `STATUS` is all it does before it answers 0. -/
theorem exec_clrstat (s : State) : exec .clrstat s = .next (done (setStatus s 0) 0) :=
  command_legal _ rfl

/-- Settles O37: both are always legal, and `setStatus` writes `STATUS` alone. -/
theorem statusIsReadAndCleared : Obligations.StatusIsReadAndCleared := by
  intro s
  exact ⟨decode_of_encode (by simp [encode, commandWord_eq, plain]),
    decode_of_encode (by simp [encode, commandWord_eq, plain]), exec_getstat s,
    setStatus s 0, exec_clrstat s, setStatus_status s 0, elem_setStatus s 0,
    setStatus_lt s 0, setStatus_ft s 0⟩

end Sys2Proof.Machine
end

section
/-! PROOFS, part 15. The effects that the instructions' rules are written with, and what a failing
command changes (`60_exceptions.md` R140, R150). -/

namespace Sys2Proof.Machine

/-! ## The codes of the failures (R140) -/

theorem one_le_code (k : Failure) : 1 ≤ k.code := by cases k <;> decide

/-- `ERR` holds every code in its four bits. -/
@[simp] theorem err_toNat (k : Failure) : k.err.toNat = k.code := by cases k <;> rfl

/-- The constructors stand in the order of the codes, so a code gives its failure back. -/
theorem ofNat_code (k : Failure) : Failure.ofNat (k.code - 1) = k := by cases k <;> rfl

theorem code_injective : Function.Injective Failure.code := fun k k' h => by
  rw [← ofNat_code k, h, ofNat_code]

/-! ## The effects -/

/-- R17, R150: `raise` field by field. -/
theorem raise_effect (s : State) (k : Failure) :
    1 ≤ k.code ∧ k.code ≤ 9 ∧
    (∀ j, j < 16 →
      (raise s k).status.getLsbD j = (s.status.getLsbD j || decide (j = k.code))) ∧
    (∃ r : Response, (raise s k).responses = s.responses ++ [r] ∧ r.err.toNat = k.code ∧
      r.res = 0) ∧
    (∀ r, (raise s k).elem r = s.elem r) ∧ (raise s k).lt = s.lt ∧ (raise s k).ft = s.ft :=
  ⟨one_le_code k, code_le_nine k, fun j _ => setFlag_getLsbD s.status k j,
    ⟨_, raise_responses s k, err_toNat k, rfl⟩, elem_raise s k, raise_lt s k, raise_ft s k⟩

/-- R6: the register that `E[r] <- (v, m)` writes holds the value with the whole field state. -/
theorem writeElem_written (s : State) (r : Reg) (v m : Word) :
    ∃ e, (writeElem s r v m).elem r = some e ∧ e.val = v ∧
      e.mod = modulusOperand s.params m ∧
      e.deg.toNat = modulusDegree s.params.bits (modulusOperand s.params m) ∧
      e.ord.toNat = 2 ^ modulusDegree s.params.bits (modulusOperand s.params m) :=
  ⟨mkElem s.params v (modulusOperand s.params m), by rw [elem_writeElem, if_pos rfl], rfl, rfl,
    degree_toNat s.params.width _, modulusOrder_toNat s.params.width _⟩

theorem elem_writeElem_of_ne (s : State) {r q : Reg} (v m : Word) (h : q ≠ r) :
    (writeElem s r v m).elem q = s.elem q := by
  rw [elem_writeElem, if_neg h]

/-- Settles O12: each clause is one of the laws of the effect it names. -/
theorem failureSetsItsBitAndAnswersItsCode : Obligations.FailureSetsItsBitAndAnswersItsCode :=
  ⟨raise_effect, @code_injective, rfl, rfl, rfl, rfl, rfl, rfl, rfl, rfl, rfl,
    fun s v => ⟨done_responses s v, elem_done s v, done_status s v, done_lt s v, done_ft s v,
      done_params s v⟩,
    fun s r v m => ⟨writeElem_written s r v m, fun _ => elem_writeElem_of_ne s v m,
      writeElem_status s r v m, writeElem_lt s r v m, writeElem_ft s r v m,
      writeElem_params s r v m, writeElem_responses s r v m⟩,
    fun s b f => ⟨setLt_lt s b, setLt_ft s b, setFt_ft s f, setFt_lt s f,
      fun r => ⟨elem_setLt s b r, elem_setFt s f r⟩, setLt_status s b, setFt_status s f,
      setLt_params s b, setFt_params s f, setLt_responses s b, setFt_responses s f⟩⟩

/-! ## What a failing command changes (R150) -/

/-- No failure answers `ERR` 0, the code of success. -/
theorem err_ne_zero (k : Failure) : k.err ≠ 0 := by cases k <;> decide

/-- Settles O40: a command that ends with `done` answers `ERR` 0 and, but for `CLRSTAT`, keeps
`STATUS`; of those that end with `raise`, only an `LTBUILD` whose build fails wrote before it. -/
theorem failingCommandChangesOnlyStatus : Obligations.FailingCommandChangesOnlyStatus := by
  intro i s t h
  cases exec_ends h with
  | fails k => exact ⟨_, rfl, fun h0 => absurd h0 (err_ne_zero k), fun _ => ⟨k, rfl, .inl rfl⟩⟩
  | buildFails imm1 m hi hw hm hb =>
    obtain ⟨hmod, h2, hd, hmax⟩ := needLogDegree_ok hm
    exact ⟨_, rfl, fun h0 => absurd h0 (err_ne_zero _), fun _ =>
      ⟨_, rfl, .inr ⟨⟨imm1, m, hi, hw, hm, hmod, h2, hd, hmax, hb⟩, rfl, rfl⟩⟩⟩
  | clears hi => exact ⟨_, rfl, fun _ hne => absurd hi hne, fun h0 => absurd rfl h0⟩
  | answers | writesReg | setsLt | setsFt =>
    exact ⟨_, rfl, fun _ _ => rfl, fun h0 => absurd rfl h0⟩

end Sys2Proof.Machine
end
